-- ==== Sys2Proof/Word.lean ====
section
/-! DEFINITION. The word of the block (00_scope.md rules R7, R8, R12): 32 bits, bit 0 the least significant, read as
an unsigned number wherever a rule computes with it. -/

namespace Sys2Proof

/-- R7: every register, every memory word and every container word is 32 bits. -/
abbrev Word := BitVec 32

end Sys2Proof
end

