-- ==== Sys2Proof/Syntax.lean ====
section
/-! DEFINITION. The commands of the block: one constructor for each row of 30_encoding.md rule R64. A command takes no
operand from its word: operands come from registers (R68). -/

namespace Sys2Proof

/-- R64: the 19 commands. -/
inductive Instr where
  /-- BITLEN: bits needed for one value (R87). -/
  | bitlen
  /-- WIDTH: the bit-width estimator over SEQ (R88). -/
  | width
  /-- RDFIELD: read a field of CONT at a bit offset (R98). -/
  | rdfield
  /-- WRFIELD: write a field of CONT at a bit offset (R99). -/
  | wrfield
  /-- ENCODE.OVL (R107). -/
  | encodeOvl
  /-- ENCODE.NOV (R117). -/
  | encodeNov
  /-- ENCODE.OVF (R131). -/
  | encodeOvf
  /-- DECODE.OVL (R109). -/
  | decodeOvl
  /-- DECODE.NOV (R119). -/
  | decodeNov
  /-- DECODE.OVF (R134). -/
  | decodeOvf
  /-- DECODE.AUTO (R160). -/
  | decodeAuto
  /-- GET.OVL (R111). -/
  | getOvl
  /-- GET.NOV (R121). -/
  | getNov
  /-- GET.OVF (R136). -/
  | getOvf
  /-- GET.AUTO (R161). -/
  | getAuto
  /-- PARSE.OVL (R152). -/
  | parseOvl
  /-- PARSE.NOV (R152). -/
  | parseNov
  /-- PARSE.OVF (R152). -/
  | parseOvf
  /-- PARSE.AUTO (R162). -/
  | parseAuto
  deriving DecidableEq, Repr

end Sys2Proof
end

