-- ==== Sys2Proof/WellFormed.lean ====
section
/-! DEFINITION. When a command word is one of the block's commands (30_encoding.md rules R63, R65, R66, R67), check by
check, and what it is for an instruction as syntax to be well formed. -/

namespace Sys2Proof

/-- R63: OPCODE, bits 7..0 of a command word. -/
def opcodeField (c : Word) : BitVec 8 := c.extractLsb' 0 8

/-- R63: VAR, bits 9..8 of a command word. -/
def varField (c : Word) : BitVec 2 := c.extractLsb' 8 2

/-- R63: RSVD, bits 31..10 of a command word. -/
def rsvdField (c : Word) : BitVec 22 := c.extractLsb' 10 22

/-- R66: the reserved bits are zero. -/
def rsvdIsZero (c : Word) : Bool := rsvdField c == 0#22

/-- R67: the opcodes that are not reserved: 0x01 to 0x04 and 0x08 to 0x0B. -/
def opcodeIsAssigned (op : BitVec 8) : Bool :=
  (1#8 ≤ op && op ≤ 4#8) || (8#8 ≤ op && op ≤ 0x0B#8)

/-- R65: the VAR values an assigned opcode admits: 0 for BITLEN, WIDTH, RDFIELD and WRFIELD, 0 to 2 for ENCODE, all
four for DECODE, GET and PARSE. -/
def varIsAllowed (op : BitVec 8) (var : BitVec 2) : Bool :=
  if op ≤ 4#8 then var == 0#2 else if op == 8#8 then var != 3#2 else true

/-- R66, R67: the word encodes a command. -/
def wordIsCommand (c : Word) : Bool :=
  rsvdIsZero c && opcodeIsAssigned (opcodeField c) && varIsAllowed (opcodeField c) (varField c)

/-- R68: a command has no operand in its word, so every instruction is well formed as syntax. The checks on operands
are the commands' own, made on registers when they run. -/
abbrev Instr.WellFormed (_ : Instr) : Prop := True

end Sys2Proof
end

