-- ==== Sys2Proof/Decode.lean ====
section
/-! DEFINITION. Command decoding (30_encoding.md rule R66), total on all 2^32 words, and the encoder written from the
"command word" column of the table of rule R64. -/

namespace Sys2Proof

/-- Why a word encodes no command (R67). Each of them ends in E_ILLEGAL_CMD. -/
inductive DecodeReject where
  /-- RSVD is not zero. -/
  | reservedBits
  /-- The opcode is 0x00, 0x05 to 0x07, or 0x0C to 0xFF. -/
  | unassignedOpcode
  /-- The opcode is assigned but VAR is one it does not admit. -/
  | illegalVariant
  deriving DecidableEq, Repr

/-- R64: the opcode map, columns OPCODE and VAR, row by row. -/
def opcodeTable : List (BitVec 8 × BitVec 2 × Instr) :=
  [(0x01#8, 0#2, .bitlen), (0x02#8, 0#2, .width), (0x03#8, 0#2, .rdfield), (0x04#8, 0#2, .wrfield)] ++
  [(0x08#8, 0#2, .encodeOvl), (0x08#8, 1#2, .encodeNov), (0x08#8, 2#2, .encodeOvf)] ++
  [(0x09#8, 0#2, .decodeOvl), (0x09#8, 1#2, .decodeNov), (0x09#8, 2#2, .decodeOvf), (0x09#8, 3#2, .decodeAuto)] ++
  [(0x0A#8, 0#2, .getOvl), (0x0A#8, 1#2, .getNov), (0x0A#8, 2#2, .getOvf), (0x0A#8, 3#2, .getAuto)] ++
  [(0x0B#8, 0#2, .parseOvl), (0x0B#8, 1#2, .parseNov), (0x0B#8, 2#2, .parseOvf), (0x0B#8, 3#2, .parseAuto)]

/-- R64: the row of an opcode and a variant. -/
def tableRow (op : BitVec 8) (var : BitVec 2) : Option Instr :=
  (opcodeTable.find? fun row => row.1 == op && row.2.1 == var).map fun row => row.2.2

/-- R66: the command a word written to CMD selects, or why it selects none. -/
def decode (c : Word) : Except DecodeReject Instr :=
  if rsvdIsZero c then
    match tableRow (opcodeField c) (varField c) with
    | some i => .ok i
    | none => if opcodeIsAssigned (opcodeField c) then .error .illegalVariant else .error .unassignedOpcode
  else .error .reservedBits

/-- R64: the command word of each command. -/
def encode : Instr → Word
  | .bitlen => 0x00000001#32
  | .width => 0x00000002#32
  | .rdfield => 0x00000003#32
  | .wrfield => 0x00000004#32
  | .encodeOvl => 0x00000008#32
  | .encodeNov => 0x00000108#32
  | .encodeOvf => 0x00000208#32
  | .decodeOvl => 0x00000009#32
  | .decodeNov => 0x00000109#32
  | .decodeOvf => 0x00000209#32
  | .decodeAuto => 0x00000309#32
  | .getOvl => 0x0000000A#32
  | .getNov => 0x0000010A#32
  | .getOvf => 0x0000020A#32
  | .getAuto => 0x0000030A#32
  | .parseOvl => 0x0000000B#32
  | .parseNov => 0x0000010B#32
  | .parseOvf => 0x0000020B#32
  | .parseAuto => 0x0000030B#32

/-- The command word whose low `nbits` bits are those of `w` and whose other bits are zero. -/
def tableWord (nbits w : Nat) : Word := BitVec.ofNat 32 (w % 2 ^ nbits)

/-- The instruction the decoder reads from a word numbered as spec/opcode_table.json numbers it. A command is one
32-bit word (R63), so more than 32 bits are no command. -/
def decodeTableWord (nbits w : Nat) : Option Instr :=
  if nbits ≤ 32 then (decode (tableWord nbits w)).toOption else none

end Sys2Proof
end

