-- ==== Sys2Proof/Machine/Bits.lean ====
section
/-! DEFINITION. The arithmetic and bit primitives of 00_scope.md rules R13 to R16, on natural numbers, where nothing
wraps (R14). -/

namespace Sys2Proof.Machine

/-- R13: `ceil(a / b)`. -/
def ceilDiv (a b : Nat) : Nat := (a + b - 1) / b

/-- R15: `bitLen(x)`, the least b with x < 2^b. -/
def bitLen (x : Nat) : Nat := if x = 0 then 0 else Nat.log2 x + 1

/-- R16: `mask(w) = 2^w - 1`, the full-word mask at w = 32 included. -/
def mask (w : Nat) : Nat := 2 ^ w - 1

/-- R12: the number whose bit j is `bit j` for j < n, and 0 from bit n on. -/
def natOfBits (bit : Nat → Bool) : Nat → Nat
  | 0 => 0
  | n + 1 => natOfBits bit n ||| ((bit n).toNat <<< n)

/-- A natural number as a word: its value modulo 2^32 (R13 `trunc32`). -/
def wordOf (x : Nat) : Word := BitVec.ofNat 32 x

end Sys2Proof.Machine
end

