-- ==== Sys2Proof/Config.lean ====
section
/-! DEFINITION. What an implementation fixes: the parameters of 00_scope.md rule R9, held in the state as plain data so
that every statement about a state is a statement about every value of them (log 1); and the free values of the words
nothing has written (20_memory.md rule R54; log 2). -/

namespace Sys2Proof

/-- The three codecs (R18 "variant"): overlap, non-overlap, overflow. -/
inductive Variant where
  | ovl
  | nov
  | ovf
  deriving DecidableEq, Repr

/-- The two memories (R34, R35, R46). -/
inductive Space where
  | seq
  | cont
  deriving DecidableEq, Repr

/-- R9: the parameters of the block. None has a value in any source. -/
structure Config where
  /-- SEQ_WORDS: capacity of the sequence memory in words. -/
  seqWords : Nat
  /-- CONT_WORDS: capacity of the container memory in words. -/
  contWords : Nat
  /-- MAGIC: header word 0 of every container. -/
  magic : Word
  /-- VERSION: header word 1, the one format version written and accepted. -/
  version : Word
  /-- TAG_OVL: header word 2 of an overlap container. -/
  tagOvl : Word
  /-- TAG_NOV: header word 2 of a non-overlap container. -/
  tagNov : Word
  /-- TAG_OVF: header word 2 of an overflow container. -/
  tagOvf : Word
  deriving DecidableEq, Repr

/-- R9: the variant tag of each codec. -/
def Config.tag (c : Config) : Variant → Word
  | .ovl => c.tagOvl
  | .nov => c.tagNov
  | .ovf => c.tagOvf

/-- R9: the constraints on the parameters. -/
abbrev Config.Valid (c : Config) : Prop :=
  1 ≤ c.seqWords ∧ c.seqWords ≤ 2 ^ 31 ∧ 8 ≤ c.contWords ∧ c.contWords ≤ 2 ^ 32 - 1 ∧
    c.tagOvl ≠ c.tagNov ∧ c.tagOvl ≠ c.tagOvf ∧ c.tagNov ≠ c.tagOvf

/-- R10: the test instance P0. Only `State.reset` and the tests use it; no rule depends on it. DESIGN CHOICE (log 1). -/
def Config.p0 : Config where
  seqWords := 64
  contWords := 64
  magic := 0x42504B31#32
  version := 1#32
  tagOvl := 1#32
  tagNov := 2#32
  tagOvf := 3#32

/-- R36, R54, R191: the value of a word of SEQ or CONT that nothing has written since the last reset. A FREE VALUE: it
has no body, so nothing can be proved of it. It is a draw for each word after each reset (the first argument counts
the resets), and it stays the same until the word is written (93_implementation_defined.md rows 1 to 3). Log 2. -/
opaque Config.unspecifiedWord (epoch : Nat) (space : Space) (index : Nat) : Word

end Sys2Proof
end

