-- ==== Sys2Proof/Machine/State.lean ====
section
/-! DEFINITION. The state of the block (10_state.md), plain data: the registers of rule R21, the two memories of rules
R34 and R35, the parameters of 00_scope.md rule R9, the queue of the host's operations (30_encoding.md rule R83), and
the state after reset (70_reset_and_hazards.md rules R190, R191). -/

namespace Sys2Proof.Machine

/-- The registers of REG (R21), and one name for the reserved slots 0x14 to 0x1F. -/
inductive Reg where
  | cmd
  | status
  | errcode
  | argN
  | argI
  | argW
  | argV
  | result
  | clen
  | pTag
  | pN
  | pWidth
  | pTbits
  | pIbits
  | pOvflen
  | pPlen
  | infoMagic
  | infoVersion
  | infoSeqcap
  | infoContcap
  | reserved
  deriving DecidableEq, Repr

/-- One operation of the host (R83), and reset (R192). An index is any number: one outside its space is refused when
the operation is performed (R53). -/
inductive HostOp where
  /-- `wr`: the host writes a word to the register at an index; at index 0 (CMD) this starts a command (R22). -/
  | wr (index : Nat) (v : Word)
  /-- `rd`: the host reads the register at an index. -/
  | rd (index : Nat)
  /-- `wseq`: the host writes a word of SEQ. -/
  | wseq (index : Nat) (v : Word)
  /-- `rseq`: the host reads a word of SEQ. -/
  | rseq (index : Nat)
  /-- `wcont`: the host writes a word of CONT. -/
  | wcont (index : Nat) (v : Word)
  /-- `rcont`: the host reads a word of CONT. -/
  | rcont (index : Nat)
  /-- Reset, applied between commands (R192). -/
  | reset
  deriving DecidableEq, Repr

/-- The errors a command can end in (R169); their codes are `ErrCode.code`. They are not stops of the machine. -/
inductive ErrCode where
  /-- E_MAGIC (R171). -/
  | magic
  /-- E_VERSION (R172). -/
  | version
  /-- E_TAG (R173). -/
  | tag
  /-- E_LENGTH (R174). -/
  | length
  /-- E_PARAM (R175). -/
  | param
  /-- E_INDEX (R176). -/
  | index
  /-- E_RANGE (R177). -/
  | range
  /-- E_CAPACITY (R178). -/
  | capacity
  /-- E_ILLEGAL_CMD (R179). -/
  | illegalCmd
  /-- E_ILLEGAL_ARG (R180). -/
  | illegalArg
  deriving DecidableEq, Repr

/-- Reasons a step can stop with a fault. NONE: the spec gives the block no fault that stops it. An error of a command
is recorded in STATUS and ERRCODE and the machine goes on (R168, R184), and the host accesses the spec gives no
meaning are refusals (R53, R195). Log 7. -/
inductive Fault
  deriving DecidableEq, Repr

/-- Reasons a step has no meaning. -/
inductive Refusal where
  /-- Raised by `exec` for a command that has no meaning yet. No arm raises it. Safe. -/
  | notModelled (mnemonic : String)
  /-- Raised by the host port for a `wr` or `rd` at a REG index of 0x20 or more (R53). Safe: the host has no such
  step. -/
  | regIndexOutside (index : Nat)
  /-- Raised by the host port for a `wseq` or `rseq` at an index of SEQ_WORDS or more (R53). Safe. -/
  | seqIndexOutside (index : Nat)
  /-- Raised by the host port for a `wcont` or `rcont` at an index of CONT_WORDS or more (R53). Safe. -/
  | contIndexOutside (index : Nat)
  /-- Raised by the host port for any host access but a STATUS read while STATUS.BUSY is 1 (R195). Safe: no run from
  reset reaches it. -/
  | accessWhileBusy
  deriving DecidableEq, Repr

/-- A memory of 32-bit words, the unit every access moves (R46, R47): the words that hold a known value, by index, in
one canonical form (`Memory.wf`: indices strictly rising). An unlisted word holds no known value (R36, R54), and what
a read of it gives is `Config.unspecifiedWord` (log 2, log 10). -/
abbrev Memory := List (Nat × Word)

/-- The state of the block. -/
structure State where
  /-- The parameters of the block (R9), read by the INFO registers (R32). No step changes them. Log 1. -/
  cfg : Config
  /-- STATUS (R23): bit 0 BUSY, bit 1 ERR, bit 2 STICKY. -/
  status : Word
  /-- ERRCODE (R24). -/
  errcode : Word
  /-- ARG_N (R25). -/
  argN : Word
  /-- ARG_I (R26). -/
  argI : Word
  /-- ARG_W (R27). -/
  argW : Word
  /-- ARG_V (R28). -/
  argV : Word
  /-- RESULT (R29). -/
  result : Word
  /-- CLEN (R30). -/
  clen : Word
  /-- P_TAG (R31). -/
  pTag : Word
  /-- P_N (R31). -/
  pN : Word
  /-- P_WIDTH (R31). -/
  pWidth : Word
  /-- P_TBITS (R31). -/
  pTbits : Word
  /-- P_IBITS (R31). -/
  pIbits : Word
  /-- P_OVFLEN (R31). -/
  pOvflen : Word
  /-- P_PLEN (R31). -/
  pPlen : Word
  /-- SEQ (R34). -/
  seq : Memory
  /-- CONT (R35). -/
  cont : Memory
  /-- The model's own: how many resets there have been, which picks the draw of the unspecified words (R191). Log 3. -/
  epoch : Nat
  /-- The model's own: the host's operations not yet performed, oldest first (R37, R84). Log 4. -/
  pending : List HostOp
  /-- The model's own: the words the host's reads have returned, newest first (R51). Log 5. -/
  reads : List Word
  deriving DecidableEq, Repr

/-- R190, R191: the block with parameters `c` right after reset, no operation of the host pending. -/
def State.resetWith (c : Config) : State where
  cfg := c
  status := 0#32
  errcode := 0#32
  argN := 0#32
  argI := 0#32
  argW := 0#32
  argV := 0#32
  result := 0#32
  clen := 0#32
  pTag := 0#32
  pN := 0#32
  pWidth := 0#32
  pTbits := 0#32
  pIbits := 0#32
  pOvflen := 0#32
  pPlen := 0#32
  seq := []
  cont := []
  epoch := 0
  pending := []
  reads := []

/-- The machine right after reset, as the instance P0 of rule R10. DESIGN CHOICE (log 1): the interface asks for one
state, and the spec gives the parameters no value; statements about reset are made about `State.resetWith`. -/
def State.reset : State := State.resetWith Config.p0

end Sys2Proof.Machine
end

