-- ==== Sys2Proof/Machine/Flags.lean ====
section
/-! DEFINITION. The flags of the block, all of them in STATUS (10_state.md rules R23, R38), what the start and the two
ends of a command do to STATUS (60_exceptions.md rules R167, R168), and the error codes (rule R169). -/

namespace Sys2Proof.Machine

/-- Bit `b` of a word set to `v`, every other bit as it is. -/
def setBit (b : Nat) (v : Bool) (x : Word) : Word :=
  if v then x ||| (1#32 <<< b) else x &&& ~~~(1#32 <<< b)

/-- STATUS.BUSY (R23). -/
def State.busyFlag (s : State) : Bool := s.status.getLsbD 0

/-- STATUS.ERR (R23). -/
def State.errFlag (s : State) : Bool := s.status.getLsbD 1

/-- STATUS.STICKY (R23). -/
def State.stickyFlag (s : State) : Bool := s.status.getLsbD 2

/-- R23: STATUS when a CMD write starts a command: BUSY set. -/
def statusStarted (st : Word) : Word := setBit 0 true st

/-- R167: STATUS after a command that succeeded: ERR and BUSY cleared, STICKY kept. -/
def statusCompleted (st : Word) : Word := setBit 0 false (setBit 1 false st)

/-- R168: STATUS after a command that ended in error: ERR and STICKY set, BUSY cleared. -/
def statusRaised (st : Word) : Word := setBit 0 false (setBit 2 true (setBit 1 true st))

/-- R169, R170: E_NONE. -/
def eNone : Word := 0x00#32

/-- R169: the code of each error, in ERRCODE bits 7..0. -/
def ErrCode.code : ErrCode → Word
  | .magic => 0x01#32
  | .version => 0x02#32
  | .tag => 0x03#32
  | .length => 0x04#32
  | .param => 0x05#32
  | .index => 0x06#32
  | .range => 0x07#32
  | .capacity => 0x08#32
  | .illegalCmd => 0x09#32
  | .illegalArg => 0x0A#32

end Sys2Proof.Machine
end

