-- ==== Sys2Proof/Machine/Ops.lean ====
section
/-! DEFINITION. The named operations over memory and registers: reading and writing a word (20_memory.md rules R46,
R51, R54), a field at a bit offset (42_bitstream.md rules R93, R94), a register (10_state.md rule R21), the two ends of
a command (60_exceptions.md rules R167, R168; `raise` is the one operation that takes an error), and reset
(70_reset_and_hazards.md rules R190 to R192). -/

namespace Sys2Proof.Machine

/-! ### Memory -/

/-- The known value of word `i`, or none where nothing has written it since reset (R54). -/
def Memory.read? : Memory → Nat → Option Word
  | [], _ => none
  | (a, v) :: m, i => if a = i then some v else Memory.read? m i

/-- Word `i` set to `v`, the list kept in its canonical form. -/
def Memory.write : Memory → Nat → Word → Memory
  | [], i, v => [(i, v)]
  | (a, x) :: m, i, v =>
    if i < a then (i, v) :: (a, x) :: m
    else if i = a then (i, v) :: m
    else (a, x) :: Memory.write m i v

/-- Consecutive words from index `base` on set to the words of a list. -/
def Memory.writeList (m : Memory) (base : Nat) : List Word → Memory
  | [] => m
  | v :: vs => Memory.writeList (m.write base v) (base + 1) vs

/-- The canonical form: indices strictly rising. An unlisted word has no known value, so no entry equals it. -/
abbrev Memory.wf (m : Memory) : Prop := (m.map Prod.fst).Pairwise (· < ·)

/-- Every listed word lies in a memory of `n` words. -/
abbrev Memory.inBounds (m : Memory) (n : Nat) : Prop := ∀ cell ∈ m, cell.1 < n

/-- R54: what a read of word `i` of a memory gives: its known value, or the unspecified value of the epoch. -/
def Memory.word (m : Memory) (epoch : Nat) (space : Space) (i : Nat) : Word :=
  (m.read? i).getD (Config.unspecifiedWord epoch space i)

/-- R13: `SEQ[i]`. -/
def State.seqWord (s : State) (i : Nat) : Word := s.seq.word s.epoch .seq i

/-- R13: `CONT[i]`. -/
def State.contWord (s : State) (i : Nat) : Word := s.cont.word s.epoch .cont i

/-! ### Fields at a bit offset -/

/-- R48: stream bit `b` of the bit stream at word index `base`. -/
def streamBit (word : Nat → Word) (base b : Nat) : Bool :=
  (word (base + b / 32)).getLsbD (b % 32)

/-- R93: `FieldRead(base, off, w)`: bit j of the value is stream bit `off + j`. -/
def fieldRead (word : Nat → Word) (base off w : Nat) : Nat :=
  natOfBits (fun j => streamBit word base (off + j)) w

/-- R94, for one word: word `k` of a stream after the `w` stream bits from `off` on are set to the low bits of `v`.
Every bit of the word outside the field is as it was. -/
def patchWord (k off w v : Nat) (old : Word) : Word :=
  wordOf (natOfBits (fun b => if off ≤ 32 * k + b ∧ 32 * k + b < off + w then v.testBit (32 * k + b - off)
    else old.getLsbD b) 32)

/-- R94: `FieldWrite(base, off, w, v)` on CONT: one word where `(off mod 32) + w <= 32`, two adjacent words
otherwise. -/
def fieldWrite (epoch : Nat) (m : Memory) (base off w v : Nat) : Memory :=
  let k := off / 32
  let m₁ := m.write (base + k) (patchWord k off w v (m.word epoch .cont (base + k)))
  if off % 32 + w ≤ 32 then m₁
  else m₁.write (base + k + 1) (patchWord (k + 1) off w v (m.word epoch .cont (base + k + 1)))

/-! ### Registers -/

/-- R21: the register at an index of REG; none from 0x20 on (R53). -/
def regAt : Nat → Option Reg
  | 0x00 => some .cmd
  | 0x01 => some .status
  | 0x02 => some .errcode
  | 0x03 => some .argN
  | 0x04 => some .argI
  | 0x05 => some .argW
  | 0x06 => some .argV
  | 0x07 => some .result
  | 0x08 => some .clen
  | 0x09 => some .pTag
  | 0x0A => some .pN
  | 0x0B => some .pWidth
  | 0x0C => some .pTbits
  | 0x0D => some .pIbits
  | 0x0E => some .pOvflen
  | 0x0F => some .pPlen
  | 0x10 => some .infoMagic
  | 0x11 => some .infoVersion
  | 0x12 => some .infoSeqcap
  | 0x13 => some .infoContcap
  | i => if i < 0x20 then some .reserved else none

/-- R21: what a host read of a register gives. CMD reads 0 (R22), the INFO registers are the parameters (R32), the
reserved slots read 0 (R33). -/
def State.readReg (s : State) : Reg → Word
  | .cmd => 0#32
  | .status => s.status
  | .errcode => s.errcode
  | .argN => s.argN
  | .argI => s.argI
  | .argW => s.argW
  | .argV => s.argV
  | .result => s.result
  | .clen => s.clen
  | .pTag => s.pTag
  | .pN => s.pN
  | .pWidth => s.pWidth
  | .pTbits => s.pTbits
  | .pIbits => s.pIbits
  | .pOvflen => s.pOvflen
  | .pPlen => s.pPlen
  | .infoMagic => s.cfg.magic
  | .infoVersion => s.cfg.version
  | .infoSeqcap => wordOf s.cfg.seqWords
  | .infoContcap => wordOf s.cfg.contWords
  | .reserved => 0#32

/-- R21: a host write of a register other than CMD: the RW registers store the word, the RO registers and the reserved
slots ignore it. CMD holds no state (R22); the command a CMD write starts is the host port's. -/
def State.writeReg (s : State) (r : Reg) (v : Word) : State :=
  match r with
  | .argN => { s with argN := v }
  | .argI => { s with argI := v }
  | .argW => { s with argW := v }
  | .argV => { s with argV := v }
  | .clen => { s with clen := v }
  | .cmd | .status | .errcode | .result => s
  | .pTag | .pN | .pWidth | .pTbits | .pIbits | .pOvflen | .pPlen => s
  | .infoMagic | .infoVersion | .infoSeqcap | .infoContcap | .reserved => s

/-! ### The start and the two ends of a command, and reset -/

/-- R23: a CMD write starts a command: BUSY is 1 until it ends. -/
def State.started (s : State) : State := { s with status := statusStarted s.status }

/-- R167: `complete()`, the form that writes no RESULT. -/
def State.completeNoResult (s : State) : State :=
  { s with status := statusCompleted s.status, errcode := eNone }

/-- R167: `complete(result)`. -/
def State.complete (s : State) (result : Nat) : State :=
  { s with result := wordOf result }.completeNoResult

/-- R168: `raise E`, from the state before the command: ERRCODE and STATUS record the error and nothing else
changes. -/
def State.raise (s : State) (e : ErrCode) : State :=
  { s with status := statusRaised s.status, errcode := e.code }

/-- R168: how a command ends whose checks and effect are `r`: in the state its effect gave, or in the error of its
first failing check with no effect at all. -/
def State.finish (s : State) (r : Except ErrCode State) : Host.Outcome State Fault Refusal :=
  match r with
  | .ok t => .next t
  | .error e => .next (s.raise e)

/-- R190 to R192: reset, applied between commands: every register at its reset value, every word of SEQ and CONT
unspecified, a fresh draw of them. The host's own record is no state of the block and stays. -/
def State.resetBlock (s : State) : State :=
  { State.resetWith s.cfg with epoch := s.epoch + 1, pending := s.pending, reads := s.reads }

end Sys2Proof.Machine
end

