-- ==== Sys2Proof/Machine/Operands.lean ====
section
/-! DEFINITION. The operands of the commands (30_encoding.md rule R68): registers read as unsigned numbers, and the
input sequence in SEQ (00_scope.md rule R17). -/

namespace Sys2Proof.Machine

/-- R25, R68: n, the element count. -/
abbrev State.operandN (s : State) : Nat := s.argN.toNat

/-- R26, R68: the element index of GET, and the bit offset of RDFIELD and WRFIELD. -/
abbrev State.operandI (s : State) : Nat := s.argI.toNat

/-- R27, R68: the field width of RDFIELD and WRFIELD. -/
abbrev State.operandW (s : State) : Nat := s.argW.toNat

/-- R28, R68: the value of BITLEN and WRFIELD. -/
abbrev State.operandV (s : State) : Nat := s.argV.toNat

/-- R30, R68: the container's length in words. -/
abbrev State.operandLen (s : State) : Nat := s.clen.toNat

/-- R17: the sequence `SEQ[0..n-1]`, each value a word read as an unsigned number (R8). -/
def State.inputSequence (s : State) (n : Nat) : List Nat :=
  (List.range n).map fun i => (s.seqWord i).toNat

/-- R52: `SEQ[0..]` set to the values of a decoded sequence. -/
def State.storeSequence (s : State) (values : List Nat) : State :=
  { s with seq := s.seq.writeList 0 (values.map wordOf) }

end Sys2Proof.Machine
end

