-- ==== Sys2Proof/Machine/Bitstream.lean ====
section
/-! DEFINITION. The bit-stream commands (42_bitstream.md): RDFIELD and WRFIELD, at absolute bit offsets of CONT. The
primitives of rules R93 and R94 are `fieldRead` and `fieldWrite` of Machine/Ops.lean. -/

namespace Sys2Proof.Machine

/-- R97: the operand checks of RDFIELD and WRFIELD, in their order: the width, then the extent. -/
def checkField (s : State) : Option ErrCode :=
  let off := s.operandI
  let w := s.operandW
  if w = 0 ∨ 32 < w then some .illegalArg
  else if s.cfg.contWords ≤ (off + w - 1) / 32 then some .capacity
  else none

/-- RDFIELD (R98). -/
def execRdfield (s : State) : Host.Outcome State Fault Refusal :=
  match checkField s with
  | some e => .next (s.raise e)
  | none => .next (s.complete (fieldRead s.contWord 0 s.operandI s.operandW))

/-- WRFIELD (R99): the field's bits are replaced, RESULT is not written. -/
def execWrfield (s : State) : Host.Outcome State Fault Refusal :=
  match checkField s with
  | some e => .next (s.raise e)
  | none =>
    .next { s with cont := fieldWrite s.epoch s.cont 0 s.operandI s.operandW s.operandV }.completeNoResult

end Sys2Proof.Machine
end

