-- ==== Sys2Proof/Machine/Container.lean ====
section
/-! DEFINITION. The container (30_encoding.md Part B): lengths, field placement and header layout; the formatter, the
validator and the parameter registers (46_container.md rules R141, R148, R150); and PARSE.OVL, PARSE.NOV and
PARSE.OVF. -/

namespace Sys2Proof.Machine

/-- R65: what the VAR field asks of a container: one codec's, or whichever its tag names. -/
inductive Selector where
  | only (v : Variant)
  | auto
  deriving DecidableEq, Repr

/-- R142: the header record. -/
structure Header where
  /-- the codec -/
  var : Variant
  /-- the tag word -/
  tag : Word
  /-- the element count -/
  n : Nat
  /-- the field width: W for OVL and NOV, FW for OVF -/
  w : Nat
  /-- thresholdBits, 0 for OVL and NOV -/
  tb : Nat
  /-- indexBits, 0 for OVL and NOV -/
  ib : Nat
  /-- the overflow table's length, 0 for OVL and NOV -/
  k : Nat
  /-- the payload's first word -/
  pbase : Nat
  /-- the payload's length in words -/
  plen : Nat
  /-- L, the container's length in words -/
  len : Nat
  deriving DecidableEq, Repr

/-! ### Layout -/

/-- R73, R74: the header's length in words. -/
def headerWords : Variant → Nat
  | .ovl => 5
  | .nov => 5
  | .ovf => 8

/-- R77: the payload's length in words, of n fields of width w. -/
def payloadLength : Variant → Nat → Nat → Nat
  | .ovl, n, w => ceilDiv (n * w) 32
  | .nov, n, w => ceilDiv n (32 / w)
  | .ovf, n, w => ceilDiv (n * w) 32

/-- R80: the stream offset of field i in the payload. -/
def fieldOffset : Variant → Nat → Nat → Nat
  | .ovl, w, i => i * w
  | .nov, w, i => 32 * (i / (32 / w)) + (i % (32 / w)) * w
  | .ovf, w, i => i * w

/-- R142 with R73, R74, R77, R78: the record of a variant's header whose words are the given values. -/
def headerOf (cfg : Config) (v : Variant) (n w tb ib k : Nat) : Header where
  var := v
  tag := cfg.tag v
  n := n
  w := w
  tb := tb
  ib := ib
  k := k
  pbase := headerWords v + k
  plen := payloadLength v n w
  len := headerWords v + k + payloadLength v n w

/-- R65, R151: the VAR number of a variant. -/
def varNumber : Variant → Nat
  | .ovl => 0
  | .nov => 1
  | .ovf => 2

/-! ### Writing a container -/

/-- R141: the words of a header: `FormatHeader(V, n, w, tb, ib, k)`. -/
def headerList (cfg : Config) (h : Header) : List Word :=
  [cfg.magic, cfg.version, cfg.tag h.var, wordOf h.n, wordOf h.w] ++
  match h.var with
  | .ovl => []
  | .nov => []
  | .ovf => [wordOf h.tb, wordOf h.ib, wordOf h.k]

/-- R106, R116, R130: the fields of a list written one after the other, from element i on. -/
def placeFields (epoch : Nat) (h : Header) : Nat → List Nat → Memory → Memory
  | _, [], m => m
  | i, f :: fs, m =>
    placeFields epoch h (i + 1) fs (fieldWrite epoch m h.pbase (fieldOffset h.var h.w i) h.w f)

/-- R79: what every encoder writes: the header, the overflow table, the payload words set to zero, then the
fields. -/
def writeContainer (cfg : Config) (epoch : Nat) (h : Header) (table fields : List Nat) (m : Memory) : Memory :=
  let m₁ := m.writeList 0 (headerList cfg h)
  let m₂ := m₁.writeList (headerWords h.var) (table.map wordOf)
  let m₃ := m₂.writeList h.pbase (List.replicate h.plen 0#32)
  placeFields epoch h 0 fields m₃

/-- R150: `LoadParams(h)`. -/
def State.loadParams (s : State) (h : Header) : State :=
  { s with
    pTag := h.tag
    pN := wordOf h.n
    pWidth := wordOf h.w
    pTbits := wordOf h.tb
    pIbits := wordOf h.ib
    pOvflen := wordOf h.k
    pPlen := wordOf h.plen }

/-- R107, R117, R131: the end of every ENCODE: if the container fits CONT it is written and CLEN, the P registers and
RESULT tell of it, otherwise E_CAPACITY. -/
def storeContainer (s : State) (h : Header) (table fields : List Nat) : Except ErrCode State :=
  if s.cfg.contWords < h.len then .error .capacity
  else
    .ok (({ s with
            cont := writeContainer s.cfg s.epoch h table fields s.cont
            clen := wordOf h.len }.loadParams h).complete h.len)

/-! ### Validation -/

/-- R151: `TagVariant(t)`. -/
def tagVariant (cfg : Config) (t : Word) : Option Variant :=
  if t = cfg.tagOvl then some .ovl
  else if t = cfg.tagNov then some .nov
  else if t = cfg.tagOvf then some .ovf
  else none

/-- R145, R159: the selector takes a container of variant v. -/
def Selector.accepts : Selector → Variant → Bool
  | .only u, v => u == v
  | .auto, _ => true

/-- R144, R145: the extent and identity checks of the validator, each header word read only after it is known to lie
below CLEN. Gives the variant the tag names. -/
def checkIdentity (s : State) (sel : Selector) : Except ErrCode Variant :=
  let len := s.operandLen
  if s.cfg.contWords < len then .error .capacity
  else if len < 1 then .error .length
  else if s.contWord 0 ≠ s.cfg.magic then .error .magic
  else if len < 2 then .error .length
  else if s.contWord 1 ≠ s.cfg.version then .error .version
  else if len < 3 then .error .length
  else
    match tagVariant s.cfg (s.contWord 2) with
    | none => .error .tag
    | some v => if sel.accepts v then .ok v else .error .tag

/-- R148: the header record the words of CONT give, for the variant the tag names. -/
def readHeader (s : State) (v : Variant) : Header :=
  let n := (s.contWord 3).toNat
  let w := (s.contWord 4).toNat
  match v with
  | .ovl => headerOf s.cfg .ovl n w 0 0 0
  | .nov => headerOf s.cfg .nov n w 0 0 0
  | .ovf => headerOf s.cfg .ovf n w (s.contWord 5).toNat (s.contWord 6).toNat (s.contWord 7).toNat

/-- R147: the parameter check. -/
def parametersOk (h : Header) : Bool :=
  match h.var with
  | .ovl => decide (h.w ≠ 0 ∧ h.w ≤ 32)
  | .nov => decide (h.w ≠ 0 ∧ h.w ≤ 32)
  | .ovf => decide (h.tb ≠ 0 ∧ h.w = 1 + max h.tb h.ib ∧ h.w ≤ 32)

/-- R148: `ValidateContainer(V)`. -/
def validate (s : State) (sel : Selector) : Except ErrCode Header :=
  match checkIdentity s sel with
  | .error e => .error e
  | .ok v =>
    if s.operandLen < headerWords v then .error .length
    else
      let h := readHeader s v
      if parametersOk h = false then .error .param
      else if s.operandLen ≠ h.len then .error .length
      else .ok h

/-! ### PARSE -/

/-- R152, R162: validate, load the P registers, answer the variant's number. -/
def parseContainer (s : State) (sel : Selector) : Except ErrCode State :=
  match validate s sel with
  | .error e => .error e
  | .ok h => .ok ((s.loadParams h).complete (varNumber h.var))

/-- PARSE.OVL (R152). -/
def execParseOvl (s : State) : Host.Outcome State Fault Refusal :=
  s.finish (parseContainer s (.only .ovl))

/-- PARSE.NOV (R152). -/
def execParseNov (s : State) : Host.Outcome State Fault Refusal :=
  s.finish (parseContainer s (.only .nov))

/-- PARSE.OVF (R152). -/
def execParseOvf (s : State) : Host.Outcome State Fault Refusal :=
  s.finish (parseContainer s (.only .ovf))

end Sys2Proof.Machine
end

