-- ==== Sys2Proof/Machine/Estimator.lean ====
section
/-! DEFINITION. The bit-width estimator (41_width_estimator.md): the functions of rules R85 and R86, and BITLEN and
WIDTH. -/

namespace Sys2Proof.Machine

/-- R86: `max(s)`, 0 for the empty sequence. -/
def maxOf : List Nat → Nat
  | [] => 0
  | v :: vs => max v (maxOf vs)

/-- R85: `width(s) = max(1, bitLen(max(s)))`. -/
def widthOf (values : List Nat) : Nat := max 1 (bitLen (maxOf values))

/-- BITLEN (R87). -/
def execBitlen (s : State) : Host.Outcome State Fault Refusal :=
  .next (s.complete (bitLen s.operandV))

/-- WIDTH (R88). -/
def execWidth (s : State) : Host.Outcome State Fault Refusal :=
  let n := s.operandN
  if s.cfg.seqWords < n then .next (s.raise .capacity)
  else .next (s.complete (widthOf (s.inputSequence n)))

end Sys2Proof.Machine
end

