-- ==== Sys2Proof/Machine/NonOverlap.lean ====
section
/-! DEFINITION. The non-overlap codec (44_nonoverlap.md): ENCODE.NOV, DECODE.NOV and GET.NOV. -/

namespace Sys2Proof.Machine

/-- R115: the header of the non-overlap container of a sequence. -/
def nonOverlapHeader (cfg : Config) (values : List Nat) : Header :=
  headerOf cfg .nov values.length (widthOf values) 0 0 0

/-- R118: element i of a validated non-overlap container. -/
def nonOverlapElement (s : State) (h : Header) (i : Nat) : Nat :=
  fieldRead s.contWord h.pbase (fieldOffset .nov h.w i) h.w

/-- R117: the checks and effect of ENCODE.NOV. -/
def encodeNonOverlap (s : State) : Except ErrCode State :=
  let n := s.operandN
  if s.cfg.seqWords < n then .error .capacity
  else
    let values := s.inputSequence n
    storeContainer s (nonOverlapHeader s.cfg values) [] values

/-- R119: DECODE.NOV after validation. -/
def decodeNonOverlap (s : State) (h : Header) : Except ErrCode State :=
  if s.cfg.seqWords < h.n then .error .capacity
  else .ok (((s.storeSequence ((List.range h.n).map (nonOverlapElement s h))).loadParams h).complete h.n)

/-- R121: GET.NOV after validation. -/
def getNonOverlap (s : State) (h : Header) : Except ErrCode State :=
  let i := s.operandI
  if h.n ≤ i then .error .range
  else .ok ((s.loadParams h).complete (nonOverlapElement s h i))

/-- ENCODE.NOV (R117). -/
def execEncodeNov (s : State) : Host.Outcome State Fault Refusal :=
  s.finish (encodeNonOverlap s)

/-- DECODE.NOV (R119). -/
def execDecodeNov (s : State) : Host.Outcome State Fault Refusal :=
  match validate s (.only .nov) with
  | .error e => .next (s.raise e)
  | .ok h => s.finish (decodeNonOverlap s h)

/-- GET.NOV (R121). -/
def execGetNov (s : State) : Host.Outcome State Fault Refusal :=
  match validate s (.only .nov) with
  | .error e => .next (s.raise e)
  | .ok h => s.finish (getNonOverlap s h)

end Sys2Proof.Machine
end

