-- ==== Sys2Proof/Machine/Overflow.lean ====
section
/-! DEFINITION. The overflow codec (45_overflow.md): ENCODE.OVF, DECODE.OVF and GET.OVF. -/

namespace Sys2Proof.Machine

/-- R125: `tb = max(1, bitLen(max(s) div 2))`. -/
def thresholdBits (values : List Nat) : Nat := max 1 (bitLen (maxOf values / 2))

/-- R126: the overflow table: every element of 2^tb or more, in order, each occurrence its own entry. -/
def overflowTable (tb : Nat) (values : List Nat) : List Nat :=
  values.filter fun v => 2 ^ tb ≤ v

/-- R127: `ib = bitLen(max(0, k - 1))`. -/
def indexBits (k : Nat) : Nat := bitLen (k - 1)

/-- R129, R130: the fields of a sequence, `j` table entries standing before it: an element below 2^tb is its own field,
another is the indicator and the index of its entry. -/
def overflowFields (tb cb : Nat) : Nat → List Nat → List Nat
  | _, [] => []
  | j, v :: vs =>
    if 2 ^ tb ≤ v then (2 ^ cb ||| j) :: overflowFields tb cb (j + 1) vs
    else v :: overflowFields tb cb j vs

/-- R127, R131: the header of the overflow container of a sequence. -/
def overflowHeader (cfg : Config) (values : List Nat) : Header :=
  let tb := thresholdBits values
  let k := (overflowTable tb values).length
  let ib := indexBits k
  headerOf cfg .ovf values.length (1 + max tb ib) tb ib k

/-- R132, R133: `ReadOVF(h, i)`. -/
def readOverflow (s : State) (h : Header) (i : Nat) : Except ErrCode Nat :=
  let cb := h.w - 1
  let f := fieldRead s.contWord h.pbase (fieldOffset .ovf h.w i) h.w
  let content := f &&& mask cb
  if f.testBit cb = false then .ok content
  else if h.k ≤ content then .error .index
  else .ok (s.contWord (8 + content)).toNat

/-- R134: the elements at the given places, or the error of the first that names no table entry. -/
def readOverflowAll (s : State) (h : Header) : List Nat → Except ErrCode (List Nat)
  | [] => .ok []
  | i :: is =>
    match readOverflow s h i with
    | .error e => .error e
    | .ok v =>
      match readOverflowAll s h is with
      | .error e => .error e
      | .ok vs => .ok (v :: vs)

/-- R131: the checks and effect of ENCODE.OVF. -/
def encodeOverflow (s : State) : Except ErrCode State :=
  let n := s.operandN
  if s.cfg.seqWords < n then .error .capacity
  else
    let values := s.inputSequence n
    let h := overflowHeader s.cfg values
    storeContainer s h (overflowTable h.tb values) (overflowFields h.tb (max h.tb h.ib) 0 values)

/-- R134: DECODE.OVF after validation: every field is read before any word of SEQ is written. -/
def decodeOverflow (s : State) (h : Header) : Except ErrCode State :=
  if s.cfg.seqWords < h.n then .error .capacity
  else
    match readOverflowAll s h (List.range h.n) with
    | .error e => .error e
    | .ok values => .ok (((s.storeSequence values).loadParams h).complete h.n)

/-- R136: GET.OVF after validation: only field i is checked. -/
def getOverflow (s : State) (h : Header) : Except ErrCode State :=
  let i := s.operandI
  if h.n ≤ i then .error .range
  else
    match readOverflow s h i with
    | .error e => .error e
    | .ok v => .ok ((s.loadParams h).complete v)

/-- ENCODE.OVF (R131). -/
def execEncodeOvf (s : State) : Host.Outcome State Fault Refusal :=
  s.finish (encodeOverflow s)

/-- DECODE.OVF (R134). -/
def execDecodeOvf (s : State) : Host.Outcome State Fault Refusal :=
  match validate s (.only .ovf) with
  | .error e => .next (s.raise e)
  | .ok h => s.finish (decodeOverflow s h)

/-- GET.OVF (R136). -/
def execGetOvf (s : State) : Host.Outcome State Fault Refusal :=
  match validate s (.only .ovf) with
  | .error e => .next (s.raise e)
  | .ok h => s.finish (getOverflow s h)

end Sys2Proof.Machine
end

