-- ==== Sys2Proof/Machine/Overlap.lean ====
section
/-! DEFINITION. The overlap codec (43_overlap.md): ENCODE.OVL, DECODE.OVL and GET.OVL. -/

namespace Sys2Proof.Machine

/-- R105: the header of the overlap container of a sequence. -/
def overlapHeader (cfg : Config) (values : List Nat) : Header :=
  headerOf cfg .ovl values.length (widthOf values) 0 0 0

/-- R108: element i of a validated overlap container. -/
def overlapElement (s : State) (h : Header) (i : Nat) : Nat :=
  fieldRead s.contWord h.pbase (fieldOffset .ovl h.w i) h.w

/-- R107: the checks and effect of ENCODE.OVL. -/
def encodeOverlap (s : State) : Except ErrCode State :=
  let n := s.operandN
  if s.cfg.seqWords < n then .error .capacity
  else
    let values := s.inputSequence n
    storeContainer s (overlapHeader s.cfg values) [] values

/-- R109: DECODE.OVL after validation. -/
def decodeOverlap (s : State) (h : Header) : Except ErrCode State :=
  if s.cfg.seqWords < h.n then .error .capacity
  else .ok (((s.storeSequence ((List.range h.n).map (overlapElement s h))).loadParams h).complete h.n)

/-- R111: GET.OVL after validation. -/
def getOverlap (s : State) (h : Header) : Except ErrCode State :=
  let i := s.operandI
  if h.n ≤ i then .error .range
  else .ok ((s.loadParams h).complete (overlapElement s h i))

/-- ENCODE.OVL (R107). -/
def execEncodeOvl (s : State) : Host.Outcome State Fault Refusal :=
  s.finish (encodeOverlap s)

/-- DECODE.OVL (R109). -/
def execDecodeOvl (s : State) : Host.Outcome State Fault Refusal :=
  match validate s (.only .ovl) with
  | .error e => .next (s.raise e)
  | .ok h => s.finish (decodeOverlap s h)

/-- GET.OVL (R111). -/
def execGetOvl (s : State) : Host.Outcome State Fault Refusal :=
  match validate s (.only .ovl) with
  | .error e => .next (s.raise e)
  | .ok h => s.finish (getOverlap s h)

end Sys2Proof.Machine
end

