-- ==== Sys2Proof/Machine/Dispatcher.lean ====
section
/-! DEFINITION. The codec dispatcher (47_dispatcher.md): DECODE.AUTO, GET.AUTO and PARSE.AUTO, an exhaustive match over
the variant the container's tag names (R159), with no check and no state of its own (R165). -/

namespace Sys2Proof.Machine

/-- DECODE.AUTO (R160). -/
def execDecodeAuto (s : State) : Host.Outcome State Fault Refusal :=
  match validate s .auto with
  | .error e => .next (s.raise e)
  | .ok h =>
    match h.var with
    | .ovl => s.finish (decodeOverlap s h)
    | .nov => s.finish (decodeNonOverlap s h)
    | .ovf => s.finish (decodeOverflow s h)

/-- GET.AUTO (R161). -/
def execGetAuto (s : State) : Host.Outcome State Fault Refusal :=
  match validate s .auto with
  | .error e => .next (s.raise e)
  | .ok h =>
    match h.var with
    | .ovl => s.finish (getOverlap s h)
    | .nov => s.finish (getNonOverlap s h)
    | .ovf => s.finish (getOverflow s h)

/-- PARSE.AUTO (R162). -/
def execParseAuto (s : State) : Host.Outcome State Fault Refusal :=
  s.finish (parseContainer s .auto)

end Sys2Proof.Machine
end

