-- ==== Sys2Proof/Machine/Dispatch.lean ====
section
/-! DEFINITION. The meaning of each command (30_encoding.md rule R64), one arm for each. -/

namespace Sys2Proof.Machine

/-- R64: a command runs its rule. -/
def exec (i : Instr) (s : State) : Host.Outcome State Fault Refusal :=
  match i with
  | .bitlen => Sys2Proof.Machine.execBitlen s
  | .width => Sys2Proof.Machine.execWidth s
  | .rdfield => Sys2Proof.Machine.execRdfield s
  | .wrfield => Sys2Proof.Machine.execWrfield s
  | .encodeOvl => Sys2Proof.Machine.execEncodeOvl s
  | .encodeNov => Sys2Proof.Machine.execEncodeNov s
  | .encodeOvf => Sys2Proof.Machine.execEncodeOvf s
  | .decodeOvl => Sys2Proof.Machine.execDecodeOvl s
  | .decodeNov => Sys2Proof.Machine.execDecodeNov s
  | .decodeOvf => Sys2Proof.Machine.execDecodeOvf s
  | .decodeAuto => Sys2Proof.Machine.execDecodeAuto s
  | .getOvl => Sys2Proof.Machine.execGetOvl s
  | .getNov => Sys2Proof.Machine.execGetNov s
  | .getOvf => Sys2Proof.Machine.execGetOvf s
  | .getAuto => Sys2Proof.Machine.execGetAuto s
  | .parseOvl => Sys2Proof.Machine.execParseOvl s
  | .parseNov => Sys2Proof.Machine.execParseNov s
  | .parseOvf => Sys2Proof.Machine.execParseOvf s
  | .parseAuto => Sys2Proof.Machine.execParseAuto s

end Sys2Proof.Machine
end

