-- ==== Sys2Proof/Machine/HostPort.lean ====
section
/-! DEFINITION. The host port: what each operation of the host does (20_memory.md rules R46, R51, R53; 30_encoding.md
rules R66, R83, R84), and the host's queue, which stands in place of an instruction fetch (10_state.md rule R37). -/

namespace Sys2Proof.Machine

/-- R66, R194: a word written to CMD: BUSY is set, the word is decoded, and the command it selects runs to its end; a
word that selects none ends in E_ILLEGAL_CMD (R67). -/
def State.runCommandWord (s : State) (c : Word) : Host.Outcome State Fault Refusal :=
  match decode c with
  | .ok i => exec i s.started
  | .error _ => .next (s.started.raise .illegalCmd)

/-- R51: a host read returns a word and changes nothing of the block. -/
def State.returnWord (s : State) (v : Word) : State := { s with reads := v :: s.reads }

/-- R21, R22: a host write of a register. -/
def State.hostWrite (s : State) (r : Reg) (v : Word) : Host.Outcome State Fault Refusal :=
  match r with
  | .cmd => s.runCommandWord v
  | r => .next (s.writeReg r v)

/-- R83: one operation of the host, the block not busy. An index outside its space is refused (R53). -/
def State.perform (s : State) (op : HostOp) : Host.Outcome State Fault Refusal :=
  match op with
  | .wr i v =>
    match regAt i with
    | some r => s.hostWrite r v
    | none => .refused (.regIndexOutside i)
  | .rd i =>
    match regAt i with
    | some r => .next (s.returnWord (s.readReg r))
    | none => .refused (.regIndexOutside i)
  | .wseq i v =>
    if i < s.cfg.seqWords then .next { s with seq := s.seq.write i v } else .refused (.seqIndexOutside i)
  | .rseq i =>
    if i < s.cfg.seqWords then .next (s.returnWord (s.seqWord i)) else .refused (.seqIndexOutside i)
  | .wcont i v =>
    if i < s.cfg.contWords then .next { s with cont := s.cont.write i v } else .refused (.contIndexOutside i)
  | .rcont i =>
    if i < s.cfg.contWords then .next (s.returnWord (s.contWord i)) else .refused (.contIndexOutside i)
  | .reset => .next s.resetBlock

/-- R195: the operations that may come while BUSY is 1: a read of STATUS, and reset, which is no access of the host's
(R192, R203). -/
def HostOp.allowedWhileBusy : HostOp → Bool
  | .rd i => i == 0x01
  | .reset => true
  | .wr _ _ => false
  | .wseq _ _ => false
  | .rseq _ => false
  | .wcont _ _ => false
  | .rcont _ => false

/-- R57, R84: the next operation of the host, in its issue order, is performed. With none pending the block waits and
nothing changes (log 6). -/
def State.serveHost (s : State) : Host.Outcome State Fault Refusal :=
  match s.pending with
  | [] => .next s
  | op :: rest =>
    if s.busyFlag && !op.allowedWhileBusy then .refused .accessWhileBusy
    else { s with pending := rest }.perform op

/-- The host's next operation made a write of a command word to CMD. -/
def State.withCommandWord (s : State) (c : Word) : State :=
  { s with pending := .wr 0x00 c :: s.pending }

/-! ### The notation of host programs (R83) -/

/-- R21: the index of a register's name; the reserved slots have none. -/
def Reg.indexOf : Reg → Nat
  | .cmd => 0x00
  | .status => 0x01
  | .errcode => 0x02
  | .argN => 0x03
  | .argI => 0x04
  | .argW => 0x05
  | .argV => 0x06
  | .result => 0x07
  | .clen => 0x08
  | .pTag => 0x09
  | .pN => 0x0A
  | .pWidth => 0x0B
  | .pTbits => 0x0C
  | .pIbits => 0x0D
  | .pOvflen => 0x0E
  | .pPlen => 0x0F
  | .infoMagic => 0x10
  | .infoVersion => 0x11
  | .infoSeqcap => 0x12
  | .infoContcap => 0x13
  | .reserved => 0x14

/-- R83: `cmd MNEMONIC`. -/
def HostOp.cmd (i : Instr) : HostOp := .wr Reg.cmd.indexOf (encode i)

/-- R83: `run MNEMONIC N=a I=b W=c V=d`, each operand given or not. -/
def HostOp.run (i : Instr) (n b w v : Option Word) : List HostOp :=
  (n.map fun x => HostOp.wr Reg.argN.indexOf x).toList ++
  (b.map fun x => HostOp.wr Reg.argI.indexOf x).toList ++
  (w.map fun x => HostOp.wr Reg.argW.indexOf x).toList ++
  (v.map fun x => HostOp.wr Reg.argV.indexOf x).toList ++
  [HostOp.cmd i]

end Sys2Proof.Machine
end

