-- ==== Sys2Proof/Machine/Step.lean ====
section
/-! DEFINITION. One step of the machine: the host's next operation (20_memory.md rule R57), a command running whole in
the step of its CMD write (70_reset_and_hazards.md rule R194). -/

namespace Sys2Proof.Machine

/-- R57, R194: the host's next operation is performed. -/
def step (s : State) : Host.Outcome State Fault Refusal := s.serveHost

/-- R37: the block fetches nothing; the next command is the next CMD write. So the state in which the next step runs a
given command word is the one whose next pending operation of the host is that write (log 4). -/
def State.withFetchWord (s : State) (nbits w : Nat) : State := s.withCommandWord (tableWord nbits w)

end Sys2Proof.Machine
end

