-- ==== Sys2Proof/Safety.lean ====
section
/-! DEFINITION. The terms the claims use, each from the spec's own words and none from the meanings: how a command ended
(60_exceptions.md rules R167, R168), what it left unchanged (20_memory.md rule R52), what an accepted container is
(46_container.md rules R144 to R147), what a payload holds (30_encoding.md rules R80, R82), and the states the block can
be in (the invariant). -/

namespace Sys2Proof.Machine

/-! ### How a command ended -/

/-- R167: STATUS and ERRCODE after a command that succeeded. -/
def SucceededFrom (s t : State) : Prop :=
  t.busyFlag = false ∧ t.errFlag = false ∧ t.stickyFlag = s.stickyFlag ∧
    (∀ b, 3 ≤ b → t.status.getLsbD b = s.status.getLsbD b) ∧ t.errcode = 0x00#32

/-- R168: STATUS and ERRCODE after a command that ended in error `e`. -/
def FailedFrom (s t : State) (e : ErrCode) : Prop :=
  t.busyFlag = false ∧ t.errFlag = true ∧ t.stickyFlag = true ∧
    (∀ b, 3 ≤ b → t.status.getLsbD b = s.status.getLsbD b) ∧ t.errcode = e.code

/-! ### What a command left unchanged: every field of the state but the named ones -/

/-- Nothing but STATUS and ERRCODE changed. -/
def ErrorFrame (s t : State) : Prop :=
  t = { s with status := t.status, errcode := t.errcode }

/-- Nothing but RESULT, STATUS and ERRCODE changed. -/
def ResultFrame (s t : State) : Prop :=
  t = { s with result := t.result, status := t.status, errcode := t.errcode }

/-- Nothing but CONT, STATUS and ERRCODE changed. -/
def FieldFrame (s t : State) : Prop :=
  t = { s with cont := t.cont, status := t.status, errcode := t.errcode }

/-- Nothing but the P registers, RESULT, STATUS and ERRCODE changed. -/
def ParseFrame (s t : State) : Prop :=
  t = { s with
        pTag := t.pTag, pN := t.pN, pWidth := t.pWidth, pTbits := t.pTbits, pIbits := t.pIbits
        pOvflen := t.pOvflen, pPlen := t.pPlen
        result := t.result, status := t.status, errcode := t.errcode }

/-- Nothing but SEQ, the P registers, RESULT, STATUS and ERRCODE changed. -/
def DecodeFrame (s t : State) : Prop :=
  t = { s with
        seq := t.seq
        pTag := t.pTag, pN := t.pN, pWidth := t.pWidth, pTbits := t.pTbits, pIbits := t.pIbits
        pOvflen := t.pOvflen, pPlen := t.pPlen
        result := t.result, status := t.status, errcode := t.errcode }

/-- Nothing but CONT, CLEN, the P registers, RESULT, STATUS and ERRCODE changed. -/
def EncodeFrame (s t : State) : Prop :=
  t = { s with
        cont := t.cont, clen := t.clen
        pTag := t.pTag, pN := t.pN, pWidth := t.pWidth, pTbits := t.pTbits, pIbits := t.pIbits
        pOvflen := t.pOvflen, pPlen := t.pPlen
        result := t.result, status := t.status, errcode := t.errcode }

/-- R45, R168: the command ended in error `e` and nothing but STATUS and ERRCODE changed. -/
def OnlyErrorReported (s t : State) (e : ErrCode) : Prop :=
  FailedFrom s t e ∧ ErrorFrame s t

/-! ### Containers -/

/-- R150: the P registers hold the header `h`. -/
def ParamsAre (t : State) (h : Header) : Prop :=
  t.pTag = h.tag ∧ t.pN.toNat = h.n ∧ t.pWidth.toNat = h.w ∧ t.pTbits.toNat = h.tb ∧ t.pIbits.toNat = h.ib ∧
    t.pOvflen.toNat = h.k ∧ t.pPlen.toNat = h.plen

/-- R77, R147: the part of an accepted header that depends on the variant. -/
def AcceptedParameters (word : Nat → Word) (h : Header) : Prop :=
  match h.var with
  | .ovl =>
    1 ≤ h.w ∧ h.w ≤ 32 ∧ h.tb = 0 ∧ h.ib = 0 ∧ h.k = 0 ∧ h.pbase = 5 ∧
      h.plen = (h.n * h.w + 31) / 32 ∧ h.len = 5 + h.plen
  | .nov =>
    1 ≤ h.w ∧ h.w ≤ 32 ∧ h.tb = 0 ∧ h.ib = 0 ∧ h.k = 0 ∧ h.pbase = 5 ∧
      h.plen = (h.n + 32 / h.w - 1) / (32 / h.w) ∧ h.len = 5 + h.plen
  | .ovf =>
    h.tb = (word 5).toNat ∧ h.ib = (word 6).toNat ∧ h.k = (word 7).toNat ∧
      1 ≤ h.tb ∧ h.w = 1 + max h.tb h.ib ∧ h.w ≤ 32 ∧ h.pbase = 8 + h.k ∧
      h.plen = (h.n * h.w + 31) / 32 ∧ h.len = 8 + h.k + h.plen

/-- R144 to R147: the words `CONT[0..CLEN-1]` are a container whose header is `h` and which `sel` takes. -/
def AcceptedContainer (s : State) (sel : Selector) (h : Header) : Prop :=
  s.clen.toNat = h.len ∧ h.len ≤ s.cfg.contWords ∧
    s.contWord 0 = s.cfg.magic ∧ s.contWord 1 = s.cfg.version ∧
    s.contWord 2 = h.tag ∧ h.tag = s.cfg.tag h.var ∧ (sel = .auto ∨ sel = .only h.var) ∧
    h.n = (s.contWord 3).toNat ∧ h.w = (s.contWord 4).toNat ∧ AcceptedParameters s.contWord h

/-- R80, R108, R118, R132: element i of a container, none where its field names no table entry (R133). -/
def elementAt (word : Nat → Word) (h : Header) (i : Nat) : Option Nat :=
  match h.var with
  | .ovl => some (fieldRead word 5 (i * h.w) h.w)
  | .nov => some (fieldRead word 5 (32 * (i / (32 / h.w)) + i % (32 / h.w) * h.w) h.w)
  | .ovf =>
    let f := fieldRead word (8 + h.k) (i * h.w) h.w
    if f < 2 ^ (h.w - 1) then some f
    else if f - 2 ^ (h.w - 1) < h.k then some (word (8 + (f - 2 ^ (h.w - 1)))).toNat
    else none

/-- R80, R82: a payload of `plen` words at `base` holds `n` fields of width `w`, field i at stream offset `off i`, and
every bit no field covers is zero. -/
def PayloadHolds (word : Nat → Word) (base plen w n : Nat) (off field : Nat → Nat) : Prop :=
  (∀ i, i < n → fieldRead word base (off i) w = field i) ∧
    ∀ b, b < 32 * plen → (∀ i, i < n → b < off i ∨ off i + w ≤ b) → streamBit word base b = false

/-- R126: how many of the elements before element i overflow the threshold: the table index element i would get. -/
def overflowRank (tb : Nat) (values : List Nat) (i : Nat) : Nat :=
  (values.take i).countP fun v => 2 ^ tb ≤ v

/-- R158, R65: the commands of a variant. -/
def encodeFor : Variant → Instr
  | .ovl => .encodeOvl
  | .nov => .encodeNov
  | .ovf => .encodeOvf

/-- R65: DECODE of a variant. -/
def decodeFor : Variant → Instr
  | .ovl => .decodeOvl
  | .nov => .decodeNov
  | .ovf => .decodeOvf

/-- R65: GET of a variant. -/
def getFor : Variant → Instr
  | .ovl => .getOvl
  | .nov => .getNov
  | .ovf => .getOvf

/-- R65: PARSE of a variant. -/
def parseFor : Variant → Instr
  | .ovl => .parseOvl
  | .nov => .parseNov
  | .ovf => .parseOvf

/-- R65, R143: what a command asks of the container it validates first; none for a command that validates none. -/
def containerSelector : Instr → Option Selector
  | .bitlen => none
  | .width => none
  | .rdfield => none
  | .wrfield => none
  | .encodeOvl => none
  | .encodeNov => none
  | .encodeOvf => none
  | .decodeOvl => some (.only .ovl)
  | .decodeNov => some (.only .nov)
  | .decodeOvf => some (.only .ovf)
  | .decodeAuto => some .auto
  | .getOvl => some (.only .ovl)
  | .getNov => some (.only .nov)
  | .getOvf => some (.only .ovf)
  | .getAuto => some .auto
  | .parseOvl => some (.only .ovl)
  | .parseNov => some (.only .nov)
  | .parseOvf => some (.only .ovf)
  | .parseAuto => some .auto

/-- R182: the errors each command can end in once its word is decoded. -/
def possibleErrors : Instr → List ErrCode
  | .bitlen => []
  | .width => [.capacity]
  | .rdfield => [.illegalArg, .capacity]
  | .wrfield => [.illegalArg, .capacity]
  | .encodeOvl => [.capacity]
  | .encodeNov => [.capacity]
  | .encodeOvf => [.capacity]
  | .decodeOvl => [.capacity, .length, .magic, .version, .tag, .param]
  | .decodeNov => [.capacity, .length, .magic, .version, .tag, .param]
  | .decodeOvf => [.capacity, .length, .magic, .version, .tag, .param, .index]
  | .decodeAuto => [.capacity, .length, .magic, .version, .tag, .param, .index]
  | .getOvl => [.capacity, .length, .magic, .version, .tag, .param, .range]
  | .getNov => [.capacity, .length, .magic, .version, .tag, .param, .range]
  | .getOvf => [.capacity, .length, .magic, .version, .tag, .param, .range, .index]
  | .getAuto => [.capacity, .length, .magic, .version, .tag, .param, .range, .index]
  | .parseOvl => [.capacity, .length, .magic, .version, .tag, .param]
  | .parseNov => [.capacity, .length, .magic, .version, .tag, .param]
  | .parseOvf => [.capacity, .length, .magic, .version, .tag, .param]
  | .parseAuto => [.capacity, .length, .magic, .version, .tag, .param]

/-! ### The command word and the register map, as numbers -/

/-- R64: the columns OPCODE and VAR of the opcode map. -/
def commandFields : Instr → Nat × Nat
  | .bitlen => (0x01, 0)
  | .width => (0x02, 0)
  | .rdfield => (0x03, 0)
  | .wrfield => (0x04, 0)
  | .encodeOvl => (0x08, 0)
  | .encodeNov => (0x08, 1)
  | .encodeOvf => (0x08, 2)
  | .decodeOvl => (0x09, 0)
  | .decodeNov => (0x09, 1)
  | .decodeOvf => (0x09, 2)
  | .decodeAuto => (0x09, 3)
  | .getOvl => (0x0A, 0)
  | .getNov => (0x0A, 1)
  | .getOvf => (0x0A, 2)
  | .getAuto => (0x0A, 3)
  | .parseOvl => (0x0B, 0)
  | .parseNov => (0x0B, 1)
  | .parseOvf => (0x0B, 2)
  | .parseAuto => (0x0B, 3)

/-- R67: the reserved and illegal command words, by the number each field holds. -/
def ReservedWord (c : Word) : Prop :=
  let op := c.toNat % 256
  let var := c.toNat / 256 % 4
  c.toNat / 1024 ≠ 0 ∨ op = 0x00 ∨ (0x05 ≤ op ∧ op ≤ 0x07) ∨ 0x0C ≤ op ∨
    (0x01 ≤ op ∧ op ≤ 0x04 ∧ var ≠ 0) ∨ (op = 0x08 ∧ var = 3)

/-- R21: what a host read of each index of REG gives, index by index. -/
def registerColumn (s : State) : List Word :=
  [0#32, s.status, s.errcode, s.argN, s.argI, s.argW, s.argV, s.result] ++
  [s.clen, s.pTag, s.pN, s.pWidth, s.pTbits, s.pIbits, s.pOvflen, s.pPlen] ++
  [s.cfg.magic, s.cfg.version, BitVec.ofNat 32 s.cfg.seqWords, BitVec.ofNat 32 s.cfg.contWords] ++
  List.replicate 12 0#32

/-! ### The invariant -/

/-- R23, R24, R169, R195: STATUS and ERRCODE between commands: BUSY 0, the reserved bits 0, ERR exactly when ERRCODE is
an error's code, STICKY whenever ERR, and no code above 0x0A. -/
def StatusInv (s : State) : Prop :=
  s.busyFlag = false ∧ (∀ b, 3 ≤ b → s.status.getLsbD b = false) ∧
    (s.errFlag = true ↔ s.errcode ≠ 0x00#32) ∧ (s.errFlag = true → s.stickyFlag = true) ∧
    s.errcode.toNat ≤ 0x0A

/-- R34, R35, R46, R53: the memories are in canonical form and hold no word outside their capacity. -/
def MemoryInv (s : State) : Prop :=
  s.seq.wf ∧ s.cont.wf ∧ s.seq.inBounds s.cfg.seqWords ∧ s.cont.inBounds s.cfg.contWords

/-- R31, R75, R150: the P registers are all zero, as reset leaves them, or hold a header the block can produce or
accept. -/
def ParamsInv (s : State) : Prop :=
  (s.pTag = 0#32 ∧ s.pN = 0#32 ∧ s.pWidth = 0#32 ∧ s.pTbits = 0#32 ∧ s.pIbits = 0#32 ∧ s.pOvflen = 0#32 ∧
      s.pPlen = 0#32) ∨
    (1 ≤ s.pWidth.toNat ∧ s.pWidth.toNat ≤ 32 ∧ s.pPlen.toNat ≤ s.cfg.contWords ∧
      ((s.pTag = s.cfg.tagOvl ∧ s.pTbits = 0#32 ∧ s.pIbits = 0#32 ∧ s.pOvflen = 0#32 ∧
          s.pPlen.toNat = (s.pN.toNat * s.pWidth.toNat + 31) / 32) ∨
        (s.pTag = s.cfg.tagNov ∧ s.pTbits = 0#32 ∧ s.pIbits = 0#32 ∧ s.pOvflen = 0#32 ∧
          s.pPlen.toNat = (s.pN.toNat + 32 / s.pWidth.toNat - 1) / (32 / s.pWidth.toNat)) ∨
        (s.pTag = s.cfg.tagOvf ∧ 1 ≤ s.pTbits.toNat ∧
          s.pWidth.toNat = 1 + max s.pTbits.toNat s.pIbits.toNat ∧
          8 + s.pOvflen.toNat + s.pPlen.toNat ≤ s.cfg.contWords ∧
          s.pPlen.toNat = (s.pN.toNat * s.pWidth.toNat + 31) / 32)))

/-- The states the block can be in between two operations of the host, whatever the host does. -/
def State.Inv (s : State) : Prop :=
  s.cfg.Valid ∧ StatusInv s ∧ MemoryInv s ∧ ParamsInv s

end Sys2Proof.Machine
end

