-- ==== Sys2Proof/Certificates/Slice0/Obligations.lean ====
section
/-! DEFINITION. The statements for the provers, each from the numbered rules of spec/. -/

open Sys2Proof Sys2Proof.Machine

/-! ### Command words -/

/-- R64, R66: a command's word is its OPCODE in bits 7 to 0 and its VAR in bits 9 to 8, every other bit zero; the
decoder reads a word as a command exactly when it is that command's word (so decoding an encoded command gives it back,
and 19 words select a command); every other word, written to CMD, ends in E_ILLEGAL_CMD and changes nothing else. -/
def Obligations.DecodeSelectsExactlyTheCommandWords : Prop :=
  (∀ i : Instr, (encode i).toNat = (commandFields i).1 + 256 * (commandFields i).2) ∧
    (∀ (c : Word) (i : Instr), decode c = .ok i ↔ c = encode i) ∧
    ∀ (s : State) (c : Word), (∀ i, c ≠ encode i) →
      ∃ t, s.runCommandWord c = .next t ∧ OnlyErrorReported s t .illegalCmd

/-- R64: words of the table, written out, decode to the commands they stand for. A sanity statement. -/
def Obligations.CommandWordsOfTheTable : Prop :=
  decode 0x00000001#32 = .ok .bitlen ∧ decode 0x00000002#32 = .ok .width ∧
  decode 0x00000004#32 = .ok .wrfield ∧ decode 0x00000108#32 = .ok .encodeNov ∧
  decode 0x00000209#32 = .ok .decodeOvf ∧ decode 0x0000030A#32 = .ok .getAuto ∧
  decode 0x0000000B#32 = .ok .parseOvl ∧ decode 0x0000030B#32 = .ok .parseAuto

/-- R67: the reserved words are exactly those that encode no command, and a host write of one to CMD ends in
E_ILLEGAL_CMD and changes nothing but STATUS and ERRCODE. -/
def Obligations.ReservedWordsEndInIllegalCmd : Prop :=
  (∀ c : Word, ReservedWord c ↔ ∀ i, decode c ≠ .ok i) ∧
    ∀ (s : State) (c : Word) (rest : List HostOp), s.pending = .wr 0x00 c :: rest → s.busyFlag = false →
      ReservedWord c → ∃ t, step s = .next t ∧ OnlyErrorReported { s with pending := rest } t .illegalCmd

/-- R22, R23, R66, R194: a host write to CMD of a word that decodes to a command runs that command, whole, in the one
step: the write leaves the host's queue, BUSY is set, and the command runs on that state. -/
def Obligations.StepRunsDecodedCommand : Prop :=
  ∀ (s : State) (c : Word) (i : Instr) (rest : List HostOp),
    s.pending = .wr 0x00 c :: rest → s.busyFlag = false → decode c = .ok i →
      step s = exec i { s with pending := rest, status := s.status ||| 1#32 }

/-! ### The host port -/

/-- R21, R51: a host read of any index of REG returns that register's word and changes nothing of the block. -/
def Obligations.HostReadReturnsEveryRegister : Prop :=
  ∀ (s : State) (i : Nat) (rest : List HostOp),
    s.pending = .rd i :: rest → s.busyFlag = false → i < 0x20 →
      step s = .next { s with pending := rest, reads := (registerColumn s).getD i 0#32 :: s.reads }

/-- R21, R23 to R33: a host write stores the word in an RW register (ARG_N, ARG_I, ARG_W, ARG_V, CLEN) and is ignored
at every other index of REG but CMD's. -/
def Obligations.HostWriteStoresOnlyRwRegisters : Prop :=
  ∀ (s : State) (i : Nat) (v : Word) (rest : List HostOp),
    s.pending = .wr i v :: rest → s.busyFlag = false → 1 ≤ i → i < 0x20 →
      let u := { s with pending := rest }
      step s = .next
        (if i = 0x03 then { u with argN := v }
        else if i = 0x04 then { u with argI := v }
        else if i = 0x05 then { u with argW := v }
        else if i = 0x06 then { u with argV := v }
        else if i = 0x08 then { u with clen := v }
        else u)

/-- R33: the reserved indices read 0 and ignore writes; an access at an index of 0x20 or more is refused. -/
def Obligations.ReservedRegistersReadZeroIgnoreWrites : Prop :=
  ∀ (s : State) (i : Nat) (v : Word) (rest : List HostOp), s.busyFlag = false →
    (0x14 ≤ i → i ≤ 0x1F → s.pending = .rd i :: rest →
      step s = .next { s with pending := rest, reads := 0#32 :: s.reads }) ∧
    (0x14 ≤ i → i ≤ 0x1F → s.pending = .wr i v :: rest → step s = .next { s with pending := rest }) ∧
    (0x20 ≤ i → s.pending = .rd i :: rest ∨ s.pending = .wr i v :: rest →
      step s = .refused (.regIndexOutside i))

/-- R34, R35, R51: a host write of a word of SEQ or CONT stores that one word and changes nothing else; a host read
returns the word and changes nothing of the block. -/
def Obligations.HostMemoryAccessMovesOneWord : Prop :=
  ∀ (s : State) (i : Nat) (v : Word) (rest : List HostOp), s.busyFlag = false →
    (s.pending = .wseq i v :: rest → i < s.cfg.seqWords →
      ∃ t, step s = .next t ∧ t = { s with pending := rest, seq := t.seq } ∧
        ∀ j, t.seqWord j = if j = i then v else s.seqWord j) ∧
    (s.pending = .wcont i v :: rest → i < s.cfg.contWords →
      ∃ t, step s = .next t ∧ t = { s with pending := rest, cont := t.cont } ∧
        ∀ j, t.contWord j = if j = i then v else s.contWord j) ∧
    (s.pending = .rseq i :: rest → i < s.cfg.seqWords →
      step s = .next { s with pending := rest, reads := s.seqWord i :: s.reads }) ∧
    (s.pending = .rcont i :: rest → i < s.cfg.contWords →
      step s = .next { s with pending := rest, reads := s.contWord i :: s.reads })

/-- R53: a host access outside a space has no meaning and is refused. -/
def Obligations.HostAccessOutsideIsRefused : Prop :=
  ∀ (s : State) (i : Nat) (v : Word) (rest : List HostOp), s.busyFlag = false →
    (0x20 ≤ i → s.pending = .rd i :: rest ∨ s.pending = .wr i v :: rest →
      step s = .refused (.regIndexOutside i)) ∧
    (s.cfg.seqWords ≤ i → s.pending = .rseq i :: rest ∨ s.pending = .wseq i v :: rest →
      step s = .refused (.seqIndexOutside i)) ∧
    (s.cfg.contWords ≤ i → s.pending = .rcont i :: rest ∨ s.pending = .wcont i v :: rest →
      step s = .refused (.contIndexOutside i))

/-- R195: while BUSY is 1 the host may only read STATUS; any other access is refused. (A reset is no access of the
host's; that it may come while BUSY is 1 is the model's choice, log 8.) -/
def Obligations.BusyAdmitsOnlyStatusReads : Prop :=
  ∀ (s : State) (op : HostOp) (rest : List HostOp), s.busyFlag = true → s.pending = op :: rest →
    (op = .rd 0x01 → step s = .next { s with pending := rest, reads := s.status :: s.reads }) ∧
    (op ≠ .rd 0x01 → op ≠ .reset → step s = .refused .accessWhileBusy)

/-- R57, R84, over the queue of log 4: whenever a step answers a next state the queue has lost its oldest operation and
no other; while BUSY is 0 the step is the performing of that operation, on the state in which it has left the queue; and
with none pending the step answers the same state (log 6). The queue (log 4) and the idle step (log 6) are the model's
choices; the order in which the operations are performed is R57's. -/
def Obligations.StepTakesOldestOperation : Prop :=
  (∀ s t : State, step s = .next t → t.pending = s.pending.tail) ∧
    (∀ (s : State) (op : HostOp) (rest : List HostOp), s.pending = op :: rest → s.busyFlag = false →
      step s = State.perform { s with pending := rest } op) ∧
    ∀ s : State, s.pending = [] → step s = .next s

/-! ### Reset -/

/-- R190: reset sets every register of the register file to its reset value, for every value of the parameters: the
state after reset has the column of the table, and a reset at any later moment gives that column again. -/
def Obligations.ResetSetsEveryRegister : Prop :=
  (∀ c : Config, registerColumn (State.resetWith c) =
    List.replicate 16 0#32 ++
      [c.magic, c.version, BitVec.ofNat 32 c.seqWords, BitVec.ofNat 32 c.contWords] ++ List.replicate 12 0#32) ∧
  ∀ (s : State) (rest : List HostOp), s.pending = .reset :: rest →
    ∃ t, step s = .next t ∧ registerColumn t = registerColumn (State.resetWith s.cfg)

/-- R191, R54, R36: after a reset no word of SEQ or CONT has a known value: each is a fresh unspecified word, whatever it
held. The parameters and the host's own record stay. That a reset draws the words anew is the model's choice among
those R191 gives (log 2, log 3); what the words are is stated for no value of them. -/
def Obligations.ResetLeavesMemoriesUnspecified : Prop :=
  ∀ (s : State) (rest : List HostOp), s.pending = .reset :: rest →
    ∃ t, step s = .next t ∧ t.cfg = s.cfg ∧ t.pending = rest ∧ t.reads = s.reads ∧ t.epoch = s.epoch + 1 ∧
      (∀ i, t.seqWord i = Config.unspecifiedWord (s.epoch + 1) .seq i) ∧
      ∀ i, t.contWord i = Config.unspecifiedWord (s.epoch + 1) .cont i

/-- R193: what each command does on the reset state, for every value of the parameters. -/
def Obligations.CommandsOnTheResetState : Prop :=
  ∀ c : Config, c.Valid →
    let s := State.resetWith c
    (∃ t, exec .bitlen s = .next t ∧ SucceededFrom s t ∧ t.result = 0#32) ∧
    (∃ t, exec .width s = .next t ∧ SucceededFrom s t ∧ t.result = 1#32) ∧
    (∃ t, exec .encodeOvl s = .next t ∧ SucceededFrom s t ∧ t.clen = 5#32 ∧ t.pN = 0#32) ∧
    (∃ t, exec .encodeNov s = .next t ∧ SucceededFrom s t ∧ t.clen = 5#32 ∧ t.pN = 0#32) ∧
    (∃ t, exec .encodeOvf s = .next t ∧ SucceededFrom s t ∧ t.clen = 8#32 ∧ t.pN = 0#32) ∧
    (∃ t, exec .rdfield s = .next t ∧ OnlyErrorReported s t .illegalArg) ∧
    (∃ t, exec .wrfield s = .next t ∧ OnlyErrorReported s t .illegalArg) ∧
    ∀ i : Instr, containerSelector i ≠ none → ∃ t, exec i s = .next t ∧ OnlyErrorReported s t .length

/-- R192: reset is the only event that clears STATUS.STICKY, and it does clear it. -/
def Obligations.OnlyResetClearsSticky : Prop :=
  ∀ (s t : State) (op : HostOp) (rest : List HostOp), s.pending = op :: rest → step s = .next t →
    (op ≠ .reset → s.stickyFlag = true → t.stickyFlag = true) ∧ (op = .reset → t.stickyFlag = false)

/-- R32, R9: the parameters, which the INFO registers show, are constants: no step changes them. -/
def Obligations.ParametersNeverChange : Prop :=
  ∀ s t : State, step s = .next t → t.cfg = s.cfg

/-! ### The bit-width estimator -/

/-- R16: `mask(w)` has bits 0 to w - 1 one and every other bit zero, the full word included. -/
def Obligations.MaskHasLowBitsOne : Prop :=
  ∀ w, w ≤ 32 → mask w < 2 ^ 32 ∧ ∀ j, (mask w).testBit j = decide (j < w)

/-- R87: BITLEN answers the least b with ARG_V < 2^b, and cannot fail. -/
def Obligations.BitlenAnswersBitLength : Prop :=
  ∀ s : State, ∃ t, exec .bitlen s = .next t ∧ SucceededFrom s t ∧ ResultFrame s t ∧
    s.argV.toNat < 2 ^ t.result.toNat ∧ ∀ b, s.argV.toNat < 2 ^ b → t.result.toNat ≤ b

/-- R88: WIDTH answers max(1, bitLen(m)), m the largest of SEQ[0..n-1] (0 for none), or E_CAPACITY when n is more than
SEQ_WORDS. -/
def Obligations.WidthAnswersEstimate : Prop :=
  ∀ s : State,
    (s.argN.toNat ≤ s.cfg.seqWords →
      ∃ t m, exec .width s = .next t ∧ SucceededFrom s t ∧ ResultFrame s t ∧
        (∀ i, i < s.argN.toNat → (s.seqWord i).toNat ≤ m) ∧
        (m = 0 ∨ ∃ i, i < s.argN.toNat ∧ (s.seqWord i).toNat = m) ∧
        t.result.toNat = max 1 (bitLen m)) ∧
    (s.cfg.seqWords < s.argN.toNat → ∃ t, exec .width s = .next t ∧ OnlyErrorReported s t .capacity)

/-- R89: the width of a sequence of words lies in 1..32; it is 32 exactly when the maximum is 2^31 or more, and 1
exactly when the maximum is at most 1. -/
def Obligations.WidthIsBetweenOneAnd32 : Prop :=
  ∀ values : List Nat, (∀ v ∈ values, v < 2 ^ 32) →
    1 ≤ widthOf values ∧ widthOf values ≤ 32 ∧
      (widthOf values = 32 ↔ 2 ^ 31 ≤ maxOf values) ∧ (widthOf values = 1 ↔ maxOf values ≤ 1)

/-- R90, R86: every element fits the width, no smaller width fits a maximum of 1 or more, and the width is 1 when the
maximum is 0; the maximum is the largest element, 0 for none. -/
def Obligations.WidthFitsAndIsMinimal : Prop :=
  ∀ values : List Nat,
    (∀ v ∈ values, v ≤ maxOf values) ∧ (maxOf values = 0 ∨ maxOf values ∈ values) ∧
      (∀ v ∈ values, v < 2 ^ widthOf values) ∧
      (1 ≤ maxOf values → ∀ w, maxOf values < 2 ^ w → widthOf values ≤ w) ∧
      (maxOf values = 0 → widthOf values = 1)

/-! ### The bit-stream reader and writer -/

/-- R98: RDFIELD answers the w bits of CONT from absolute bit offset off on; a width of 0 or above 32 is E_ILLEGAL_ARG,
and a field that does not end inside CONT is E_CAPACITY. -/
def Obligations.RdfieldReadsField : Prop :=
  ∀ s : State,
    let off := s.argI.toNat
    let w := s.argW.toNat
    ((w = 0 ∨ 32 < w) → ∃ t, exec .rdfield s = .next t ∧ OnlyErrorReported s t .illegalArg) ∧
    (1 ≤ w → w ≤ 32 → s.cfg.contWords ≤ (off + w - 1) / 32 →
      ∃ t, exec .rdfield s = .next t ∧ OnlyErrorReported s t .capacity) ∧
    (1 ≤ w → w ≤ 32 → (off + w - 1) / 32 < s.cfg.contWords →
      ∃ t, exec .rdfield s = .next t ∧ SucceededFrom s t ∧ ResultFrame s t ∧
        ∀ j, j < 32 → t.result.getLsbD j =
          (decide (j < w) && (s.contWord ((off + j) / 32)).getLsbD ((off + j) % 32)))

/-- R99: WRFIELD sets exactly the w bits of CONT from absolute bit offset off on to the low w bits of ARG_V: every
other bit of CONT, RESULT and everything else stays; the errors are RDFIELD's. -/
def Obligations.WrfieldReplacesField : Prop :=
  ∀ s : State,
    let off := s.argI.toNat
    let w := s.argW.toNat
    ((w = 0 ∨ 32 < w) → ∃ t, exec .wrfield s = .next t ∧ OnlyErrorReported s t .illegalArg) ∧
    (1 ≤ w → w ≤ 32 → s.cfg.contWords ≤ (off + w - 1) / 32 →
      ∃ t, exec .wrfield s = .next t ∧ OnlyErrorReported s t .capacity) ∧
    (1 ≤ w → w ≤ 32 → (off + w - 1) / 32 < s.cfg.contWords →
      ∃ t, exec .wrfield s = .next t ∧ SucceededFrom s t ∧ FieldFrame s t ∧
        (∀ i p, p < 32 → (t.contWord i).getLsbD p =
          if off ≤ 32 * i + p ∧ 32 * i + p < off + w then s.argV.getLsbD (32 * i + p - off)
          else (s.contWord i).getLsbD p) ∧
        ∀ i, (i < off / 32 ∨ (off + w - 1) / 32 < i) → t.contWord i = s.contWord i)

/-- R101: a field read after a write of it gives the low w bits of the value, and every disjoint field reads as
before. -/
def Obligations.FieldReadAfterWrite : Prop :=
  ∀ (epoch : Nat) (m : Memory) (base off w v : Nat), 1 ≤ w → w ≤ 32 →
    let m' := fieldWrite epoch m base off w v
    fieldRead (m'.word epoch .cont) base off w = v &&& mask w ∧
      ∀ off' w', (off' + w' ≤ off ∨ off + w ≤ off') →
        fieldRead (m'.word epoch .cont) base off' w' = fieldRead (m.word epoch .cont) base off' w'

/-- R96: the word-level forms. A read is the low word shifted right, joined with the high word shifted left where the
field straddles, and masked; a write of v < 2^w into zero bits is an OR of the shifted value into the one or two
words, every other word unchanged. -/
def Obligations.FieldPrimitivesEqualWordForm : Prop :=
  (∀ (word : Nat → Word) (base off w : Nat), 1 ≤ w → w ≤ 32 →
    let wi := base + off / 32
    let bi := off % 32
    fieldRead word base off w =
      ((word wi).toNat >>> bi |||
        if 32 < bi + w then ((word (wi + 1)).toNat <<< (32 - bi)) % 2 ^ 32 else 0) &&& mask w) ∧
  ∀ (epoch : Nat) (m : Memory) (base off w v : Nat), 1 ≤ w → w ≤ 32 → v < 2 ^ w →
    (∀ j, j < w → streamBit (m.word epoch .cont) base (off + j) = false) →
    let m' := fieldWrite epoch m base off w v
    let wi := base + off / 32
    let bi := off % 32
    m'.word epoch .cont wi = m.word epoch .cont wi ||| BitVec.ofNat 32 (v <<< bi) ∧
      (32 < bi + w →
        m'.word epoch .cont (wi + 1) = m.word epoch .cont (wi + 1) ||| BitVec.ofNat 32 (v >>> (32 - bi))) ∧
      ∀ i, i ≠ wi → (32 < bi + w → i ≠ wi + 1) → m'.word epoch .cont i = m.word epoch .cont i

/-! ### ENCODE -/

/-- R107, R105: ENCODE.OVL writes the overlap container of SEQ[0..n-1] to CONT[0..L-1] and no other word of CONT, and
CLEN, RESULT and the P registers tell of it; a sequence or a container that does not fit is E_CAPACITY. -/
def Obligations.EncodeOverlapWritesContainer : Prop :=
  ∀ s : State, s.cfg.Valid →
    let n := s.argN.toNat
    let w := widthOf (s.inputSequence n)
    let plen := (n * w + 31) / 32
    (n ≤ s.cfg.seqWords → 5 + plen ≤ s.cfg.contWords →
      ∃ t, exec .encodeOvl s = .next t ∧ SucceededFrom s t ∧ EncodeFrame s t ∧
        t.result.toNat = 5 + plen ∧ t.clen.toNat = 5 + plen ∧
        ParamsAre t { var := .ovl, tag := s.cfg.tagOvl, n := n, w := w, tb := 0, ib := 0, k := 0,
                      pbase := 5, plen := plen, len := 5 + plen } ∧
        t.contWord 0 = s.cfg.magic ∧ t.contWord 1 = s.cfg.version ∧ t.contWord 2 = s.cfg.tagOvl ∧
        (t.contWord 3).toNat = n ∧ (t.contWord 4).toNat = w ∧
        PayloadHolds t.contWord 5 plen w n (fun i => i * w) (fun i => (s.seqWord i).toNat) ∧
        ∀ i, 5 + plen ≤ i → t.contWord i = s.contWord i) ∧
    ((s.cfg.seqWords < n ∨ s.cfg.contWords < 5 + plen) →
      ∃ t, exec .encodeOvl s = .next t ∧ OnlyErrorReported s t .capacity)

/-- R117, R115: ENCODE.NOV writes the non-overlap container of SEQ[0..n-1]: element i in lane i mod vpw of payload word
i div vpw, every bit no lane holds zero. -/
def Obligations.EncodeNonOverlapWritesContainer : Prop :=
  ∀ s : State, s.cfg.Valid →
    let n := s.argN.toNat
    let w := widthOf (s.inputSequence n)
    let vpw := 32 / w
    let plen := (n + vpw - 1) / vpw
    (n ≤ s.cfg.seqWords → 5 + plen ≤ s.cfg.contWords →
      ∃ t, exec .encodeNov s = .next t ∧ SucceededFrom s t ∧ EncodeFrame s t ∧
        t.result.toNat = 5 + plen ∧ t.clen.toNat = 5 + plen ∧
        ParamsAre t { var := .nov, tag := s.cfg.tagNov, n := n, w := w, tb := 0, ib := 0, k := 0,
                      pbase := 5, plen := plen, len := 5 + plen } ∧
        t.contWord 0 = s.cfg.magic ∧ t.contWord 1 = s.cfg.version ∧ t.contWord 2 = s.cfg.tagNov ∧
        (t.contWord 3).toNat = n ∧ (t.contWord 4).toNat = w ∧
        PayloadHolds t.contWord 5 plen w n (fun i => 32 * (i / vpw) + i % vpw * w)
          (fun i => (s.seqWord i).toNat) ∧
        (∀ i, i < n → i % vpw * w + w ≤ 32) ∧
        ∀ i, 5 + plen ≤ i → t.contWord i = s.contWord i) ∧
    ((s.cfg.seqWords < n ∨ s.cfg.contWords < 5 + plen) →
      ∃ t, exec .encodeNov s = .next t ∧ OnlyErrorReported s t .capacity)

/-- R131, R126, R127, R129: ENCODE.OVF writes the overflow container of SEQ[0..n-1]: the header, every element of 2^tb
or more in the table in order, and for each element its value, or the indicator and the place of its own table
entry. -/
def Obligations.EncodeOverflowWritesContainer : Prop :=
  ∀ s : State, s.cfg.Valid →
    let n := s.argN.toNat
    let values := s.inputSequence n
    let tb := max 1 (bitLen (maxOf values / 2))
    let k := values.countP fun v => 2 ^ tb ≤ v
    let ib := bitLen (k - 1)
    let cb := max tb ib
    let fw := 1 + cb
    let plen := (n * fw + 31) / 32
    (n ≤ s.cfg.seqWords → 8 + k + plen ≤ s.cfg.contWords →
      ∃ t, exec .encodeOvf s = .next t ∧ SucceededFrom s t ∧ EncodeFrame s t ∧
        t.result.toNat = 8 + k + plen ∧ t.clen.toNat = 8 + k + plen ∧
        ParamsAre t { var := .ovf, tag := s.cfg.tagOvf, n := n, w := fw, tb := tb, ib := ib, k := k,
                      pbase := 8 + k, plen := plen, len := 8 + k + plen } ∧
        t.contWord 0 = s.cfg.magic ∧ t.contWord 1 = s.cfg.version ∧ t.contWord 2 = s.cfg.tagOvf ∧
        (t.contWord 3).toNat = n ∧ (t.contWord 4).toNat = fw ∧ (t.contWord 5).toNat = tb ∧
        (t.contWord 6).toNat = ib ∧ (t.contWord 7).toNat = k ∧
        (∀ i, i < n → 2 ^ tb ≤ (s.seqWord i).toNat →
          overflowRank tb values i < k ∧ t.contWord (8 + overflowRank tb values i) = s.seqWord i) ∧
        PayloadHolds t.contWord (8 + k) plen fw n (fun i => i * fw)
          (fun i => if (s.seqWord i).toNat < 2 ^ tb then (s.seqWord i).toNat
            else 2 ^ cb + overflowRank tb values i) ∧
        ∀ i, 8 + k + plen ≤ i → t.contWord i = s.contWord i) ∧
    ((s.cfg.seqWords < n ∨ s.cfg.contWords < 8 + k + plen) →
      ∃ t, exec .encodeOvf s = .next t ∧ OnlyErrorReported s t .capacity)

/-! ### DECODE -/

/-- R109: DECODE.OVL writes the n elements of an accepted overlap container to SEQ[0..n-1] and no other word of SEQ; a
header error, and E_CAPACITY for n above SEQ_WORDS, change nothing. -/
def Obligations.DecodeOverlapRestoresSequence : Prop :=
  ∀ s : State, s.cfg.Valid →
    (∀ h, AcceptedContainer s (.only .ovl) h → h.n ≤ s.cfg.seqWords →
      ∃ t, exec .decodeOvl s = .next t ∧ SucceededFrom s t ∧ DecodeFrame s t ∧ ParamsAre t h ∧
        t.result.toNat = h.n ∧
        (∀ i, i < h.n → (t.seqWord i).toNat = fieldRead s.contWord 5 (i * h.w) h.w) ∧
        ∀ i, h.n ≤ i → t.seqWord i = s.seqWord i) ∧
    (∀ h, AcceptedContainer s (.only .ovl) h → s.cfg.seqWords < h.n →
      ∃ t, exec .decodeOvl s = .next t ∧ OnlyErrorReported s t .capacity) ∧
    ∀ e, validate s (.only .ovl) = .error e → ∃ t, exec .decodeOvl s = .next t ∧ OnlyErrorReported s t e

/-- R119: DECODE.NOV, as DECODE.OVL, with the non-overlap lanes. -/
def Obligations.DecodeNonOverlapRestoresSequence : Prop :=
  ∀ s : State, s.cfg.Valid →
    (∀ h, AcceptedContainer s (.only .nov) h → h.n ≤ s.cfg.seqWords →
      ∃ t, exec .decodeNov s = .next t ∧ SucceededFrom s t ∧ DecodeFrame s t ∧ ParamsAre t h ∧
        t.result.toNat = h.n ∧
        (∀ i, i < h.n → (t.seqWord i).toNat =
          fieldRead s.contWord 5 (32 * (i / (32 / h.w)) + i % (32 / h.w) * h.w) h.w) ∧
        ∀ i, h.n ≤ i → t.seqWord i = s.seqWord i) ∧
    (∀ h, AcceptedContainer s (.only .nov) h → s.cfg.seqWords < h.n →
      ∃ t, exec .decodeNov s = .next t ∧ OnlyErrorReported s t .capacity) ∧
    ∀ e, validate s (.only .nov) = .error e → ∃ t, exec .decodeNov s = .next t ∧ OnlyErrorReported s t e

/-- R134: DECODE.OVF writes the n elements of an accepted overflow container, or ends in E_INDEX with SEQ unchanged
when any field names no table entry. -/
def Obligations.DecodeOverflowRestoresSequence : Prop :=
  ∀ s : State, s.cfg.Valid →
    (∀ h, AcceptedContainer s (.only .ovf) h → h.n ≤ s.cfg.seqWords →
      (∀ i, i < h.n → elementAt s.contWord h i ≠ none) →
      ∃ t, exec .decodeOvf s = .next t ∧ SucceededFrom s t ∧ DecodeFrame s t ∧ ParamsAre t h ∧
        t.result.toNat = h.n ∧
        (∀ i, i < h.n → some (t.seqWord i).toNat = elementAt s.contWord h i) ∧
        ∀ i, h.n ≤ i → t.seqWord i = s.seqWord i) ∧
    (∀ h, AcceptedContainer s (.only .ovf) h → h.n ≤ s.cfg.seqWords →
      (∃ i, i < h.n ∧ elementAt s.contWord h i = none) →
      ∃ t, exec .decodeOvf s = .next t ∧ OnlyErrorReported s t .index) ∧
    (∀ h, AcceptedContainer s (.only .ovf) h → s.cfg.seqWords < h.n →
      ∃ t, exec .decodeOvf s = .next t ∧ OnlyErrorReported s t .capacity) ∧
    ∀ e, validate s (.only .ovf) = .error e → ∃ t, exec .decodeOvf s = .next t ∧ OnlyErrorReported s t e

/-- R160: DECODE.AUTO decodes an accepted container of any variant with the decoder its tag names. -/
def Obligations.DecodeAutoFollowsTag : Prop :=
  ∀ s : State, s.cfg.Valid →
    (∀ h, AcceptedContainer s .auto h → h.n ≤ s.cfg.seqWords →
      (∀ i, i < h.n → elementAt s.contWord h i ≠ none) →
      ∃ t, exec .decodeAuto s = .next t ∧ SucceededFrom s t ∧ DecodeFrame s t ∧ ParamsAre t h ∧
        t.result.toNat = h.n ∧
        (∀ i, i < h.n → some (t.seqWord i).toNat = elementAt s.contWord h i) ∧
        ∀ i, h.n ≤ i → t.seqWord i = s.seqWord i) ∧
    (∀ h, AcceptedContainer s .auto h → h.n ≤ s.cfg.seqWords →
      (∃ i, i < h.n ∧ elementAt s.contWord h i = none) →
      ∃ t, exec .decodeAuto s = .next t ∧ OnlyErrorReported s t .index) ∧
    (∀ h, AcceptedContainer s .auto h → s.cfg.seqWords < h.n →
      ∃ t, exec .decodeAuto s = .next t ∧ OnlyErrorReported s t .capacity) ∧
    ∀ e, validate s .auto = .error e → ∃ t, exec .decodeAuto s = .next t ∧ OnlyErrorReported s t e

/-! ### GET -/

/-- R111: GET.OVL answers element ARG_I of an accepted overlap container, or E_RANGE when ARG_I is n or more; a header
error comes first. -/
def Obligations.GetOverlapReadsElement : Prop :=
  ∀ s : State, s.cfg.Valid →
    (∀ h, AcceptedContainer s (.only .ovl) h → s.argI.toNat < h.n →
      ∃ t, exec .getOvl s = .next t ∧ SucceededFrom s t ∧ ParseFrame s t ∧ ParamsAre t h ∧
        t.result.toNat = fieldRead s.contWord 5 (s.argI.toNat * h.w) h.w) ∧
    (∀ h, AcceptedContainer s (.only .ovl) h → h.n ≤ s.argI.toNat →
      ∃ t, exec .getOvl s = .next t ∧ OnlyErrorReported s t .range) ∧
    ∀ e, validate s (.only .ovl) = .error e → ∃ t, exec .getOvl s = .next t ∧ OnlyErrorReported s t e

/-- R121, R118: GET.NOV, as GET.OVL, reading one lane of one payload word. -/
def Obligations.GetNonOverlapReadsLane : Prop :=
  ∀ s : State, s.cfg.Valid →
    (∀ h, AcceptedContainer s (.only .nov) h → s.argI.toNat < h.n →
      ∃ t, exec .getNov s = .next t ∧ SucceededFrom s t ∧ ParseFrame s t ∧ ParamsAre t h ∧
        t.result.toNat =
          (s.contWord (5 + s.argI.toNat / (32 / h.w))).toNat >>> (s.argI.toNat % (32 / h.w) * h.w) &&& mask h.w) ∧
    (∀ h, AcceptedContainer s (.only .nov) h → h.n ≤ s.argI.toNat →
      ∃ t, exec .getNov s = .next t ∧ OnlyErrorReported s t .range) ∧
    ∀ e, validate s (.only .nov) = .error e → ∃ t, exec .getNov s = .next t ∧ OnlyErrorReported s t e

/-- R136: GET.OVF answers element ARG_I of an accepted overflow container; E_RANGE, then E_INDEX for that one field. -/
def Obligations.GetOverflowReadsElement : Prop :=
  ∀ s : State, s.cfg.Valid →
    (∀ h v, AcceptedContainer s (.only .ovf) h → s.argI.toNat < h.n →
      elementAt s.contWord h s.argI.toNat = some v →
      ∃ t, exec .getOvf s = .next t ∧ SucceededFrom s t ∧ ParseFrame s t ∧ ParamsAre t h ∧ t.result.toNat = v) ∧
    (∀ h, AcceptedContainer s (.only .ovf) h → s.argI.toNat < h.n →
      elementAt s.contWord h s.argI.toNat = none →
      ∃ t, exec .getOvf s = .next t ∧ OnlyErrorReported s t .index) ∧
    (∀ h, AcceptedContainer s (.only .ovf) h → h.n ≤ s.argI.toNat →
      ∃ t, exec .getOvf s = .next t ∧ OnlyErrorReported s t .range) ∧
    ∀ e, validate s (.only .ovf) = .error e → ∃ t, exec .getOvf s = .next t ∧ OnlyErrorReported s t e

/-- R161: GET.AUTO reads an element of an accepted container of any variant with the reader its tag names. -/
def Obligations.GetAutoFollowsTag : Prop :=
  ∀ s : State, s.cfg.Valid →
    (∀ h v, AcceptedContainer s .auto h → s.argI.toNat < h.n →
      elementAt s.contWord h s.argI.toNat = some v →
      ∃ t, exec .getAuto s = .next t ∧ SucceededFrom s t ∧ ParseFrame s t ∧ ParamsAre t h ∧ t.result.toNat = v) ∧
    (∀ h, AcceptedContainer s .auto h → s.argI.toNat < h.n →
      elementAt s.contWord h s.argI.toNat = none →
      ∃ t, exec .getAuto s = .next t ∧ OnlyErrorReported s t .index) ∧
    (∀ h, AcceptedContainer s .auto h → h.n ≤ s.argI.toNat →
      ∃ t, exec .getAuto s = .next t ∧ OnlyErrorReported s t .range) ∧
    ∀ e, validate s .auto = .error e → ∃ t, exec .getAuto s = .next t ∧ OnlyErrorReported s t e

/-! ### PARSE and the validator -/

/-- R152: PARSE.OVL, PARSE.NOV and PARSE.OVF load the header of an accepted container of their variant into the P
registers and answer 0, 1 or 2. -/
def Obligations.ParseNamedLoadsHeader : Prop :=
  ∀ s : State, s.cfg.Valid →
    (∀ h, AcceptedContainer s (.only .ovl) h →
      ∃ t, exec .parseOvl s = .next t ∧ SucceededFrom s t ∧ ParseFrame s t ∧ ParamsAre t h ∧ t.result = 0#32) ∧
    (∀ h, AcceptedContainer s (.only .nov) h →
      ∃ t, exec .parseNov s = .next t ∧ SucceededFrom s t ∧ ParseFrame s t ∧ ParamsAre t h ∧ t.result = 1#32) ∧
    (∀ h, AcceptedContainer s (.only .ovf) h →
      ∃ t, exec .parseOvf s = .next t ∧ SucceededFrom s t ∧ ParseFrame s t ∧ ParamsAre t h ∧ t.result = 2#32) ∧
    ∀ v e, validate s (.only v) = .error e → ∃ t, exec (parseFor v) s = .next t ∧ OnlyErrorReported s t e

/-- R162: PARSE.AUTO loads the header of an accepted container of any variant and answers its variant's number. -/
def Obligations.ParseAutoLoadsHeader : Prop :=
  ∀ s : State, s.cfg.Valid →
    (∀ h, AcceptedContainer s .auto h →
      ∃ t, exec .parseAuto s = .next t ∧ SucceededFrom s t ∧ ParseFrame s t ∧ ParamsAre t h ∧
        (h.var = .ovl → t.result = 0#32) ∧ (h.var = .nov → t.result = 1#32) ∧ (h.var = .ovf → t.result = 2#32)) ∧
    ∀ e, validate s .auto = .error e → ∃ t, exec .parseAuto s = .next t ∧ OnlyErrorReported s t e

/-- R144 to R148: the validator accepts exactly the containers whose words, length and parameters are right, and gives
their header. -/
def Obligations.ValidatorAcceptsExactlyContainers : Prop :=
  ∀ (s : State) (sel : Selector) (h : Header), s.cfg.Valid →
    (validate s sel = .ok h ↔ AcceptedContainer s sel h)

/-- R171, R172, R173, and the extent check of R178: when the validator ends in E_CAPACITY, E_MAGIC, E_VERSION and
E_TAG. -/
def Obligations.IdentityErrorCauses : Prop :=
  ∀ (s : State) (sel : Selector), s.cfg.Valid →
    let len := s.clen.toNat
    (validate s sel = .error .capacity ↔ s.cfg.contWords < len) ∧
    (validate s sel = .error .magic ↔
      1 ≤ len ∧ len ≤ s.cfg.contWords ∧ s.contWord 0 ≠ s.cfg.magic) ∧
    (validate s sel = .error .version ↔
      2 ≤ len ∧ len ≤ s.cfg.contWords ∧ s.contWord 0 = s.cfg.magic ∧ s.contWord 1 ≠ s.cfg.version) ∧
    (validate s sel = .error .tag ↔
      3 ≤ len ∧ len ≤ s.cfg.contWords ∧ s.contWord 0 = s.cfg.magic ∧ s.contWord 1 = s.cfg.version ∧
        ¬ ∃ v, s.contWord 2 = s.cfg.tag v ∧ (sel = .auto ∨ sel = .only v))

/-- R174, R175: when the validator ends in E_LENGTH (CLEN too short for the next header word, or not the length the
header implies) and E_PARAM (a parameter out of range). -/
def Obligations.LengthAndParameterErrorCauses : Prop :=
  ∀ (s : State) (sel : Selector), s.cfg.Valid →
    let len := s.clen.toNat
    let named (v : Variant) : Prop :=
      s.contWord 0 = s.cfg.magic ∧ s.contWord 1 = s.cfg.version ∧ s.contWord 2 = s.cfg.tag v ∧
        (sel = .auto ∨ sel = .only v)
    let w := (s.contWord 4).toNat
    let n := (s.contWord 3).toNat
    let tb := (s.contWord 5).toNat
    let ib := (s.contWord 6).toNat
    let k := (s.contWord 7).toNat
    (validate s sel = .error .param ↔
      len ≤ s.cfg.contWords ∧
        ((5 ≤ len ∧ (named .ovl ∨ named .nov) ∧ (w = 0 ∨ 32 < w)) ∨
          (8 ≤ len ∧ named .ovf ∧ (tb = 0 ∨ w ≠ 1 + max tb ib ∨ 32 < w)))) ∧
    (validate s sel = .error .length ↔
      len ≤ s.cfg.contWords ∧
        (len = 0 ∨
          (len = 1 ∧ s.contWord 0 = s.cfg.magic) ∨
          (len = 2 ∧ s.contWord 0 = s.cfg.magic ∧ s.contWord 1 = s.cfg.version) ∨
          (3 ≤ len ∧ len < 5 ∧ (named .ovl ∨ named .nov)) ∨
          (3 ≤ len ∧ len < 8 ∧ named .ovf) ∨
          (5 ≤ len ∧ named .ovl ∧ 1 ≤ w ∧ w ≤ 32 ∧ len ≠ 5 + (n * w + 31) / 32) ∨
          (5 ≤ len ∧ named .nov ∧ 1 ≤ w ∧ w ≤ 32 ∧ len ≠ 5 + (n + 32 / w - 1) / (32 / w)) ∨
          (8 ≤ len ∧ named .ovf ∧ 1 ≤ tb ∧ w = 1 + max tb ib ∧ w ≤ 32 ∧
            len ≠ 8 + k + (n * w + 31) / 32)))

/-- R154: with word 0 not the magic, every DECODE, GET and PARSE ends in E_MAGIC and writes nothing but STATUS and
ERRCODE. -/
def Obligations.HeaderRejection : Prop :=
  ∀ (s : State) (i : Instr), containerSelector i ≠ none → 1 ≤ s.clen.toNat →
    s.clen.toNat ≤ s.cfg.contWords → s.contWord 0 ≠ s.cfg.magic →
      ∃ t, exec i s = .next t ∧ OnlyErrorReported s t .magic

/-- R163: when the CLEN, magic and version checks pass and the tag names variant v, DECODE.AUTO, GET.AUTO and
PARSE.AUTO are the commands of v; when one of those checks fails or the tag is unknown, they are the commands of every
variant. -/
def Obligations.AutoEqualsNamedVariant : Prop :=
  ∀ (s : State) (v : Variant), s.cfg.Valid →
    (3 ≤ s.clen.toNat → s.clen.toNat ≤ s.cfg.contWords → s.contWord 0 = s.cfg.magic →
      s.contWord 1 = s.cfg.version → s.contWord 2 = s.cfg.tag v →
      exec .decodeAuto s = exec (decodeFor v) s ∧ exec .getAuto s = exec (getFor v) s ∧
        exec .parseAuto s = exec (parseFor v) s) ∧
    ((s.clen.toNat < 3 ∨ s.cfg.contWords < s.clen.toNat ∨ s.contWord 0 ≠ s.cfg.magic ∨
        s.contWord 1 ≠ s.cfg.version ∨ ∀ u, s.contWord 2 ≠ s.cfg.tag u) →
      exec .decodeAuto s = exec (decodeFor v) s ∧ exec .getAuto s = exec (getFor v) s ∧
        exec .parseAuto s = exec (parseFor v) s)

/-! ### Rules of the whole machine -/

/-- R169: the numbers of the error codes. A sanity statement. -/
def Obligations.ErrorCodeNumbers : Prop :=
  eNone = 0x00#32 ∧ ErrCode.magic.code = 0x01#32 ∧ ErrCode.version.code = 0x02#32 ∧ ErrCode.tag.code = 0x03#32 ∧
  ErrCode.length.code = 0x04#32 ∧ ErrCode.param.code = 0x05#32 ∧ ErrCode.index.code = 0x06#32 ∧
  ErrCode.range.code = 0x07#32 ∧ ErrCode.capacity.code = 0x08#32 ∧ ErrCode.illegalCmd.code = 0x09#32 ∧
  ErrCode.illegalArg.code = 0x0A#32

/-- R45, R167, R168, R203: every command ends, on every state, either in success or in an error that changes nothing
but STATUS.ERR, STATUS.STICKY and ERRCODE (BUSY ends 0 in both). -/
def Obligations.CommandsEndInSuccessOrReportedError : Prop :=
  ∀ (i : Instr) (s : State), ∃ t, exec i s = .next t ∧ (SucceededFrom s t ∨ ∃ e, OnlyErrorReported s t e)

/-- R182: the errors each command can end in. -/
def Obligations.ErrorsOfEachCommand : Prop :=
  ∀ (i : Instr) (s t : State), exec i s = .next t → t.errFlag = true →
    ∃ e ∈ possibleErrors i, t.errcode = e.code

/-- R52, R45: the frame of every command, word by word. BITLEN, WIDTH and RDFIELD change at most RESULT; WRFIELD at most
the one or two words of CONT its field lies in; an ENCODE at most CLEN, RESULT, the P registers and, where it succeeded,
the words of CONT below the length it leaves in CLEN; a DECODE at most RESULT, the P registers and, where it succeeded, the
words of SEQ below the count it leaves in RESULT; a GET or PARSE at most RESULT and the P registers; and each of them
STATUS and ERRCODE, which are all that a command that ended in error changes. No command changes an operand register,
the parameters, or the host's record. The words an ENCODE leaves alone are stated for the parameters R9 allows, where a
length fits CLEN. -/
def Obligations.CommandsChangeOnlyTheirWriteSet : Prop :=
  ∀ (i : Instr) (s t : State), exec i s = .next t →
    (t.errFlag = true → ErrorFrame s t) ∧
    match i with
    | .bitlen | .width | .rdfield => ResultFrame s t
    | .wrfield =>
      FieldFrame s t ∧
        ∀ j, (j < s.argI.toNat / 32 ∨ (s.argI.toNat + s.argW.toNat - 1) / 32 < j) → t.contWord j = s.contWord j
    | .encodeOvl | .encodeNov | .encodeOvf =>
      EncodeFrame s t ∧
        (s.cfg.Valid → t.errFlag = false → ∀ j, t.clen.toNat ≤ j → t.contWord j = s.contWord j)
    | .decodeOvl | .decodeNov | .decodeOvf | .decodeAuto =>
      DecodeFrame s t ∧ (t.errFlag = false → ∀ j, t.result.toNat ≤ j → t.seqWord j = s.seqWord j)
    | .getOvl | .getNov | .getOvf | .getAuto => ParseFrame s t
    | .parseOvl | .parseNov | .parseOvf | .parseAuto => ParseFrame s t

/-- R34, R201: a word of SEQ changes only in a DECODE that succeeded, and only below the element count. -/
def Obligations.SequenceChangesOnlyInDecode : Prop :=
  ∀ (i : Instr) (s t : State) (j : Nat), exec i s = .next t → t.seqWord j ≠ s.seqWord j →
    (i = .decodeOvl ∨ i = .decodeNov ∨ i = .decodeOvf ∨ i = .decodeAuto) ∧ t.errFlag = false ∧
      j < t.result.toNat ∧ t.result.toNat ≤ s.cfg.seqWords

/-- R44: DECODE and PARSE read only CONT and CLEN, GET only these and ARG_I: on two states that agree on them (and on
the parameters and the unspecified words) a command ends with the same code, and where it succeeds with the same RESULT,
P registers and decoded words, whatever else the states hold. -/
def Obligations.ContainerCommandsReadOnlyContainer : Prop :=
  ∀ (i : Instr) (s s' : State), containerSelector i ≠ none →
    s'.cfg = s.cfg → s'.epoch = s.epoch → s'.cont = s.cont → s'.clen = s.clen →
    ((i = .getOvl ∨ i = .getNov ∨ i = .getOvf ∨ i = .getAuto) → s'.argI = s.argI) →
    ∃ t t', exec i s = .next t ∧ exec i s' = .next t' ∧ t'.errcode = t.errcode ∧ t'.errFlag = t.errFlag ∧
      (t.errFlag = false →
        t'.result = t.result ∧ t'.pTag = t.pTag ∧ t'.pN = t.pN ∧ t'.pWidth = t.pWidth ∧ t'.pTbits = t.pTbits ∧
          t'.pIbits = t.pIbits ∧ t'.pOvflen = t.pOvflen ∧ t'.pPlen = t.pPlen ∧
          ((i = .decodeOvl ∨ i = .decodeNov ∨ i = .decodeOvf ∨ i = .decodeAuto) →
            ∀ j, j < t.result.toNat → t'.seqWord j = t.seqWord j))

/-- R185: a command runs the same whatever STATUS and ERRCODE an earlier command left, and its own end overwrites ERR
and ERRCODE. -/
def Obligations.CommandsIgnoreEarlierErrors : Prop :=
  ∀ (i : Instr) (s : State) (status errcode : Word),
    ∃ t t', exec i s = .next t ∧ exec i { s with status := status, errcode := errcode } = .next t' ∧
      t' = { t with status := t'.status } ∧ t'.errFlag = t.errFlag

/-! ### The codecs as functions -/

/-- R128: the bounds of the overflow parameters of every sequence SEQ can hold. -/
def Obligations.OverflowParameterBounds : Prop :=
  ∀ values : List Nat, (∀ v ∈ values, v < 2 ^ 32) → values.length ≤ 2 ^ 31 →
    let tb := thresholdBits values
    let k := (overflowTable tb values).length
    let ib := indexBits k
    let fw := 1 + max tb ib
    1 ≤ tb ∧ tb ≤ 31 ∧ ib ≤ 31 ∧ 2 ≤ fw ∧ fw ≤ 32 ∧ (fw = 32 ↔ 2 ^ 31 ≤ maxOf values ∨ 2 ^ 30 ≤ k - 1)

/-- R137: which elements overflow the encoder's threshold, and that the overflow container is always longer than the
overlap container of the same sequence. -/
def Obligations.OverflowThresholdSelects : Prop :=
  ∀ values : List Nat, (∀ v ∈ values, v < 2 ^ 32) → values.length ≤ 2 ^ 31 →
    let m := maxOf values
    let tb := thresholdBits values
    let k := (overflowTable tb values).length
    let fw := 1 + max tb (indexBits k)
    let ovl := 5 + payloadLength .ovl values.length (widthOf values)
    let ovf := 8 + k + payloadLength .ovf values.length fw
    (m ≤ 1 → tb = 1 ∧ (∀ v ∈ values, v < 2 ^ 1) ∧ k = 0 ∧ fw = 2 ∧ widthOf values = 1 ∧ ovl + 3 ≤ ovf) ∧
    (2 ≤ m →
      tb = bitLen m - 1 ∧
      (∀ v ∈ values, v ∈ overflowTable tb values ↔ 2 ^ (bitLen m - 1) ≤ v ∧ v ≤ m) ∧
      m ∈ overflowTable tb values ∧ 1 ≤ k ∧ fw = max (bitLen m) (1 + bitLen (k - 1)) ∧
      widthOf values ≤ fw ∧ ovl + 4 ≤ ovf)

/-- R114: when a field straddles, that none does when w divides 32 and some does otherwise, and that the overlap
payload is never longer than the non-overlap payload. -/
def Obligations.OverlapPayloadNeverLonger : Prop :=
  ∀ w, 1 ≤ w → w ≤ 32 →
    (w ∣ 32 → ∀ i, fieldOffset .ovl w i % 32 + w ≤ 32) ∧
    (¬ w ∣ 32 → ∃ i, 32 < fieldOffset .ovl w i % 32 + w) ∧
    ∀ n, payloadLength .ovl n w ≤ payloadLength .nov n w

/-- R138: in a container ENCODE.OVF wrote, every field with indicator 1 names the table entry that holds the original
value, and every other field is the original value. -/
def Obligations.OverflowReferentialIntegrity : Prop :=
  ∀ s t : State, s.cfg.Valid → exec .encodeOvf s = .next t → t.errFlag = false →
    ∀ i, i < s.argN.toNat →
      let fw := t.pWidth.toNat
      let k := t.pOvflen.toNat
      let f := fieldRead t.contWord (8 + k) (i * fw) fw
      let content := f % 2 ^ (fw - 1)
      (f.testBit (fw - 1) = true → content < k ∧ t.contWord (8 + content) = s.seqWord i) ∧
      (f.testBit (fw - 1) = false → content = (s.seqWord i).toNat)

/-- R112, R113: the overlap round trip. After ENCODE.OVL of a sequence that fits, DECODE.OVL and DECODE.AUTO leave it in
SEQ[0..n-1] with RESULT = n, and GET.OVL and GET.AUTO answer each element, on every later state in which CONT and CLEN
are as ENCODE left them. -/
def Obligations.OverlapRoundTrip : Prop :=
  ∀ s : State, s.cfg.Valid → s.argN.toNat ≤ s.cfg.seqWords →
    5 + (s.argN.toNat * widthOf (s.inputSequence s.argN.toNat) + 31) / 32 ≤ s.cfg.contWords →
    ∃ t, exec .encodeOvl s = .next t ∧
      ∀ u : State, u.cfg = t.cfg → u.epoch = t.epoch → u.cont = t.cont → u.clen = t.clen →
        (∀ d, d = .decodeOvl ∨ d = .decodeAuto →
          ∃ r, exec d u = .next r ∧ SucceededFrom u r ∧ r.result = s.argN ∧
            ∀ i, i < s.argN.toNat → r.seqWord i = s.seqWord i) ∧
        (∀ g, g = .getOvl ∨ g = .getAuto → u.argI.toNat < s.argN.toNat →
          ∃ r, exec g u = .next r ∧ SucceededFrom u r ∧ r.result = s.seqWord u.argI.toNat)

/-- R123: the non-overlap round trip, with DECODE.AUTO and GET.AUTO too (R164). -/
def Obligations.NonOverlapRoundTrip : Prop :=
  ∀ s : State, s.cfg.Valid → s.argN.toNat ≤ s.cfg.seqWords →
    5 + (s.argN.toNat + 32 / widthOf (s.inputSequence s.argN.toNat) - 1) /
      (32 / widthOf (s.inputSequence s.argN.toNat)) ≤ s.cfg.contWords →
    ∃ t, exec .encodeNov s = .next t ∧
      ∀ u : State, u.cfg = t.cfg → u.epoch = t.epoch → u.cont = t.cont → u.clen = t.clen →
        (∀ d, d = .decodeNov ∨ d = .decodeAuto →
          ∃ r, exec d u = .next r ∧ SucceededFrom u r ∧ r.result = s.argN ∧
            ∀ i, i < s.argN.toNat → r.seqWord i = s.seqWord i) ∧
        (∀ g, g = .getNov ∨ g = .getAuto → u.argI.toNat < s.argN.toNat →
          ∃ r, exec g u = .next r ∧ SucceededFrom u r ∧ r.result = s.seqWord u.argI.toNat)

/-- R139: the overflow round trip, E_INDEX never raised, with DECODE.AUTO and GET.AUTO too (R164). -/
def Obligations.OverflowRoundTrip : Prop :=
  ∀ s : State, s.cfg.Valid → s.argN.toNat ≤ s.cfg.seqWords →
    (overflowHeader s.cfg (s.inputSequence s.argN.toNat)).len ≤ s.cfg.contWords →
    ∃ t, exec .encodeOvf s = .next t ∧
      ∀ u : State, u.cfg = t.cfg → u.epoch = t.epoch → u.cont = t.cont → u.clen = t.clen →
        (∀ d, d = .decodeOvf ∨ d = .decodeAuto →
          ∃ r, exec d u = .next r ∧ SucceededFrom u r ∧ r.result = s.argN ∧
            ∀ i, i < s.argN.toNat → r.seqWord i = s.seqWord i) ∧
        (∀ g, g = .getOvf ∨ g = .getAuto → u.argI.toNat < s.argN.toNat →
          ∃ r, exec g u = .next r ∧ SucceededFrom u r ∧ r.result = s.seqWord u.argI.toNat)

/-- R155: a container an ENCODE wrote passes the validator for its own variant and for AUTO, with the encoder's
record. -/
def Obligations.EncodedContainerValidates : Prop :=
  ∀ (v : Variant) (s t : State), s.cfg.Valid → exec (encodeFor v) s = .next t → t.errFlag = false →
    ∃ h, validate t (.only v) = .ok h ∧ validate t .auto = .ok h ∧ h.var = v ∧ ParamsAre t h ∧
      h.n = s.argN.toNat ∧ h.pbase = headerWords v + h.k ∧ h.len = t.clen.toNat

/-! ### The invariant -/

/-- R23, R24, R31, R34, R35, R169, R195: whatever the host does, a step from a state in which the parameters meet their
constraints, STATUS and ERRCODE agree with each other, the memories are canonical and inside their capacity and the P
registers are zero or a possible header, leaves such a state. -/
def Obligations.StepKeepsInvariant : Prop :=
  ∀ s t : State, s.Inv → step s = .next t → t.Inv

/-- R190: the state after reset meets the invariant, for every value of the parameters. That State.reset has the
parameters of P0 is the model's choice (log 1). -/
def Obligations.ResetMeetsInvariant : Prop :=
  (∀ c : Config, c.Valid → (State.resetWith c).Inv) ∧ State.reset.Inv
end

