-- ==== Sys2Proof/Laws/Bits.lean ====
section
/-! SUPPORT. The laws of the arithmetic and bit primitives of Machine/Bits.lean. -/

namespace Sys2Proof.Machine

/-- Bit j of `natOfBits`: the given bit below n, and 0 from n on. -/
theorem testBit_natOfBits (bit : Nat → Bool) (n j : Nat) :
    (natOfBits bit n).testBit j = (decide (j < n) && bit j) := by
  induction n with
  | zero => simp [natOfBits]
  | succ n ih =>
    rw [natOfBits, Nat.testBit_or, ih, Nat.testBit_shiftLeft, Nat.testBit_bool_toNat]
    rcases Nat.lt_trichotomy j n with h | h | h
    · simp [h, Nat.lt_succ_of_lt h, Nat.not_le.mpr h]
    · subst h; simp
    · have h1 : ¬ j < n := by omega
      have h2 : ¬ j < n + 1 := by omega
      have h3 : ¬ j - n = 0 := by omega
      simp [h1, h2, h3]

theorem natOfBits_lt (bit : Nat → Bool) (n : Nat) : natOfBits bit n < 2 ^ n := by
  apply Nat.lt_pow_two_of_testBit
  intro i hi
  simp [testBit_natOfBits, Nat.not_lt.mpr hi]

theorem natOfBits_congr {f g : Nat → Bool} {n : Nat} (h : ∀ j, j < n → f j = g j) :
    natOfBits f n = natOfBits g n := by
  apply Nat.eq_of_testBit_eq
  intro j
  rw [testBit_natOfBits, testBit_natOfBits]
  by_cases hj : j < n
  · simp [hj, h j hj]
  · simp [hj]

/-- A number below 2^n is made of its own bits. -/
theorem natOfBits_testBit {x n : Nat} (h : x < 2 ^ n) : natOfBits (fun j => x.testBit j) n = x := by
  apply Nat.eq_of_testBit_eq
  intro j
  rw [testBit_natOfBits]
  by_cases hj : j < n
  · simp [hj]
  · have : x < 2 ^ j := Nat.lt_of_lt_of_le h (Nat.pow_le_pow_right (by decide) (by omega))
    simp [hj, Nat.testBit_lt_two_pow this]

theorem lt_two_pow_bitLen (x : Nat) : x < 2 ^ bitLen x := by
  unfold bitLen
  split
  · simp_all
  · exact Nat.lt_log2_self

theorem bitLen_le {x b : Nat} (h : x < 2 ^ b) : bitLen x ≤ b := by
  unfold bitLen
  split
  · omega
  · next hx => exact (Nat.log2_lt hx).mpr h

@[simp] theorem bitLen_zero : bitLen 0 = 0 := rfl

theorem bitLen_pos {x : Nat} (h : x ≠ 0) : 1 ≤ bitLen x := by
  simp [bitLen, h]

theorem mask_and (x w : Nat) : x &&& mask w = x % 2 ^ w := Nat.and_two_pow_sub_one_eq_mod x w

theorem toNat_wordOf {x : Nat} (h : x < 2 ^ 32) : (wordOf x).toNat = x := by
  simp only [wordOf, BitVec.toNat_ofNat]
  exact Nat.mod_eq_of_lt h

@[simp] theorem wordOf_toNat (v : Word) : wordOf v.toNat = v := by
  simp [wordOf]

theorem getLsbD_wordOf (x j : Nat) : (wordOf x).getLsbD j = (decide (j < 32) && x.testBit j) := by
  simp [wordOf, BitVec.getLsbD_ofNat]

theorem ceilDiv_eq (a b : Nat) : ceilDiv a b = (a + b - 1) / b := rfl

/-- `ceil(a / b)` blocks of b hold a. -/
theorem le_mul_ceilDiv {a b : Nat} (hb : 0 < b) : a ≤ b * ceilDiv a b := by
  unfold ceilDiv
  have h := Nat.div_add_mod (a + b - 1) b
  have h2 := Nat.mod_lt (a + b - 1) hb
  omega

/-- `ceil(a / b)` is the least number of blocks of b that hold a. -/
theorem ceilDiv_le {a b c : Nat} (hb : 0 < b) (h : a ≤ b * c) : ceilDiv a b ≤ c := by
  unfold ceilDiv
  apply Nat.le_of_lt_succ
  apply (Nat.div_lt_iff_lt_mul hb).mpr
  rw [Nat.succ_mul, Nat.mul_comm]
  omega

end Sys2Proof.Machine
end

