-- ==== Sys2Proof/Laws/Memory.lean ====
section
/-! SUPPORT. The laws of a memory: a read after a write, that every operation keeps the canonical form and the capacity,
and that equal canonical memories are equal lists. -/

namespace Sys2Proof.Machine

@[simp] theorem Memory.read?_nil (i : Nat) : Memory.read? [] i = none := rfl

/-- A read after a write: the written word at its index, the word before everywhere else. -/
theorem Memory.read?_write (m : Memory) (i j : Nat) (v : Word) :
    (m.write i v).read? j = if i = j then some v else m.read? j := by
  induction m with
  | nil => rfl
  | cons cell m ih =>
    obtain ⟨a, x⟩ := cell
    unfold Memory.write
    split
    · rfl
    · split
      · next h => subst h; by_cases hj : i = j <;> simp [Memory.read?, hj]
      · next h1 h2 =>
        simp only [Memory.read?, ih]
        by_cases ha : a = j
        · have : i ≠ j := by omega
          simp [ha, this]
        · simp [ha]

theorem Memory.word_write (m : Memory) (epoch : Nat) (sp : Space) (i j : Nat) (v : Word) :
    (m.write i v).word epoch sp j = if i = j then v else m.word epoch sp j := by
  unfold Memory.word
  rw [Memory.read?_write]
  split <;> rfl

theorem Memory.word_write_same (m : Memory) (epoch : Nat) (sp : Space) (i : Nat) (v : Word) :
    (m.write i v).word epoch sp i = v := by
  simp [Memory.word_write]

theorem Memory.word_write_other (m : Memory) (epoch : Nat) (sp : Space) {i j : Nat} (v : Word) (h : i ≠ j) :
    (m.write i v).word epoch sp j = m.word epoch sp j := by
  simp [Memory.word_write, h]

/-- Every index listed after a write is the written one or was listed before. -/
theorem Memory.mem_write {m : Memory} {i : Nat} {v : Word} {cell : Nat × Word} (h : cell ∈ m.write i v) :
    cell = (i, v) ∨ cell ∈ m := by
  induction m with
  | nil => simpa [Memory.write] using h
  | cons head m ih =>
    obtain ⟨a, x⟩ := head
    unfold Memory.write at h
    split at h
    · simpa using h
    · split at h
      · rcases List.mem_cons.mp h with h | h
        · exact .inl h
        · exact .inr (List.mem_cons_of_mem _ h)
      · rcases List.mem_cons.mp h with h | h
        · exact .inr (by simp [h])
        · rcases ih h with h | h
          · exact .inl h
          · exact .inr (List.mem_cons_of_mem _ h)

/-- A write keeps the canonical form. -/
theorem Memory.write_wf {m : Memory} (h : m.wf) (i : Nat) (v : Word) : (m.write i v).wf := by
  induction m with
  | nil => simp [Memory.write, Memory.wf]
  | cons head m ih =>
    obtain ⟨a, x⟩ := head
    have hrest : Memory.wf m := by
      simp only [Memory.wf, List.map_cons, List.pairwise_cons] at h
      exact h.2
    have hhead : ∀ b ∈ m.map Prod.fst, a < b := by
      simp only [Memory.wf, List.map_cons, List.pairwise_cons] at h
      exact h.1
    unfold Memory.write
    split
    · next hlt =>
      simp only [Memory.wf, List.map_cons, List.pairwise_cons, List.mem_cons, forall_eq_or_imp]
      exact ⟨⟨hlt, fun b hb => Nat.lt_trans hlt (hhead b hb)⟩, hhead, hrest⟩
    · split
      · next heq =>
        subst heq
        simp only [Memory.wf, List.map_cons, List.pairwise_cons]
        exact ⟨hhead, hrest⟩
      · next hn hne =>
        simp only [Memory.wf, List.map_cons, List.pairwise_cons]
        refine ⟨?_, ih hrest⟩
        intro b hb
        obtain ⟨cell, hcell, rfl⟩ := List.mem_map.mp hb
        rcases Memory.mem_write hcell with h | h
        · subst h; show a < i; omega
        · exact hhead _ (List.mem_map_of_mem h)

/-- A write inside the capacity keeps the memory inside it. -/
theorem Memory.write_inBounds {m : Memory} {n : Nat} (h : m.inBounds n) {i : Nat} (hi : i < n) (v : Word) :
    (m.write i v).inBounds n := by
  intro cell hcell
  rcases Memory.mem_write hcell with rfl | hm
  · exact hi
  · exact h cell hm

/-- Consecutive writes: inside the run the words of the list, everywhere else the words before. -/
theorem Memory.word_writeList (vs : List Word) (m : Memory) (epoch : Nat) (sp : Space) (base j : Nat) :
    (m.writeList base vs).word epoch sp j =
      if h : base ≤ j ∧ j - base < vs.length then vs[j - base]'h.2 else m.word epoch sp j := by
  induction vs generalizing m base with
  | nil => simp [Memory.writeList]
  | cons v vs ih =>
    simp only [Memory.writeList, ih]
    by_cases h1 : base + 1 ≤ j ∧ j - (base + 1) < vs.length
    · have h2 : base ≤ j ∧ j - base < (v :: vs).length := by simp only [List.length_cons]; omega
      rw [dif_pos h1, dif_pos h2]
      have h3 : j - base = (j - (base + 1)) + 1 := by omega
      simp [h3]
    · rw [dif_neg h1, Memory.word_write]
      by_cases h2 : base = j
      · subst h2
        have h3 : base ≤ base ∧ base - base < (v :: vs).length := by simp
        rw [if_pos rfl, dif_pos h3]
        simp
      · have h3 : ¬ (base ≤ j ∧ j - base < (v :: vs).length) := by
          simp only [List.length_cons]; omega
        rw [if_neg h2, dif_neg h3]

theorem Memory.word_writeList_outside (vs : List Word) (m : Memory) (epoch : Nat) (sp : Space) {base j : Nat}
    (h : j < base ∨ base + vs.length ≤ j) :
    (m.writeList base vs).word epoch sp j = m.word epoch sp j := by
  rw [Memory.word_writeList, dif_neg (by omega)]

theorem Memory.word_writeList_inside (vs : List Word) (m : Memory) (epoch : Nat) (sp : Space) (base : Nat) {i : Nat}
    (h : i < vs.length) : (m.writeList base vs).word epoch sp (base + i) = vs[i] := by
  rw [Memory.word_writeList, dif_pos (by omega)]
  congr 1
  omega

theorem Memory.writeList_wf (vs : List Word) {m : Memory} (h : m.wf) (base : Nat) : (m.writeList base vs).wf := by
  induction vs generalizing m base with
  | nil => exact h
  | cons v vs ih => exact ih (Memory.write_wf h base v) (base + 1)

theorem Memory.writeList_inBounds (vs : List Word) {m : Memory} {n : Nat} (h : m.inBounds n) (base : Nat)
    (hfit : base + vs.length ≤ n) : (m.writeList base vs).inBounds n := by
  induction vs generalizing m base with
  | nil => exact h
  | cons v vs ih =>
    simp only [List.length_cons] at hfit
    exact ih (Memory.write_inBounds h (by omega) v) (base + 1) (by omega)

/-- Reset's memory, which lists nothing, has the canonical form. -/
theorem Memory.nil_wf : Memory.wf [] := List.Pairwise.nil

/-- Equal memories are equal data: two canonical lists that give the same known words are the same list. -/
theorem Memory.eq_of_read? {m m' : Memory} (h : m.wf) (h' : m'.wf) (heq : ∀ i, m.read? i = m'.read? i) : m = m' := by
  induction m generalizing m' with
  | nil =>
    cases m' with
    | nil => rfl
    | cons c m' => have := heq c.1; simp [Memory.read?] at this
  | cons c m ih =>
    obtain ⟨a, x⟩ := c
    cases m' with
    | nil => have := heq a; simp [Memory.read?] at this
    | cons c' m' =>
      obtain ⟨b, y⟩ := c'
      have hm : Memory.wf m := by
        simp only [Memory.wf, List.map_cons, List.pairwise_cons] at h
        exact h.2
      have hm' : Memory.wf m' := by
        simp only [Memory.wf, List.map_cons, List.pairwise_cons] at h'
        exact h'.2
      have hlow : ∀ (q : Memory) (p i : Nat), (∀ j ∈ q.map Prod.fst, p < j) → i ≤ p → q.read? i = none := by
        intro q p i hq hi
        induction q with
        | nil => rfl
        | cons d q ihq =>
          obtain ⟨e, z⟩ := d
          have h1 : p < e := hq e (by simp)
          have h2 : e ≠ i := by omega
          simp only [Memory.read?, h2, if_false]
          exact ihq (fun j hj => hq j (by simp only [List.map_cons, List.mem_cons]; exact .inr hj))
      have ha : ∀ j ∈ m.map Prod.fst, a < j := by
        simp only [Memory.wf, List.map_cons, List.pairwise_cons] at h
        exact h.1
      have hb : ∀ j ∈ m'.map Prod.fst, b < j := by
        simp only [Memory.wf, List.map_cons, List.pairwise_cons] at h'
        exact h'.1
      have hab : a = b := by
        rcases Nat.lt_trichotomy a b with hlt | heq' | hlt
        · have := heq a
          rw [hlow ((b, y) :: m') a a (by
            intro j hj
            rcases List.mem_cons.mp hj with rfl | hj
            · exact hlt
            · exact Nat.lt_trans hlt (hb j hj)) (Nat.le_refl a)] at this
          simp [Memory.read?] at this
        · exact heq'
        · have := heq b
          rw [hlow ((a, x) :: m) b b (by
            intro j hj
            rcases List.mem_cons.mp hj with rfl | hj
            · exact hlt
            · exact Nat.lt_trans hlt (ha j hj)) (Nat.le_refl b)] at this
          simp [Memory.read?] at this
      subst hab
      have hxy : x = y := by
        have := heq a
        simpa [Memory.read?] using this
      subst hxy
      congr 1
      apply ih hm hm'
      intro i
      by_cases hi : i ≤ a
      · rw [hlow m a i ha hi, hlow m' a i hb hi]
      · have := heq i
        have hne : a ≠ i := by omega
        simpa [Memory.read?, hne] using this

end Sys2Proof.Machine
end

