-- ==== Sys2Proof/Laws/Field.lean ====
section
/-! SUPPORT. What the field primitives can do (42_bitstream.md rules R93, R94), bit by bit. -/

namespace Sys2Proof.Machine

/-- R93: bit j of a field read is its stream bit. -/
theorem testBit_fieldRead (word : Nat → Word) (base off w j : Nat) :
    (fieldRead word base off w).testBit j = (decide (j < w) && streamBit word base (off + j)) :=
  testBit_natOfBits _ _ _

theorem fieldRead_lt (word : Nat → Word) (base off w : Nat) : fieldRead word base off w < 2 ^ w :=
  natOfBits_lt _ _

/-- A field read depends on its stream bits alone. -/
theorem fieldRead_congr {word word' : Nat → Word} {base base' off off' w : Nat}
    (h : ∀ j, j < w → streamBit word base (off + j) = streamBit word' base' (off' + j)) :
    fieldRead word base off w = fieldRead word' base' off' w :=
  natOfBits_congr h

/-- A field whose stream bits are the low bits of v reads as v, v below 2^w. -/
theorem fieldRead_eq {word : Nat → Word} {base off w v : Nat} (hv : v < 2 ^ w)
    (h : ∀ j, j < w → streamBit word base (off + j) = v.testBit j) : fieldRead word base off w = v := by
  unfold fieldRead
  rw [natOfBits_congr h, natOfBits_testBit hv]

/-- R94, for one word: bit b of the patched word. -/
theorem getLsbD_patchWord (k off w v : Nat) (old : Word) (b : Nat) :
    (patchWord k off w v old).getLsbD b =
      (decide (b < 32) && if off ≤ 32 * k + b ∧ 32 * k + b < off + w then v.testBit (32 * k + b - off)
        else old.getLsbD b) := by
  unfold patchWord
  rw [getLsbD_wordOf, testBit_natOfBits]
  by_cases h : b < 32 <;> simp [h]

/-- A word no bit of the field lies in is unchanged by the patch. -/
theorem patchWord_outside {k off w : Nat} (v : Nat) (old : Word)
    (h : 32 * k + 32 ≤ off ∨ off + w ≤ 32 * k) : patchWord k off w v old = old := by
  apply BitVec.eq_of_getLsbD_eq
  intro b hb
  rw [getLsbD_patchWord]
  have : ¬ (off ≤ 32 * k + b ∧ 32 * k + b < off + w) := by omega
  simp [hb, this]

/-- R94: word `base + k` of CONT after a field write is the word before, patched; for a word outside the field this is
the word before. -/
theorem word_fieldWrite (epoch : Nat) (m : Memory) (base off w v : Nat) (hw : 1 ≤ w) (hw32 : w ≤ 32) (k : Nat) :
    (fieldWrite epoch m base off w v).word epoch .cont (base + k) =
      patchWord k off w v (m.word epoch .cont (base + k)) := by
  have hdm := Nat.div_add_mod off 32
  have hlt := Nat.mod_lt off (show 0 < 32 by decide)
  unfold fieldWrite
  simp only
  split
  · next hs =>
    rw [Memory.word_write]
    by_cases hk : off / 32 = k
    · subst hk; simp
    · have : base + off / 32 ≠ base + k := by omega
      rw [if_neg this, patchWord_outside]
      omega
  · next hs =>
    rw [Memory.word_write, Memory.word_write]
    by_cases hk : off / 32 = k
    · subst hk
      rw [if_neg (by omega), if_pos rfl]
    · by_cases hk1 : off / 32 + 1 = k
      · subst hk1
        rw [if_pos (by omega)]
        rfl
      · rw [if_neg (by omega), if_neg (by omega), patchWord_outside]
        omega

/-- R94: no word below the stream's base changes. -/
theorem word_fieldWrite_below (epoch : Nat) (m : Memory) (base off w v : Nat) {i : Nat} (hi : i < base) :
    (fieldWrite epoch m base off w v).word epoch .cont i = m.word epoch .cont i := by
  unfold fieldWrite
  simp only
  split
  · rw [Memory.word_write_other _ _ _ _ (by omega)]
  · rw [Memory.word_write_other _ _ _ _ (by omega), Memory.word_write_other _ _ _ _ (by omega)]

/-- R94: a word the field has no bit in does not change. -/
theorem word_fieldWrite_outside (epoch : Nat) (m : Memory) (base off w v : Nat) (hw : 1 ≤ w) (hw32 : w ≤ 32) {i : Nat}
    (hi : i < base + off / 32 ∨ base + (off + w - 1) / 32 < i) :
    (fieldWrite epoch m base off w v).word epoch .cont i = m.word epoch .cont i := by
  by_cases hb : i < base
  · exact word_fieldWrite_below epoch m base off w v hb
  · obtain ⟨k, rfl⟩ : ∃ k, i = base + k := ⟨i - base, by omega⟩
    rw [word_fieldWrite epoch m base off w v hw hw32, patchWord_outside]
    omega

/-- R94: the stream bits after a field write: the low bits of v inside the field, unchanged outside it. -/
theorem streamBit_fieldWrite (epoch : Nat) (m : Memory) (base off w v : Nat) (hw : 1 ≤ w) (hw32 : w ≤ 32) (b : Nat) :
    streamBit ((fieldWrite epoch m base off w v).word epoch .cont) base b =
      if off ≤ b ∧ b < off + w then v.testBit (b - off) else streamBit (m.word epoch .cont) base b := by
  unfold streamBit
  rw [word_fieldWrite epoch m base off w v hw hw32, getLsbD_patchWord]
  have h1 : 32 * (b / 32) + b % 32 = b := Nat.div_add_mod b 32
  have h2 := Nat.mod_lt b (show 0 < 32 by decide)
  rw [h1]
  simp [h2]

theorem fieldWrite_wf (epoch : Nat) {m : Memory} (h : m.wf) (base off w v : Nat) :
    (fieldWrite epoch m base off w v).wf := by
  unfold fieldWrite
  simp only
  split
  · exact Memory.write_wf h _ _
  · exact Memory.write_wf (Memory.write_wf h _ _) _ _

/-- A field write whose last word lies inside the capacity keeps the memory inside it. -/
theorem fieldWrite_inBounds (epoch : Nat) {m : Memory} {n : Nat} (h : m.inBounds n) (base off w v : Nat)
    (hw : 1 ≤ w) (hfit : base + (off + w - 1) / 32 < n) : (fieldWrite epoch m base off w v).inBounds n := by
  unfold fieldWrite
  simp only
  split
  · exact Memory.write_inBounds h (by omega) _
  · exact Memory.write_inBounds (Memory.write_inBounds h (by omega) _) (by omega) _

end Sys2Proof.Machine
end

