-- ==== Sys2Proof/Laws/Container.lean ====
section
/-! SUPPORT. What writing a container does to CONT, word by word and bit by bit (30_encoding.md rules R79 to R82), and
what the validator's answer says (46_container.md rule R148). -/

namespace Sys2Proof.Machine

/-! ### Field placement -/

/-- R80: each field ends where the next begins or before. -/
theorem fieldOffset_succ (v : Variant) {w : Nat} (hw : 1 ≤ w) (hw32 : w ≤ 32) (i : Nat) :
    fieldOffset v w i + w ≤ fieldOffset v w (i + 1) := by
  have hmul : i * w + w = (i + 1) * w := by ring
  cases v with
  | ovl => exact Nat.le_of_eq hmul
  | ovf => exact Nat.le_of_eq hmul
  | nov =>
    show 32 * (i / (32 / w)) + i % (32 / w) * w + w ≤ 32 * ((i + 1) / (32 / w)) + (i + 1) % (32 / w) * w
    have hv : 0 < 32 / w := Nat.div_pos hw32 hw
    have hfull : 32 / w * w ≤ 32 := Nat.div_mul_le_self 32 w
    generalize 32 / w = vpw at hv hfull
    have h1 := Nat.div_add_mod i vpw
    have h2 := Nat.mod_lt i hv
    by_cases hlast : i % vpw + 1 = vpw
    · have hd : (i + 1) / vpw = i / vpw + 1 := by
        rw [show i + 1 = vpw * (i / vpw + 1) by rw [Nat.mul_add]; omega, Nat.mul_div_cancel_left _ hv]
      have hm : (i + 1) % vpw = 0 := by
        rw [show i + 1 = vpw * (i / vpw + 1) by rw [Nat.mul_add]; omega, Nat.mul_mod_right]
      have : i % vpw * w + w = vpw * w := by
        calc i % vpw * w + w = (i % vpw + 1) * w := by ring
          _ = vpw * w := by rw [hlast]
      rw [hd, hm]
      omega
    · have hlt : i % vpw + 1 < vpw := by omega
      have he : i + 1 = vpw * (i / vpw) + (i % vpw + 1) := by omega
      have hd : (i + 1) / vpw = i / vpw := by
        rw [he, Nat.mul_add_div hv, Nat.div_eq_of_lt hlt, Nat.add_zero]
      have hm : (i + 1) % vpw = i % vpw + 1 := by
        rw [he, Nat.mul_add_mod, Nat.mod_eq_of_lt hlt]
      have : i % vpw * w + w = (i % vpw + 1) * w := by ring
      rw [hd, hm]
      omega

/-- R80: fields of different elements are disjoint, in the order of the elements. -/
theorem fieldOffset_lt (v : Variant) {w : Nat} (hw : 1 ≤ w) (hw32 : w ≤ 32) {i j : Nat} (h : i < j) :
    fieldOffset v w i + w ≤ fieldOffset v w j := by
  induction j with
  | zero => omega
  | succ j ih =>
    have hs := fieldOffset_succ v hw hw32 j
    by_cases hij : i = j
    · subst hij; exact hs
    · have := ih (by omega)
      omega

/-- R77, R80: every field of n lies inside the payload. -/
theorem fieldOffset_fits (v : Variant) {w n i : Nat} (hw : 1 ≤ w) (hw32 : w ≤ 32) (h : i < n) :
    fieldOffset v w i + w ≤ 32 * payloadLength v n w := by
  have hmul : i * w + w ≤ n * w := by
    calc i * w + w = (i + 1) * w := by ring
      _ ≤ n * w := Nat.mul_le_mul_right w h
  cases v with
  | ovl => exact Nat.le_trans hmul (le_mul_ceilDiv (by decide))
  | ovf => exact Nat.le_trans hmul (le_mul_ceilDiv (by decide))
  | nov =>
    show 32 * (i / (32 / w)) + i % (32 / w) * w + w ≤ 32 * ceilDiv n (32 / w)
    have hv : 0 < 32 / w := Nat.div_pos hw32 hw
    have hfull : 32 / w * w ≤ 32 := Nat.div_mul_le_self 32 w
    generalize 32 / w = vpw at hv hfull
    have hc : n ≤ vpw * ceilDiv n vpw := le_mul_ceilDiv hv
    have h2 := Nat.mod_lt i hv
    have hd : i / vpw < ceilDiv n vpw := by
      apply (Nat.div_lt_iff_lt_mul hv).mpr
      rw [Nat.mul_comm]
      omega
    have : i % vpw * w + w ≤ vpw * w := by
      calc i % vpw * w + w = (i % vpw + 1) * w := by ring
        _ ≤ vpw * w := Nat.mul_le_mul_right w h2
    omega

/-! ### Writing the fields -/

/-- A stream bit no field lies on is unchanged. -/
theorem streamBit_placeFields_outside (epoch : Nat) (h : Header) (hw : 1 ≤ h.w) (hw32 : h.w ≤ 32) (fs : List Nat)
    (i : Nat) (m : Memory) (b : Nat)
    (hb : ∀ j, j < fs.length → b < fieldOffset h.var h.w (i + j) ∨ fieldOffset h.var h.w (i + j) + h.w ≤ b) :
    streamBit ((placeFields epoch h i fs m).word epoch .cont) h.pbase b =
      streamBit (m.word epoch .cont) h.pbase b := by
  induction fs generalizing i m with
  | nil => rfl
  | cons f fs ih =>
    have h0 := hb 0 (by simp)
    rw [Nat.add_zero] at h0
    rw [placeFields, ih]
    · rw [streamBit_fieldWrite epoch m _ _ _ _ hw hw32, if_neg (by omega)]
    · intro j hj
      have := hb (j + 1) (by simp only [List.length_cons]; omega)
      rwa [show i + 1 + j = i + (j + 1) by omega]

/-- Bit p of field j is bit p of the value placed there. -/
theorem streamBit_placeFields_field (epoch : Nat) (h : Header) (hw : 1 ≤ h.w) (hw32 : h.w ≤ 32) (fs : List Nat)
    (i : Nat) (m : Memory) (j : Nat) (hj : j < fs.length) (p : Nat) (hp : p < h.w) :
    streamBit ((placeFields epoch h i fs m).word epoch .cont) h.pbase (fieldOffset h.var h.w (i + j) + p) =
      fs[j].testBit p := by
  induction fs generalizing i m j with
  | nil => simp at hj
  | cons f fs ih =>
    rw [placeFields]
    cases j with
    | zero =>
      rw [streamBit_placeFields_outside epoch h hw hw32, streamBit_fieldWrite epoch m _ _ _ _ hw hw32,
        if_pos (by rw [Nat.add_zero]; omega)]
      · rw [Nat.add_zero, Nat.add_sub_cancel_left]
        rfl
      · intro j _
        have := fieldOffset_lt h.var hw hw32 (show i + 0 < i + 1 + j by omega)
        omega
    | succ j =>
      have := ih (i + 1) (fieldWrite epoch m h.pbase (fieldOffset h.var h.w i) h.w f) j
        (by simp only [List.length_cons] at hj; omega)
      rw [show i + (j + 1) = i + 1 + j by omega]
      exact this

/-- No word below the payload changes. -/
theorem word_placeFields_below (epoch : Nat) (h : Header) (fs : List Nat) (i : Nat) (m : Memory) {a : Nat}
    (ha : a < h.pbase) : (placeFields epoch h i fs m).word epoch .cont a = m.word epoch .cont a := by
  induction fs generalizing i m with
  | nil => rfl
  | cons f fs ih => rw [placeFields, ih, word_fieldWrite_below epoch m _ _ _ _ ha]

/-- No word past the payload changes, when every field lies inside it. -/
theorem word_placeFields_above (epoch : Nat) (h : Header) (hw : 1 ≤ h.w) (hw32 : h.w ≤ 32) (fs : List Nat) (i : Nat)
    (m : Memory) {a : Nat} (ha : h.pbase + h.plen ≤ a)
    (hfit : ∀ j, j < fs.length → fieldOffset h.var h.w (i + j) + h.w ≤ 32 * h.plen) :
    (placeFields epoch h i fs m).word epoch .cont a = m.word epoch .cont a := by
  induction fs generalizing i m with
  | nil => rfl
  | cons f fs ih =>
    have h0 := hfit 0 (by simp)
    rw [Nat.add_zero] at h0
    rw [placeFields, ih, word_fieldWrite_outside epoch m _ _ _ _ hw hw32 (by omega)]
    intro j hj
    have := hfit (j + 1) (by simp only [List.length_cons]; omega)
    rwa [show i + 1 + j = i + (j + 1) by omega]

theorem placeFields_wf (epoch : Nat) (h : Header) (fs : List Nat) (i : Nat) {m : Memory} (hm : m.wf) :
    (placeFields epoch h i fs m).wf := by
  induction fs generalizing i m with
  | nil => exact hm
  | cons f fs ih => exact ih (i + 1) (fieldWrite_wf epoch hm _ _ _ _)

theorem placeFields_inBounds (epoch : Nat) (h : Header) (hw : 1 ≤ h.w) (fs : List Nat) (i : Nat) {m : Memory} {n : Nat}
    (hm : m.inBounds n) (hlen : h.pbase + h.plen ≤ n)
    (hfit : ∀ j, j < fs.length → fieldOffset h.var h.w (i + j) + h.w ≤ 32 * h.plen) :
    (placeFields epoch h i fs m).inBounds n := by
  induction fs generalizing i m with
  | nil => exact hm
  | cons f fs ih =>
    have h0 := hfit 0 (by simp)
    rw [Nat.add_zero] at h0
    rw [placeFields]
    apply ih
    · exact fieldWrite_inBounds epoch hm _ _ _ _ hw (by omega)
    · intro j hj
      have := hfit (j + 1) (by simp only [List.length_cons]; omega)
      rwa [show i + 1 + j = i + (j + 1) by omega]

/-! ### Writing a container -/

/-- What an encoder hands to `writeContainer`: a header whose base, lengths and table agree, widths in range. -/
structure Encoded (h : Header) (table fields : List Nat) : Prop where
  width_pos : 1 ≤ h.w
  width_le : h.w ≤ 32
  pbase_eq : h.pbase = headerWords h.var + table.length
  plen_eq : h.plen = payloadLength h.var h.n h.w
  len_eq : h.len = h.pbase + h.plen
  fields_len : fields.length = h.n

theorem headerList_length (cfg : Config) (h : Header) : (headerList cfg h).length = headerWords h.var := by
  unfold headerList headerWords
  cases h.var <;> rfl

theorem headerWords_ge (v : Variant) : 5 ≤ headerWords v := by cases v <;> decide

theorem Encoded.fits {h : Header} {table fields : List Nat} (he : Encoded h table fields) (j : Nat)
    (hj : j < fields.length) : fieldOffset h.var h.w (0 + j) + h.w ≤ 32 * h.plen := by
  rw [he.plen_eq, Nat.zero_add]
  exact fieldOffset_fits h.var he.width_pos he.width_le (by rw [← he.fields_len]; exact hj)

/-- R79: the header words of a written container. -/
theorem word_writeContainer_header (cfg : Config) (epoch : Nat) {h : Header} {table fields : List Nat}
    (he : Encoded h table fields) (m : Memory) {i : Nat} (hi : i < headerWords h.var) :
    (writeContainer cfg epoch h table fields m).word epoch .cont i =
      (headerList cfg h)[i]'(by rw [headerList_length]; exact hi) := by
  unfold writeContainer
  simp only
  rw [word_placeFields_below _ _ _ _ _ (by rw [he.pbase_eq]; omega),
    Memory.word_writeList_outside _ _ _ _ (.inl (by rw [he.pbase_eq]; omega)),
    Memory.word_writeList_outside _ _ _ _ (.inl hi)]
  have := Memory.word_writeList_inside (headerList cfg h) m epoch .cont 0
    (i := i) (by rw [headerList_length]; exact hi)
  rwa [Nat.zero_add] at this

/-- R76, R79: the table words of a written container. -/
theorem word_writeContainer_table (cfg : Config) (epoch : Nat) {h : Header} {table fields : List Nat}
    (he : Encoded h table fields) (m : Memory) {j : Nat} (hj : j < table.length) :
    (writeContainer cfg epoch h table fields m).word epoch .cont (headerWords h.var + j) = wordOf table[j] := by
  unfold writeContainer
  simp only
  rw [word_placeFields_below _ _ _ _ _ (by rw [he.pbase_eq]; omega),
    Memory.word_writeList_outside _ _ _ _ (.inl (by rw [he.pbase_eq]; omega)),
    Memory.word_writeList_inside _ _ _ _ _ (by simpa using hj)]
  simp

/-- R79, R80: the fields of a written container. -/
theorem fieldRead_writeContainer (cfg : Config) (epoch : Nat) {h : Header} {table fields : List Nat}
    (he : Encoded h table fields) (m : Memory) {i : Nat} (hi : i < fields.length) (hf : fields[i] < 2 ^ h.w) :
    fieldRead ((writeContainer cfg epoch h table fields m).word epoch .cont) h.pbase (fieldOffset h.var h.w i) h.w =
      fields[i] := by
  apply fieldRead_eq hf
  intro p hp
  have := streamBit_placeFields_field epoch h he.width_pos he.width_le fields 0
    (((m.writeList 0 (headerList cfg h)).writeList (headerWords h.var) (table.map wordOf)).writeList h.pbase
      (List.replicate h.plen 0#32)) i hi p hp
  rwa [Nat.zero_add] at this

/-- R79, R82: a payload bit no field covers is zero. -/
theorem streamBit_writeContainer_padding (cfg : Config) (epoch : Nat) {h : Header} {table fields : List Nat}
    (he : Encoded h table fields) (m : Memory) {b : Nat} (hb : b < 32 * h.plen)
    (hout : ∀ i, i < fields.length → b < fieldOffset h.var h.w i ∨ fieldOffset h.var h.w i + h.w ≤ b) :
    streamBit ((writeContainer cfg epoch h table fields m).word epoch .cont) h.pbase b = false := by
  unfold writeContainer
  simp only
  rw [streamBit_placeFields_outside epoch h he.width_pos he.width_le]
  · unfold streamBit
    rw [Memory.word_writeList_inside _ _ _ _ _ (by simp only [List.length_replicate]; omega)]
    simp
  · intro j hj
    rw [Nat.zero_add]
    exact hout j hj

/-- R79: no word past the container changes. -/
theorem word_writeContainer_above (cfg : Config) (epoch : Nat) {h : Header} {table fields : List Nat}
    (he : Encoded h table fields) (m : Memory) {a : Nat} (ha : h.len ≤ a) :
    (writeContainer cfg epoch h table fields m).word epoch .cont a = m.word epoch .cont a := by
  have hl := he.len_eq
  have hp := he.pbase_eq
  unfold writeContainer
  simp only
  rw [word_placeFields_above epoch h he.width_pos he.width_le _ _ _ (by omega) he.fits,
    Memory.word_writeList_outside _ _ _ _ (.inr (by simp only [List.length_replicate]; omega)),
    Memory.word_writeList_outside _ _ _ _ (.inr (by simp only [List.length_map]; omega)),
    Memory.word_writeList_outside _ _ _ _ (.inr (by rw [headerList_length]; omega))]

theorem writeContainer_wf (cfg : Config) (epoch : Nat) (h : Header) (table fields : List Nat) {m : Memory} (hm : m.wf) :
    (writeContainer cfg epoch h table fields m).wf :=
  placeFields_wf _ _ _ _ (Memory.writeList_wf _ (Memory.writeList_wf _ (Memory.writeList_wf _ hm _) _) _)

theorem writeContainer_inBounds (cfg : Config) (epoch : Nat) {h : Header} {table fields : List Nat}
    (he : Encoded h table fields) {m : Memory} {n : Nat} (hm : m.inBounds n) (hfit : h.len ≤ n) :
    (writeContainer cfg epoch h table fields m).inBounds n := by
  have hl := he.len_eq
  have hp := he.pbase_eq
  apply placeFields_inBounds _ _ he.width_pos _ _ _ (by omega) he.fits
  apply Memory.writeList_inBounds _ _ _ (by simp only [List.length_replicate]; omega)
  apply Memory.writeList_inBounds _ _ _ (by simp only [List.length_map]; omega)
  exact Memory.writeList_inBounds _ hm _ (by rw [headerList_length]; omega)

/-! ### Validation -/

/-- R144, R145: what a passed identity check says. -/
theorem checkIdentity_ok {s : State} {sel : Selector} {v : Variant} (h : checkIdentity s sel = .ok v) :
    3 ≤ s.operandLen ∧ s.operandLen ≤ s.cfg.contWords ∧ s.contWord 0 = s.cfg.magic ∧
      s.contWord 1 = s.cfg.version ∧ tagVariant s.cfg (s.contWord 2) = some v ∧ sel.accepts v = true := by
  unfold checkIdentity at h
  simp only at h
  split_ifs at h with h1 h2 h3 h4 h5 h6
  cases ht : tagVariant s.cfg (s.contWord 2) with
  | none => simp [ht] at h
  | some u =>
    simp only [ht] at h
    split_ifs at h with ha
    cases h
    exact ⟨by omega, by omega, not_not.mp h3, not_not.mp h5, rfl, ha⟩

/-- R148: what a passed validation says. -/
theorem validate_ok {s : State} {sel : Selector} {h : Header} (hv : validate s sel = .ok h) :
    ∃ v, checkIdentity s sel = .ok v ∧ headerWords v ≤ s.operandLen ∧ h = readHeader s v ∧
      parametersOk h = true ∧ s.operandLen = h.len := by
  unfold validate at hv
  cases hc : checkIdentity s sel with
  | error e => simp [hc] at hv
  | ok v =>
    simp only [hc] at hv
    split_ifs at hv with h1 h2 h3
    cases hv
    exact ⟨v, rfl, by omega, rfl, by simpa using h2, not_not.mp h3⟩

/-- R151: a tag word names the variant whose tag it is. -/
theorem tagVariant_some {cfg : Config} {t : Word} {v : Variant} (h : tagVariant cfg t = some v) : t = cfg.tag v := by
  unfold tagVariant at h
  split_ifs at h with h1 h2 h3
  · cases h; exact h1
  · cases h; exact h2
  · cases h; exact h3

/-- R151: with the three tags distinct, each names its own variant. -/
theorem tagVariant_tag {cfg : Config} (hc : cfg.Valid) (v : Variant) : tagVariant cfg (cfg.tag v) = some v := by
  obtain ⟨-, -, -, -, h1, h2, h3⟩ := hc
  cases v with
  | ovl => simp [tagVariant, Config.tag]
  | nov => simp [tagVariant, Config.tag, Ne.symm h1]
  | ovf => simp [tagVariant, Config.tag, Ne.symm h2, Ne.symm h3]

end Sys2Proof.Machine
end

