-- ==== Sys2Proof/Laws/State.lean ====
section
/-! SUPPORT. What each update of the state does to each field, so that no proof unfolds an update. -/

namespace Sys2Proof.Machine

/-! ### started -/

@[simp] theorem State.started_cfg (s : State) : s.started.cfg = s.cfg := rfl
@[simp] theorem State.started_status (s : State) : s.started.status = statusStarted s.status := rfl
@[simp] theorem State.started_errcode (s : State) : s.started.errcode = s.errcode := rfl
@[simp] theorem State.started_argN (s : State) : s.started.argN = s.argN := rfl
@[simp] theorem State.started_argI (s : State) : s.started.argI = s.argI := rfl
@[simp] theorem State.started_argW (s : State) : s.started.argW = s.argW := rfl
@[simp] theorem State.started_argV (s : State) : s.started.argV = s.argV := rfl
@[simp] theorem State.started_result (s : State) : s.started.result = s.result := rfl
@[simp] theorem State.started_clen (s : State) : s.started.clen = s.clen := rfl
@[simp] theorem State.started_pTag (s : State) : s.started.pTag = s.pTag := rfl
@[simp] theorem State.started_pN (s : State) : s.started.pN = s.pN := rfl
@[simp] theorem State.started_pWidth (s : State) : s.started.pWidth = s.pWidth := rfl
@[simp] theorem State.started_pTbits (s : State) : s.started.pTbits = s.pTbits := rfl
@[simp] theorem State.started_pIbits (s : State) : s.started.pIbits = s.pIbits := rfl
@[simp] theorem State.started_pOvflen (s : State) : s.started.pOvflen = s.pOvflen := rfl
@[simp] theorem State.started_pPlen (s : State) : s.started.pPlen = s.pPlen := rfl
@[simp] theorem State.started_seq (s : State) : s.started.seq = s.seq := rfl
@[simp] theorem State.started_cont (s : State) : s.started.cont = s.cont := rfl
@[simp] theorem State.started_epoch (s : State) : s.started.epoch = s.epoch := rfl
@[simp] theorem State.started_pending (s : State) : s.started.pending = s.pending := rfl
@[simp] theorem State.started_reads (s : State) : s.started.reads = s.reads := rfl

/-! ### completeNoResult -/

@[simp] theorem State.completeNoResult_cfg (s : State) : s.completeNoResult.cfg = s.cfg := rfl
@[simp] theorem State.completeNoResult_status (s : State) : s.completeNoResult.status = statusCompleted s.status := rfl
@[simp] theorem State.completeNoResult_errcode (s : State) : s.completeNoResult.errcode = eNone := rfl
@[simp] theorem State.completeNoResult_argN (s : State) : s.completeNoResult.argN = s.argN := rfl
@[simp] theorem State.completeNoResult_argI (s : State) : s.completeNoResult.argI = s.argI := rfl
@[simp] theorem State.completeNoResult_argW (s : State) : s.completeNoResult.argW = s.argW := rfl
@[simp] theorem State.completeNoResult_argV (s : State) : s.completeNoResult.argV = s.argV := rfl
@[simp] theorem State.completeNoResult_result (s : State) : s.completeNoResult.result = s.result := rfl
@[simp] theorem State.completeNoResult_clen (s : State) : s.completeNoResult.clen = s.clen := rfl
@[simp] theorem State.completeNoResult_pTag (s : State) : s.completeNoResult.pTag = s.pTag := rfl
@[simp] theorem State.completeNoResult_pN (s : State) : s.completeNoResult.pN = s.pN := rfl
@[simp] theorem State.completeNoResult_pWidth (s : State) : s.completeNoResult.pWidth = s.pWidth := rfl
@[simp] theorem State.completeNoResult_pTbits (s : State) : s.completeNoResult.pTbits = s.pTbits := rfl
@[simp] theorem State.completeNoResult_pIbits (s : State) : s.completeNoResult.pIbits = s.pIbits := rfl
@[simp] theorem State.completeNoResult_pOvflen (s : State) : s.completeNoResult.pOvflen = s.pOvflen := rfl
@[simp] theorem State.completeNoResult_pPlen (s : State) : s.completeNoResult.pPlen = s.pPlen := rfl
@[simp] theorem State.completeNoResult_seq (s : State) : s.completeNoResult.seq = s.seq := rfl
@[simp] theorem State.completeNoResult_cont (s : State) : s.completeNoResult.cont = s.cont := rfl
@[simp] theorem State.completeNoResult_epoch (s : State) : s.completeNoResult.epoch = s.epoch := rfl
@[simp] theorem State.completeNoResult_pending (s : State) : s.completeNoResult.pending = s.pending := rfl
@[simp] theorem State.completeNoResult_reads (s : State) : s.completeNoResult.reads = s.reads := rfl

/-! ### complete -/

@[simp] theorem State.complete_cfg (s : State) (r : Nat) : (s.complete r).cfg = s.cfg := rfl
@[simp] theorem State.complete_status (s : State) (r : Nat) : (s.complete r).status = statusCompleted s.status := rfl
@[simp] theorem State.complete_errcode (s : State) (r : Nat) : (s.complete r).errcode = eNone := rfl
@[simp] theorem State.complete_argN (s : State) (r : Nat) : (s.complete r).argN = s.argN := rfl
@[simp] theorem State.complete_argI (s : State) (r : Nat) : (s.complete r).argI = s.argI := rfl
@[simp] theorem State.complete_argW (s : State) (r : Nat) : (s.complete r).argW = s.argW := rfl
@[simp] theorem State.complete_argV (s : State) (r : Nat) : (s.complete r).argV = s.argV := rfl
@[simp] theorem State.complete_result (s : State) (r : Nat) : (s.complete r).result = wordOf r := rfl
@[simp] theorem State.complete_clen (s : State) (r : Nat) : (s.complete r).clen = s.clen := rfl
@[simp] theorem State.complete_pTag (s : State) (r : Nat) : (s.complete r).pTag = s.pTag := rfl
@[simp] theorem State.complete_pN (s : State) (r : Nat) : (s.complete r).pN = s.pN := rfl
@[simp] theorem State.complete_pWidth (s : State) (r : Nat) : (s.complete r).pWidth = s.pWidth := rfl
@[simp] theorem State.complete_pTbits (s : State) (r : Nat) : (s.complete r).pTbits = s.pTbits := rfl
@[simp] theorem State.complete_pIbits (s : State) (r : Nat) : (s.complete r).pIbits = s.pIbits := rfl
@[simp] theorem State.complete_pOvflen (s : State) (r : Nat) : (s.complete r).pOvflen = s.pOvflen := rfl
@[simp] theorem State.complete_pPlen (s : State) (r : Nat) : (s.complete r).pPlen = s.pPlen := rfl
@[simp] theorem State.complete_seq (s : State) (r : Nat) : (s.complete r).seq = s.seq := rfl
@[simp] theorem State.complete_cont (s : State) (r : Nat) : (s.complete r).cont = s.cont := rfl
@[simp] theorem State.complete_epoch (s : State) (r : Nat) : (s.complete r).epoch = s.epoch := rfl
@[simp] theorem State.complete_pending (s : State) (r : Nat) : (s.complete r).pending = s.pending := rfl
@[simp] theorem State.complete_reads (s : State) (r : Nat) : (s.complete r).reads = s.reads := rfl

/-! ### raise -/

@[simp] theorem State.raise_cfg (s : State) (e : ErrCode) : (s.raise e).cfg = s.cfg := rfl
@[simp] theorem State.raise_status (s : State) (e : ErrCode) : (s.raise e).status = statusRaised s.status := rfl
@[simp] theorem State.raise_errcode (s : State) (e : ErrCode) : (s.raise e).errcode = e.code := rfl
@[simp] theorem State.raise_argN (s : State) (e : ErrCode) : (s.raise e).argN = s.argN := rfl
@[simp] theorem State.raise_argI (s : State) (e : ErrCode) : (s.raise e).argI = s.argI := rfl
@[simp] theorem State.raise_argW (s : State) (e : ErrCode) : (s.raise e).argW = s.argW := rfl
@[simp] theorem State.raise_argV (s : State) (e : ErrCode) : (s.raise e).argV = s.argV := rfl
@[simp] theorem State.raise_result (s : State) (e : ErrCode) : (s.raise e).result = s.result := rfl
@[simp] theorem State.raise_clen (s : State) (e : ErrCode) : (s.raise e).clen = s.clen := rfl
@[simp] theorem State.raise_pTag (s : State) (e : ErrCode) : (s.raise e).pTag = s.pTag := rfl
@[simp] theorem State.raise_pN (s : State) (e : ErrCode) : (s.raise e).pN = s.pN := rfl
@[simp] theorem State.raise_pWidth (s : State) (e : ErrCode) : (s.raise e).pWidth = s.pWidth := rfl
@[simp] theorem State.raise_pTbits (s : State) (e : ErrCode) : (s.raise e).pTbits = s.pTbits := rfl
@[simp] theorem State.raise_pIbits (s : State) (e : ErrCode) : (s.raise e).pIbits = s.pIbits := rfl
@[simp] theorem State.raise_pOvflen (s : State) (e : ErrCode) : (s.raise e).pOvflen = s.pOvflen := rfl
@[simp] theorem State.raise_pPlen (s : State) (e : ErrCode) : (s.raise e).pPlen = s.pPlen := rfl
@[simp] theorem State.raise_seq (s : State) (e : ErrCode) : (s.raise e).seq = s.seq := rfl
@[simp] theorem State.raise_cont (s : State) (e : ErrCode) : (s.raise e).cont = s.cont := rfl
@[simp] theorem State.raise_epoch (s : State) (e : ErrCode) : (s.raise e).epoch = s.epoch := rfl
@[simp] theorem State.raise_pending (s : State) (e : ErrCode) : (s.raise e).pending = s.pending := rfl
@[simp] theorem State.raise_reads (s : State) (e : ErrCode) : (s.raise e).reads = s.reads := rfl

/-! ### loadParams -/

@[simp] theorem State.loadParams_cfg (s : State) (h : Header) : (s.loadParams h).cfg = s.cfg := rfl
@[simp] theorem State.loadParams_status (s : State) (h : Header) : (s.loadParams h).status = s.status := rfl
@[simp] theorem State.loadParams_errcode (s : State) (h : Header) : (s.loadParams h).errcode = s.errcode := rfl
@[simp] theorem State.loadParams_argN (s : State) (h : Header) : (s.loadParams h).argN = s.argN := rfl
@[simp] theorem State.loadParams_argI (s : State) (h : Header) : (s.loadParams h).argI = s.argI := rfl
@[simp] theorem State.loadParams_argW (s : State) (h : Header) : (s.loadParams h).argW = s.argW := rfl
@[simp] theorem State.loadParams_argV (s : State) (h : Header) : (s.loadParams h).argV = s.argV := rfl
@[simp] theorem State.loadParams_result (s : State) (h : Header) : (s.loadParams h).result = s.result := rfl
@[simp] theorem State.loadParams_clen (s : State) (h : Header) : (s.loadParams h).clen = s.clen := rfl
@[simp] theorem State.loadParams_pTag (s : State) (h : Header) : (s.loadParams h).pTag = h.tag := rfl
@[simp] theorem State.loadParams_pN (s : State) (h : Header) : (s.loadParams h).pN = wordOf h.n := rfl
@[simp] theorem State.loadParams_pWidth (s : State) (h : Header) : (s.loadParams h).pWidth = wordOf h.w := rfl
@[simp] theorem State.loadParams_pTbits (s : State) (h : Header) : (s.loadParams h).pTbits = wordOf h.tb := rfl
@[simp] theorem State.loadParams_pIbits (s : State) (h : Header) : (s.loadParams h).pIbits = wordOf h.ib := rfl
@[simp] theorem State.loadParams_pOvflen (s : State) (h : Header) : (s.loadParams h).pOvflen = wordOf h.k := rfl
@[simp] theorem State.loadParams_pPlen (s : State) (h : Header) : (s.loadParams h).pPlen = wordOf h.plen := rfl
@[simp] theorem State.loadParams_seq (s : State) (h : Header) : (s.loadParams h).seq = s.seq := rfl
@[simp] theorem State.loadParams_cont (s : State) (h : Header) : (s.loadParams h).cont = s.cont := rfl
@[simp] theorem State.loadParams_epoch (s : State) (h : Header) : (s.loadParams h).epoch = s.epoch := rfl
@[simp] theorem State.loadParams_pending (s : State) (h : Header) : (s.loadParams h).pending = s.pending := rfl
@[simp] theorem State.loadParams_reads (s : State) (h : Header) : (s.loadParams h).reads = s.reads := rfl

/-! ### storeSequence -/

@[simp] theorem State.storeSequence_cfg (s : State) (vs : List Nat) : (s.storeSequence vs).cfg = s.cfg := rfl
@[simp] theorem State.storeSequence_status (s : State) (vs : List Nat) : (s.storeSequence vs).status = s.status := rfl
@[simp] theorem State.storeSequence_errcode (s : State) (vs : List Nat) : (s.storeSequence vs).errcode = s.errcode := rfl
@[simp] theorem State.storeSequence_argN (s : State) (vs : List Nat) : (s.storeSequence vs).argN = s.argN := rfl
@[simp] theorem State.storeSequence_argI (s : State) (vs : List Nat) : (s.storeSequence vs).argI = s.argI := rfl
@[simp] theorem State.storeSequence_argW (s : State) (vs : List Nat) : (s.storeSequence vs).argW = s.argW := rfl
@[simp] theorem State.storeSequence_argV (s : State) (vs : List Nat) : (s.storeSequence vs).argV = s.argV := rfl
@[simp] theorem State.storeSequence_result (s : State) (vs : List Nat) : (s.storeSequence vs).result = s.result := rfl
@[simp] theorem State.storeSequence_clen (s : State) (vs : List Nat) : (s.storeSequence vs).clen = s.clen := rfl
@[simp] theorem State.storeSequence_pTag (s : State) (vs : List Nat) : (s.storeSequence vs).pTag = s.pTag := rfl
@[simp] theorem State.storeSequence_pN (s : State) (vs : List Nat) : (s.storeSequence vs).pN = s.pN := rfl
@[simp] theorem State.storeSequence_pWidth (s : State) (vs : List Nat) : (s.storeSequence vs).pWidth = s.pWidth := rfl
@[simp] theorem State.storeSequence_pTbits (s : State) (vs : List Nat) : (s.storeSequence vs).pTbits = s.pTbits := rfl
@[simp] theorem State.storeSequence_pIbits (s : State) (vs : List Nat) : (s.storeSequence vs).pIbits = s.pIbits := rfl
@[simp] theorem State.storeSequence_pOvflen (s : State) (vs : List Nat) : (s.storeSequence vs).pOvflen = s.pOvflen := rfl
@[simp] theorem State.storeSequence_pPlen (s : State) (vs : List Nat) : (s.storeSequence vs).pPlen = s.pPlen := rfl
@[simp] theorem State.storeSequence_seq (s : State) (vs : List Nat) : (s.storeSequence vs).seq = s.seq.writeList 0 (vs.map wordOf) := rfl
@[simp] theorem State.storeSequence_cont (s : State) (vs : List Nat) : (s.storeSequence vs).cont = s.cont := rfl
@[simp] theorem State.storeSequence_epoch (s : State) (vs : List Nat) : (s.storeSequence vs).epoch = s.epoch := rfl
@[simp] theorem State.storeSequence_pending (s : State) (vs : List Nat) : (s.storeSequence vs).pending = s.pending := rfl
@[simp] theorem State.storeSequence_reads (s : State) (vs : List Nat) : (s.storeSequence vs).reads = s.reads := rfl

/-! ### returnWord -/

@[simp] theorem State.returnWord_cfg (s : State) (v : Word) : (s.returnWord v).cfg = s.cfg := rfl
@[simp] theorem State.returnWord_status (s : State) (v : Word) : (s.returnWord v).status = s.status := rfl
@[simp] theorem State.returnWord_errcode (s : State) (v : Word) : (s.returnWord v).errcode = s.errcode := rfl
@[simp] theorem State.returnWord_argN (s : State) (v : Word) : (s.returnWord v).argN = s.argN := rfl
@[simp] theorem State.returnWord_argI (s : State) (v : Word) : (s.returnWord v).argI = s.argI := rfl
@[simp] theorem State.returnWord_argW (s : State) (v : Word) : (s.returnWord v).argW = s.argW := rfl
@[simp] theorem State.returnWord_argV (s : State) (v : Word) : (s.returnWord v).argV = s.argV := rfl
@[simp] theorem State.returnWord_result (s : State) (v : Word) : (s.returnWord v).result = s.result := rfl
@[simp] theorem State.returnWord_clen (s : State) (v : Word) : (s.returnWord v).clen = s.clen := rfl
@[simp] theorem State.returnWord_pTag (s : State) (v : Word) : (s.returnWord v).pTag = s.pTag := rfl
@[simp] theorem State.returnWord_pN (s : State) (v : Word) : (s.returnWord v).pN = s.pN := rfl
@[simp] theorem State.returnWord_pWidth (s : State) (v : Word) : (s.returnWord v).pWidth = s.pWidth := rfl
@[simp] theorem State.returnWord_pTbits (s : State) (v : Word) : (s.returnWord v).pTbits = s.pTbits := rfl
@[simp] theorem State.returnWord_pIbits (s : State) (v : Word) : (s.returnWord v).pIbits = s.pIbits := rfl
@[simp] theorem State.returnWord_pOvflen (s : State) (v : Word) : (s.returnWord v).pOvflen = s.pOvflen := rfl
@[simp] theorem State.returnWord_pPlen (s : State) (v : Word) : (s.returnWord v).pPlen = s.pPlen := rfl
@[simp] theorem State.returnWord_seq (s : State) (v : Word) : (s.returnWord v).seq = s.seq := rfl
@[simp] theorem State.returnWord_cont (s : State) (v : Word) : (s.returnWord v).cont = s.cont := rfl
@[simp] theorem State.returnWord_epoch (s : State) (v : Word) : (s.returnWord v).epoch = s.epoch := rfl
@[simp] theorem State.returnWord_pending (s : State) (v : Word) : (s.returnWord v).pending = s.pending := rfl
@[simp] theorem State.returnWord_reads (s : State) (v : Word) : (s.returnWord v).reads = v :: s.reads := rfl

/-! ### resetBlock -/

@[simp] theorem State.resetBlock_cfg (s : State) : s.resetBlock.cfg = s.cfg := rfl
@[simp] theorem State.resetBlock_status (s : State) : s.resetBlock.status = 0#32 := rfl
@[simp] theorem State.resetBlock_errcode (s : State) : s.resetBlock.errcode = 0#32 := rfl
@[simp] theorem State.resetBlock_argN (s : State) : s.resetBlock.argN = 0#32 := rfl
@[simp] theorem State.resetBlock_argI (s : State) : s.resetBlock.argI = 0#32 := rfl
@[simp] theorem State.resetBlock_argW (s : State) : s.resetBlock.argW = 0#32 := rfl
@[simp] theorem State.resetBlock_argV (s : State) : s.resetBlock.argV = 0#32 := rfl
@[simp] theorem State.resetBlock_result (s : State) : s.resetBlock.result = 0#32 := rfl
@[simp] theorem State.resetBlock_clen (s : State) : s.resetBlock.clen = 0#32 := rfl
@[simp] theorem State.resetBlock_pTag (s : State) : s.resetBlock.pTag = 0#32 := rfl
@[simp] theorem State.resetBlock_pN (s : State) : s.resetBlock.pN = 0#32 := rfl
@[simp] theorem State.resetBlock_pWidth (s : State) : s.resetBlock.pWidth = 0#32 := rfl
@[simp] theorem State.resetBlock_pTbits (s : State) : s.resetBlock.pTbits = 0#32 := rfl
@[simp] theorem State.resetBlock_pIbits (s : State) : s.resetBlock.pIbits = 0#32 := rfl
@[simp] theorem State.resetBlock_pOvflen (s : State) : s.resetBlock.pOvflen = 0#32 := rfl
@[simp] theorem State.resetBlock_pPlen (s : State) : s.resetBlock.pPlen = 0#32 := rfl
@[simp] theorem State.resetBlock_seq (s : State) : s.resetBlock.seq = [] := rfl
@[simp] theorem State.resetBlock_cont (s : State) : s.resetBlock.cont = [] := rfl
@[simp] theorem State.resetBlock_epoch (s : State) : s.resetBlock.epoch = s.epoch + 1 := rfl
@[simp] theorem State.resetBlock_pending (s : State) : s.resetBlock.pending = s.pending := rfl
@[simp] theorem State.resetBlock_reads (s : State) : s.resetBlock.reads = s.reads := rfl

/-! ### The words of the memories and the operands under the updates -/

@[simp] theorem State.started_seqWord (s : State) (i : Nat) : s.started.seqWord i = s.seqWord i := rfl
@[simp] theorem State.started_contWord (s : State) : s.started.contWord = s.contWord := rfl
@[simp] theorem State.completeNoResult_seqWord (s : State) (i : Nat) : s.completeNoResult.seqWord i = s.seqWord i := rfl
@[simp] theorem State.completeNoResult_contWord (s : State) : s.completeNoResult.contWord = s.contWord := rfl
@[simp] theorem State.complete_seqWord (s : State) (r : Nat) (i : Nat) : (s.complete r).seqWord i = s.seqWord i := rfl
@[simp] theorem State.complete_contWord (s : State) (r : Nat) : (s.complete r).contWord = s.contWord := rfl
@[simp] theorem State.raise_seqWord (s : State) (e : ErrCode) (i : Nat) : (s.raise e).seqWord i = s.seqWord i := rfl
@[simp] theorem State.raise_contWord (s : State) (e : ErrCode) : (s.raise e).contWord = s.contWord := rfl
@[simp] theorem State.loadParams_seqWord (s : State) (h : Header) (i : Nat) : (s.loadParams h).seqWord i = s.seqWord i := rfl
@[simp] theorem State.loadParams_contWord (s : State) (h : Header) : (s.loadParams h).contWord = s.contWord := rfl
@[simp] theorem State.storeSequence_contWord (s : State) (vs : List Nat) : (s.storeSequence vs).contWord = s.contWord := rfl
@[simp] theorem State.returnWord_seqWord (s : State) (v : Word) (i : Nat) : (s.returnWord v).seqWord i = s.seqWord i := rfl
@[simp] theorem State.returnWord_contWord (s : State) (v : Word) : (s.returnWord v).contWord = s.contWord := rfl

end Sys2Proof.Machine
end

