-- ==== Sys2Proof/Laws/Codec.lean ====
section
/-! SUPPORT. The laws of the estimator and of the three codecs: the maximum and the width of a sequence, the overflow
table and fields, that each encoder hands `writeContainer` a consistent header, and what the shared operations of
ENCODE, DECODE and GET answer. -/

namespace Sys2Proof.Machine

/-! ### The maximum and the width -/

theorem le_maxOf {values : List Nat} {v : Nat} (h : v ∈ values) : v ≤ maxOf values := by
  induction values with
  | nil => simp at h
  | cons a vs ih =>
    rcases List.mem_cons.mp h with rfl | h
    · exact Nat.le_max_left _ _
    · exact Nat.le_trans (ih h) (Nat.le_max_right _ _)

theorem maxOf_lt {values : List Nat} {b : Nat} (hb : 0 < b) (h : ∀ v ∈ values, v < b) : maxOf values < b := by
  induction values with
  | nil => exact hb
  | cons a vs ih =>
    exact Nat.max_lt.mpr ⟨h a (by simp), ih fun v hv => h v (List.mem_cons_of_mem _ hv)⟩

/-- The maximum of a sequence that is not all zero is one of its elements. -/
theorem maxOf_mem {values : List Nat} (h : maxOf values ≠ 0) : maxOf values ∈ values := by
  induction values with
  | nil => exact absurd rfl h
  | cons a vs ih =>
    simp only [maxOf] at h ⊢
    by_cases hle : maxOf vs ≤ a
    · rw [Nat.max_eq_left hle]; simp
    · rw [Nat.max_eq_right (by omega)]
      exact List.mem_cons_of_mem _ (ih (by omega))

theorem widthOf_pos (values : List Nat) : 1 ≤ widthOf values := Nat.le_max_left _ _

theorem widthOf_le {values : List Nat} (h : ∀ v ∈ values, v < 2 ^ 32) : widthOf values ≤ 32 :=
  Nat.max_le.mpr ⟨by decide, bitLen_le (maxOf_lt (by decide) h)⟩

theorem lt_two_pow_widthOf {values : List Nat} {v : Nat} (h : v ∈ values) : v < 2 ^ widthOf values :=
  Nat.lt_of_lt_of_le (Nat.lt_of_le_of_lt (le_maxOf h) (lt_two_pow_bitLen _))
    (Nat.pow_le_pow_right (by decide) (Nat.le_max_right _ _))

/-! ### The input sequence -/

@[simp] theorem length_inputSequence (s : State) (n : Nat) : (s.inputSequence n).length = n := by
  simp [State.inputSequence]

theorem getElem_inputSequence (s : State) (n : Nat) {i : Nat} (h : i < (s.inputSequence n).length) :
    (s.inputSequence n)[i] = (s.seqWord i).toNat := by
  simp [State.inputSequence]

theorem mem_inputSequence_lt {s : State} {n v : Nat} (h : v ∈ s.inputSequence n) : v < 2 ^ 32 := by
  obtain ⟨i, -, rfl⟩ := List.mem_map.mp h
  exact (s.seqWord i).isLt

/-! ### The overflow parameters, table and fields -/

theorem thresholdBits_pos (values : List Nat) : 1 ≤ thresholdBits values := Nat.le_max_left _ _

theorem thresholdBits_le {values : List Nat} (h : ∀ v ∈ values, v < 2 ^ 32) : thresholdBits values ≤ 31 := by
  refine Nat.max_le.mpr ⟨by decide, bitLen_le ?_⟩
  have := maxOf_lt (by decide) h
  omega

theorem length_overflowTable (tb : Nat) (values : List Nat) :
    (overflowTable tb values).length = values.countP fun v => 2 ^ tb ≤ v := by
  rw [overflowTable, List.countP_eq_length_filter]

theorem length_overflowTable_le (tb : Nat) (values : List Nat) :
    (overflowTable tb values).length ≤ values.length := by
  rw [overflowTable]; exact List.length_filter_le _ _

theorem indexBits_le {k : Nat} (h : k ≤ 2 ^ 31) : indexBits k ≤ 31 := bitLen_le (by omega)

theorem lt_two_pow_indexBits {k j : Nat} (h : j < k) : j < 2 ^ indexBits k :=
  Nat.lt_of_le_of_lt (by omega) (lt_two_pow_bitLen (k - 1))

@[simp] theorem length_overflowFields (tb cb j : Nat) (values : List Nat) :
    (overflowFields tb cb j values).length = values.length := by
  induction values generalizing j with
  | nil => rfl
  | cons v vs ih =>
    unfold overflowFields
    split <;> simp [ih]

/-- R129: the field of element i: its value below the threshold, otherwise the indicator and its place in the table. -/
theorem getElem_overflowFields (tb cb j : Nat) (values : List Nat) {i : Nat} (hi : i < values.length) :
    (overflowFields tb cb j values)[i]'(by simpa using hi) =
      if 2 ^ tb ≤ values[i] then 2 ^ cb ||| (j + (values.take i).countP fun v => 2 ^ tb ≤ v) else values[i] := by
  induction values generalizing j i with
  | nil => simp at hi
  | cons v vs ih =>
    cases i with
    | zero =>
      by_cases hv : 2 ^ tb ≤ v <;> simp [overflowFields, hv]
    | succ i =>
      have hi' : i < vs.length := by simpa using hi
      by_cases hv : 2 ^ tb ≤ v
      · simp only [overflowFields, hv, if_true, List.getElem_cons_succ, ih (j + 1) hi', List.take_succ_cons,
          List.countP_cons, decide_true]
        rw [show j + 1 + List.countP (fun v => decide (2 ^ tb ≤ v)) (vs.take i) =
          j + (List.countP (fun v => decide (2 ^ tb ≤ v)) (vs.take i) + 1) by omega]
      · simp only [overflowFields, hv, if_false, List.getElem_cons_succ, ih j hi', List.take_succ_cons,
          List.countP_cons, decide_false]
        simp

/-- R126: an element over the threshold stands in the table at the place its rank names. -/
theorem getElem_overflowTable (tb : Nat) (values : List Nat) {i : Nat} (hi : i < values.length)
    (hv : 2 ^ tb ≤ values[i]) :
    ∃ h : ((values.take i).countP fun v => 2 ^ tb ≤ v) < (overflowTable tb values).length,
      (overflowTable tb values)[(values.take i).countP fun v => 2 ^ tb ≤ v] = values[i] := by
  induction values generalizing i with
  | nil => simp at hi
  | cons v vs ih =>
    cases i with
    | zero =>
      have hv' : 2 ^ tb ≤ v := hv
      simp [overflowTable, hv']
    | succ i =>
      obtain ⟨h1, h2⟩ := ih (i := i) (by simpa using hi) hv
      by_cases hv' : 2 ^ tb ≤ v
      · simp only [overflowTable, List.filter_cons, hv', decide_true, if_true, List.take_succ_cons, List.countP_cons]
        exact ⟨by simpa [overflowTable] using h1, by simpa [overflowTable] using h2⟩
      · simp only [overflowTable, List.filter_cons, hv', decide_false, List.take_succ_cons, List.countP_cons]
        exact ⟨by simpa [overflowTable] using h1, by simpa [overflowTable] using h2⟩

theorem two_pow_or {cb j : Nat} (h : j < 2 ^ cb) : 2 ^ cb ||| j = 2 ^ cb + j := by
  have := Nat.two_pow_add_eq_or_of_lt h 1
  simpa using this.symm

/-! ### The encoders' headers -/

theorem overlapHeader_encoded {cfg : Config} {values : List Nat} (h : ∀ v ∈ values, v < 2 ^ 32) :
    Encoded (overlapHeader cfg values) [] values where
  width_pos := widthOf_pos values
  width_le := widthOf_le h
  pbase_eq := rfl
  plen_eq := rfl
  len_eq := rfl
  fields_len := rfl

theorem nonOverlapHeader_encoded {cfg : Config} {values : List Nat} (h : ∀ v ∈ values, v < 2 ^ 32) :
    Encoded (nonOverlapHeader cfg values) [] values where
  width_pos := widthOf_pos values
  width_le := widthOf_le h
  pbase_eq := rfl
  plen_eq := rfl
  len_eq := rfl
  fields_len := rfl

theorem overflowHeader_encoded {cfg : Config} {values : List Nat} (h : ∀ v ∈ values, v < 2 ^ 32)
    (hn : values.length ≤ 2 ^ 31) :
    Encoded (overflowHeader cfg values) (overflowTable (thresholdBits values) values)
      (overflowFields (thresholdBits values)
        (max (thresholdBits values) (indexBits (overflowTable (thresholdBits values) values).length)) 0 values) where
  width_pos := Nat.le_add_right 1 _
  width_le := by
    have h1 := thresholdBits_le h
    have h2 := indexBits_le (Nat.le_trans (length_overflowTable_le (thresholdBits values) values) hn)
    show 1 + max _ _ ≤ 32
    omega
  pbase_eq := rfl
  plen_eq := rfl
  len_eq := rfl
  fields_len := length_overflowFields _ _ _ _

/-- R129: every field of the overflow encoder fits its width. -/
theorem overflowFields_lt (values : List Nat) {i : Nat} (hi : i < values.length) :
    (overflowFields (thresholdBits values)
        (max (thresholdBits values) (indexBits (overflowTable (thresholdBits values) values).length)) 0
        values)[i]'(by simpa using hi) <
      2 ^ (1 + max (thresholdBits values) (indexBits (overflowTable (thresholdBits values) values).length)) := by
  rw [getElem_overflowFields _ _ _ _ hi]
  generalize htb : thresholdBits values = tb
  split
  · next hv =>
    obtain ⟨hr, -⟩ := getElem_overflowTable tb values hi hv
    have h1 := lt_two_pow_indexBits hr
    have h2 : 2 ^ indexBits (overflowTable tb values).length ≤
        2 ^ max tb (indexBits (overflowTable tb values).length) :=
      Nat.pow_le_pow_right (by decide) (Nat.le_max_right _ _)
    rw [Nat.zero_add, two_pow_or (Nat.lt_of_lt_of_le h1 h2), Nat.pow_add]
    omega
  · next hv =>
    have h1 : 2 ^ tb ≤ 2 ^ (1 + max tb (indexBits (overflowTable tb values).length)) :=
      Nat.pow_le_pow_right (by decide) (by omega)
    omega

/-! ### What the shared operations answer -/

/-- R168: a finished command always answers a next state. -/
theorem State.finish_ok (s t : State) : s.finish (.ok t) = .next t := rfl

theorem State.finish_error (s : State) (e : ErrCode) : s.finish (.error e) = .next (s.raise e) := rfl

/-- The end of every ENCODE: E_CAPACITY, or the container written and told of. -/
theorem storeContainer_cases (s : State) (h : Header) (table fields : List Nat) :
    (s.cfg.contWords < h.len ∧ storeContainer s h table fields = .error .capacity) ∨
      (h.len ≤ s.cfg.contWords ∧ storeContainer s h table fields =
        .ok (({ s with
                cont := writeContainer s.cfg s.epoch h table fields s.cont
                clen := wordOf h.len }.loadParams h).complete h.len)) := by
  unfold storeContainer
  split
  · next hlt => exact .inl ⟨hlt, rfl⟩
  · next hlt => exact .inr ⟨Nat.le_of_not_lt hlt, rfl⟩

/-- DECODE.OVL after validation. -/
theorem decodeOverlap_cases (s : State) (h : Header) :
    (s.cfg.seqWords < h.n ∧ decodeOverlap s h = .error .capacity) ∨
      (h.n ≤ s.cfg.seqWords ∧ decodeOverlap s h =
        .ok (((s.storeSequence ((List.range h.n).map (overlapElement s h))).loadParams h).complete h.n)) := by
  unfold decodeOverlap
  split
  · next hlt => exact .inl ⟨hlt, rfl⟩
  · next hlt => exact .inr ⟨Nat.le_of_not_lt hlt, rfl⟩

/-- DECODE.NOV after validation. -/
theorem decodeNonOverlap_cases (s : State) (h : Header) :
    (s.cfg.seqWords < h.n ∧ decodeNonOverlap s h = .error .capacity) ∨
      (h.n ≤ s.cfg.seqWords ∧ decodeNonOverlap s h =
        .ok (((s.storeSequence ((List.range h.n).map (nonOverlapElement s h))).loadParams h).complete h.n)) := by
  unfold decodeNonOverlap
  split
  · next hlt => exact .inl ⟨hlt, rfl⟩
  · next hlt => exact .inr ⟨Nat.le_of_not_lt hlt, rfl⟩

/-- DECODE.OVF after validation. -/
theorem decodeOverflow_cases (s : State) (h : Header) :
    (s.cfg.seqWords < h.n ∧ decodeOverflow s h = .error .capacity) ∨
      (h.n ≤ s.cfg.seqWords ∧
        ((∃ e, readOverflowAll s h (List.range h.n) = .error e ∧ decodeOverflow s h = .error e) ∨
          ∃ values, readOverflowAll s h (List.range h.n) = .ok values ∧ decodeOverflow s h =
            .ok (((s.storeSequence values).loadParams h).complete h.n))) := by
  unfold decodeOverflow
  split
  · next hlt => exact .inl ⟨hlt, rfl⟩
  · next hlt =>
    refine .inr ⟨Nat.le_of_not_lt hlt, ?_⟩
    cases hr : readOverflowAll s h (List.range h.n) with
    | error e => exact .inl ⟨e, rfl, rfl⟩
    | ok values => exact .inr ⟨values, rfl, rfl⟩

/-- R134: reading a list of places: each element in turn, or the error of the first that fails. -/
theorem readOverflowAll_ok {s : State} {h : Header} {is : List Nat} {values : List Nat}
    (hr : readOverflowAll s h is = .ok values) :
    values.length = is.length ∧
      ∀ j (hj : j < is.length) (hj' : j < values.length), readOverflow s h is[j] = .ok values[j] := by
  induction is generalizing values with
  | nil => cases hr; exact ⟨rfl, fun j hj => absurd hj (by simp)⟩
  | cons i is ih =>
    unfold readOverflowAll at hr
    cases h1 : readOverflow s h i with
    | error e => simp [h1] at hr
    | ok v =>
      cases h2 : readOverflowAll s h is with
      | error e => simp [h1, h2] at hr
      | ok vs =>
        simp only [h1, h2] at hr
        cases hr
        obtain ⟨hl, hall⟩ := ih h2
        refine ⟨by simp [hl], fun j hj hj' => ?_⟩
        cases j with
        | zero => exact h1
        | succ j => exact hall j (by simpa using hj) (by simpa using hj')

/-- R133: the only error of a field read is E_INDEX. -/
theorem readOverflow_error {s : State} {h : Header} {i : Nat} {e : ErrCode} (hr : readOverflow s h i = .error e) :
    e = .index := by
  unfold readOverflow at hr
  simp only at hr
  split_ifs at hr
  cases hr
  rfl

theorem readOverflowAll_error {s : State} {h : Header} {is : List Nat} {e : ErrCode}
    (hr : readOverflowAll s h is = .error e) : e = .index ∧ ∃ i ∈ is, readOverflow s h i = .error .index := by
  induction is with
  | nil => cases hr
  | cons i is ih =>
    unfold readOverflowAll at hr
    cases h1 : readOverflow s h i with
    | error e' =>
      simp only [h1] at hr
      cases hr
      have := readOverflow_error h1
      subst this
      exact ⟨rfl, i, by simp, h1⟩
    | ok v =>
      cases h2 : readOverflowAll s h is with
      | error e' =>
        simp only [h1, h2] at hr
        cases hr
        obtain ⟨he, j, hj, hjr⟩ := ih h2
        exact ⟨he, j, List.mem_cons_of_mem _ hj, hjr⟩
      | ok vs => simp [h1, h2] at hr

/-- R52: the words of SEQ after a decoded sequence is stored. -/
theorem seqWord_storeSequence (s : State) (values : List Nat) (j : Nat) :
    (s.storeSequence values).seqWord j = if h : j < values.length then wordOf values[j] else s.seqWord j := by
  show (s.seq.writeList 0 (values.map wordOf)).word s.epoch .seq j = _
  rw [Memory.word_writeList]
  by_cases h : j < values.length
  · rw [dif_pos (by simpa using h), dif_pos h]; simp
  · rw [dif_neg (by simpa using h), dif_neg h]; rfl

end Sys2Proof.Machine
end

