-- ==== Sys2Proof/Laws/Decode.lean ====
section
/-! SUPPORT. The laws of the opcode table (30_encoding.md rules R64, R66). -/

namespace Sys2Proof

/-- No two rows of the opcode map have the same OPCODE and VAR. -/
theorem opcodeTable_no_overlap :
    opcodeTable.Pairwise fun a b => ¬ (a.1 = b.1 ∧ a.2.1 = b.2.1) := by decide

/-- A row the lookup gives stands in the table. -/
theorem tableRow_some {op : BitVec 8} {var : BitVec 2} {i : Instr} (h : tableRow op var = some i) :
    (op, var, i) ∈ opcodeTable := by
  unfold tableRow at h
  obtain ⟨row, hrow, rfl⟩ := Option.map_eq_some_iff.mp h
  have hp := List.find?_some hrow
  simp only [Bool.and_eq_true, beq_iff_eq] at hp
  obtain ⟨rfl, rfl⟩ := hp
  exact List.mem_of_find?_eq_some hrow

/-- A word is made of its three fields. -/
theorem word_of_fields (c : Word) : c = rsvdField c ++ varField c ++ opcodeField c := by
  apply BitVec.eq_of_getLsbD_eq
  intro j hj
  simp only [rsvdField, varField, opcodeField, BitVec.getLsbD_append, BitVec.getLsbD_extractLsb']
  by_cases h1 : j < 8
  · simp [h1]
  · by_cases h2 : j - 8 < 2
    · simp [h1, h2, show 8 + (j - 8) = j by omega]
    · simp [h1, h2, show 10 + (j - 8 - 2) = j by omega, show j - 8 - 2 < 22 by omega]

end Sys2Proof
end

