-- ==== Sys2Proof/Laws/Flags.lean ====
section
/-! SUPPORT. What the start and the two ends of a command do to STATUS, bit by bit (60_exceptions.md rules R167, R168). -/

namespace Sys2Proof.Machine

/-- Bit i of a word with bit b set to v. -/
theorem getLsbD_setBit (b : Nat) (v : Bool) (x : Word) (i : Nat) (hb : b < 32) :
    (setBit b v x).getLsbD i = if i = b then v else x.getLsbD i := by
  have h1 : (1#32 <<< b).getLsbD i = decide (i = b) := by
    rw [BitVec.getLsbD_shiftLeft]
    by_cases hi : i = b
    · subst hi; simp [hb]
    · by_cases hlt : i < b
      · simp [hlt, hi]
      · have : i - b ≠ 0 := by omega
        simp [hi, this]
  unfold setBit
  cases v
  · simp only [Bool.false_eq_true, if_false, BitVec.getLsbD_and, BitVec.getLsbD_not, h1]
    by_cases hi : i = b
    · simp [hi]
    · by_cases h32 : i < 32
      · simp [hi, h32]
      · simp [hi, BitVec.getLsbD_of_ge x i (by omega)]
  · simp only [if_true, BitVec.getLsbD_or, h1]
    by_cases hi : i = b <;> simp [hi]

theorem getLsbD_statusStarted (st : Word) (i : Nat) :
    (statusStarted st).getLsbD i = if i = 0 then true else st.getLsbD i :=
  getLsbD_setBit 0 true st i (by decide)

theorem getLsbD_statusCompleted (st : Word) (i : Nat) :
    (statusCompleted st).getLsbD i = if i = 0 ∨ i = 1 then false else st.getLsbD i := by
  unfold statusCompleted
  rw [getLsbD_setBit _ _ _ _ (by decide), getLsbD_setBit _ _ _ _ (by decide)]
  by_cases h0 : i = 0 <;> by_cases h1 : i = 1 <;> simp [h0, h1]

theorem getLsbD_statusRaised (st : Word) (i : Nat) :
    (statusRaised st).getLsbD i = if i = 0 then false else if i = 1 ∨ i = 2 then true else st.getLsbD i := by
  unfold statusRaised
  rw [getLsbD_setBit _ _ _ _ (by decide), getLsbD_setBit _ _ _ _ (by decide), getLsbD_setBit _ _ _ _ (by decide)]
  by_cases h0 : i = 0 <;> by_cases h1 : i = 1 <;> by_cases h2 : i = 2 <;> simp [h0, h1, h2]

/-- R167: a state whose STATUS and ERRCODE are those of a completed command succeeded. -/
theorem succeeded_of_completed {s t : State} (hs : t.status = statusCompleted s.status) (he : t.errcode = eNone) :
    SucceededFrom s t := by
  refine ⟨?_, ?_, ?_, ?_, he⟩
  · rw [State.busyFlag, hs, getLsbD_statusCompleted]; rfl
  · rw [State.errFlag, hs, getLsbD_statusCompleted]; rfl
  · rw [State.stickyFlag, hs, getLsbD_statusCompleted]; rfl
  · intro b hb
    rw [hs, getLsbD_statusCompleted, if_neg (by omega)]

/-- R168: `raise` reports the error and changes nothing else. -/
theorem onlyErrorReported_raise (s : State) (e : ErrCode) : OnlyErrorReported s (s.raise e) e := by
  refine ⟨⟨?_, ?_, ?_, ?_, rfl⟩, rfl⟩
  · rw [State.busyFlag, State.raise_status, getLsbD_statusRaised]; rfl
  · rw [State.errFlag, State.raise_status, getLsbD_statusRaised]; rfl
  · rw [State.stickyFlag, State.raise_status, getLsbD_statusRaised]; rfl
  · intro b hb
    rw [State.raise_status, getLsbD_statusRaised, if_neg (by omega), if_neg (by omega)]

/-- R169: no error's code is E_NONE, and none is above 0x0A. -/
theorem ErrCode.code_bounds (e : ErrCode) : e.code ≠ 0x00#32 ∧ e.code.toNat ≤ 0x0A := by
  cases e <;> decide

/-- A succeeded command is not a failed one. -/
theorem succeeded_errFlag {s t : State} (h : SucceededFrom s t) : t.errFlag = false := h.2.1

end Sys2Proof.Machine
end

