-- ==== Sys2Proof/Laws/Exec.lean ====
section
/-! SUPPORT. What a command can do, said once: it answers a next state, which is either `raise` of one of its errors or
the state of its own effect (60_exceptions.md rules R167, R168; 20_memory.md rule R52). -/

namespace Sys2Proof.Machine

/-- The state a successful ENCODE leaves. -/
def Stored (s t : State) (h : Header) (table fields : List Nat) : Prop :=
  s.operandN ≤ s.cfg.seqWords ∧ h.n = s.operandN ∧ h.tag = s.cfg.tag h.var ∧ h.len ≤ s.cfg.contWords ∧
    (s.cfg.seqWords ≤ 2 ^ 31 → Encoded h table fields) ∧
    t = ({ s with
            cont := writeContainer s.cfg s.epoch h table fields s.cont
            clen := wordOf h.len }.loadParams h).complete h.len

/-- The state a successful DECODE leaves. -/
def Decoded (s t : State) (sel : Selector) (h : Header) (values : List Nat) : Prop :=
  validate s sel = .ok h ∧ h.n ≤ s.cfg.seqWords ∧ values.length = h.n ∧
    t = ((s.storeSequence values).loadParams h).complete h.n

/-- R79: an ENCODE that succeeded leaves every word of CONT from the length in CLEN on as it was. -/
theorem Stored.contWord_above {s t : State} {h : Header} {table fields : List Nat} (hs : Stored s t h table fields)
    (hc : s.cfg.Valid) {j : Nat} (hj : t.clen.toNat ≤ j) : t.contWord j = s.contWord j := by
  obtain ⟨-, -, -, hlen, he, rfl⟩ := hs
  have hclen : (wordOf h.len).toNat = h.len := toNat_wordOf (by have := hc.2.2.2.1; omega)
  exact word_writeContainer_above _ _ (he hc.2.1) _ (hclen ▸ hj)

/-- R109, R201: a DECODE that succeeded leaves every word of SEQ from the count in RESULT on as it was. -/
theorem Decoded.seqWord_above {s t : State} {sel : Selector} {h : Header} {values : List Nat}
    (hd : Decoded s t sel h values) {j : Nat} (hj : t.result.toNat ≤ j) : t.seqWord j = s.seqWord j := by
  obtain ⟨hv, -, hl, rfl⟩ := hd
  have hn : h.n < 2 ^ 32 := by
    obtain ⟨v, -, -, rfl, -, -⟩ := validate_ok hv
    cases v <;> exact (s.contWord 3).isLt
  have hr : (wordOf h.n).toNat = h.n := toNat_wordOf hn
  refine (seqWord_storeSequence s values j).trans (dif_neg ?_)
  rw [hl]
  exact Nat.not_lt.mpr (hr ▸ hj)

/-- The state a successful GET leaves. -/
def Fetched (s t : State) (sel : Selector) (h : Header) (r : Nat) : Prop :=
  validate s sel = .ok h ∧ s.operandI < h.n ∧ t = (s.loadParams h).complete r

/-- The state a successful PARSE leaves. -/
def Parsed (s t : State) (sel : Selector) (h : Header) : Prop :=
  validate s sel = .ok h ∧ t = (s.loadParams h).complete (varNumber h.var)

/-- The state of each command's own effect. -/
def Completed (i : Instr) (s t : State) : Prop :=
  match i with
  | .bitlen => t = s.complete (bitLen s.operandV)
  | .width => s.operandN ≤ s.cfg.seqWords ∧ t = s.complete (widthOf (s.inputSequence s.operandN))
  | .rdfield => checkField s = none ∧ t = s.complete (fieldRead s.contWord 0 s.operandI s.operandW)
  | .wrfield => checkField s = none ∧
      t = { s with cont := fieldWrite s.epoch s.cont 0 s.operandI s.operandW s.operandV }.completeNoResult
  | .encodeOvl => Stored s t (overlapHeader s.cfg (s.inputSequence s.operandN)) [] (s.inputSequence s.operandN)
  | .encodeNov => Stored s t (nonOverlapHeader s.cfg (s.inputSequence s.operandN)) [] (s.inputSequence s.operandN)
  | .encodeOvf =>
    let values := s.inputSequence s.operandN
    let h := overflowHeader s.cfg values
    Stored s t h (overflowTable h.tb values) (overflowFields h.tb (max h.tb h.ib) 0 values)
  | .decodeOvl => ∃ h values, Decoded s t (.only .ovl) h values
  | .decodeNov => ∃ h values, Decoded s t (.only .nov) h values
  | .decodeOvf => ∃ h values, Decoded s t (.only .ovf) h values
  | .decodeAuto => ∃ h values, Decoded s t .auto h values
  | .getOvl => ∃ h r, Fetched s t (.only .ovl) h r
  | .getNov => ∃ h r, Fetched s t (.only .nov) h r
  | .getOvf => ∃ h r, Fetched s t (.only .ovf) h r
  | .getAuto => ∃ h r, Fetched s t .auto h r
  | .parseOvl => ∃ h, Parsed s t (.only .ovl) h
  | .parseNov => ∃ h, Parsed s t (.only .nov) h
  | .parseOvf => ∃ h, Parsed s t (.only .ovf) h
  | .parseAuto => ∃ h, Parsed s t .auto h

/-- R148: the validator's errors. -/
theorem validate_error {s : State} {sel : Selector} {e : ErrCode} (h : validate s sel = .error e) :
    e ∈ [ErrCode.capacity, .length, .magic, .version, .tag, .param] := by
  unfold validate at h
  cases hc : checkIdentity s sel with
  | ok v =>
    simp only [hc] at h
    split_ifs at h <;> cases h <;> decide
  | error e' =>
    simp only [hc] at h
    cases h
    unfold checkIdentity at hc
    simp only at hc
    split_ifs at hc <;> try (cases hc; decide)
    cases ht : tagVariant s.cfg (s.contWord 2) with
    | none => simp only [ht] at hc; cases hc; decide
    | some u =>
      simp only [ht] at hc
      split_ifs at hc
      cases hc
      decide

/-- ENCODE's end: stored, or E_CAPACITY. -/
theorem finish_storeContainer (s : State) (h : Header) (table fields : List Nat)
    (hn : s.operandN ≤ s.cfg.seqWords) (h1 : h.n = s.operandN) (h2 : h.tag = s.cfg.tag h.var)
    (he : s.cfg.seqWords ≤ 2 ^ 31 → Encoded h table fields) :
    ∃ t, s.finish (storeContainer s h table fields) = .next t ∧ (t = s.raise .capacity ∨ Stored s t h table fields) := by
  rcases storeContainer_cases s h table fields with ⟨-, hr⟩ | ⟨hl, hr⟩
  · exact ⟨_, by rw [hr]; rfl, .inl rfl⟩
  · exact ⟨_, by rw [hr]; rfl, .inr ⟨hn, h1, h2, hl, he, rfl⟩⟩

theorem finish_decodeOverlap {s : State} {sel : Selector} {h : Header} (hv : validate s sel = .ok h) :
    ∃ t, s.finish (decodeOverlap s h) = .next t ∧
      (t = s.raise .capacity ∨ ∃ h values, Decoded s t sel h values) := by
  rcases decodeOverlap_cases s h with ⟨-, hr⟩ | ⟨hl, hr⟩
  · exact ⟨_, by rw [hr]; rfl, .inl rfl⟩
  · exact ⟨_, by rw [hr]; rfl, .inr ⟨h, _, hv, hl, by simp, rfl⟩⟩

theorem finish_decodeNonOverlap {s : State} {sel : Selector} {h : Header} (hv : validate s sel = .ok h) :
    ∃ t, s.finish (decodeNonOverlap s h) = .next t ∧
      (t = s.raise .capacity ∨ ∃ h values, Decoded s t sel h values) := by
  rcases decodeNonOverlap_cases s h with ⟨-, hr⟩ | ⟨hl, hr⟩
  · exact ⟨_, by rw [hr]; rfl, .inl rfl⟩
  · exact ⟨_, by rw [hr]; rfl, .inr ⟨h, _, hv, hl, by simp, rfl⟩⟩

theorem finish_decodeOverflow {s : State} {sel : Selector} {h : Header} (hv : validate s sel = .ok h) :
    ∃ t, s.finish (decodeOverflow s h) = .next t ∧
      (t = s.raise .capacity ∨ t = s.raise .index ∨ ∃ h values, Decoded s t sel h values) := by
  rcases decodeOverflow_cases s h with ⟨-, hr⟩ | ⟨hl, ⟨e, he, hr⟩ | ⟨values, hvs, hr⟩⟩
  · exact ⟨_, by rw [hr]; rfl, .inl rfl⟩
  · have := (readOverflowAll_error he).1
    subst this
    exact ⟨_, by rw [hr]; rfl, .inr (.inl rfl)⟩
  · exact ⟨_, by rw [hr]; rfl, .inr (.inr ⟨h, _, hv, hl, by simpa using (readOverflowAll_ok hvs).1, rfl⟩)⟩

theorem finish_getOverlap {s : State} {sel : Selector} {h : Header} (hv : validate s sel = .ok h) :
    ∃ t, s.finish (getOverlap s h) = .next t ∧ (t = s.raise .range ∨ ∃ h r, Fetched s t sel h r) := by
  unfold getOverlap
  simp only
  split
  · exact ⟨_, rfl, .inl rfl⟩
  · next hlt => exact ⟨_, rfl, .inr ⟨h, _, hv, Nat.lt_of_not_le hlt, rfl⟩⟩

theorem finish_getNonOverlap {s : State} {sel : Selector} {h : Header} (hv : validate s sel = .ok h) :
    ∃ t, s.finish (getNonOverlap s h) = .next t ∧ (t = s.raise .range ∨ ∃ h r, Fetched s t sel h r) := by
  unfold getNonOverlap
  simp only
  split
  · exact ⟨_, rfl, .inl rfl⟩
  · next hlt => exact ⟨_, rfl, .inr ⟨h, _, hv, Nat.lt_of_not_le hlt, rfl⟩⟩

theorem finish_getOverflow {s : State} {sel : Selector} {h : Header} (hv : validate s sel = .ok h) :
    ∃ t, s.finish (getOverflow s h) = .next t ∧
      (t = s.raise .range ∨ t = s.raise .index ∨ ∃ h r, Fetched s t sel h r) := by
  unfold getOverflow
  simp only
  split
  · exact ⟨_, rfl, .inl rfl⟩
  · next hlt =>
    cases hr : readOverflow s h s.operandI with
    | error e =>
      have := readOverflow_error hr
      subst this
      exact ⟨_, rfl, .inr (.inl rfl)⟩
    | ok v => exact ⟨_, rfl, .inr (.inr ⟨h, _, hv, Nat.lt_of_not_le hlt, rfl⟩)⟩

theorem finish_parseContainer (s : State) (sel : Selector) :
    ∃ t, s.finish (parseContainer s sel) = .next t ∧
      ((∃ e ∈ [ErrCode.capacity, .length, .magic, .version, .tag, .param], t = s.raise e) ∨
        ∃ h, Parsed s t sel h) := by
  unfold parseContainer
  cases hv : validate s sel with
  | error e => exact ⟨_, rfl, .inl ⟨e, validate_error hv, rfl⟩⟩
  | ok h => exact ⟨_, rfl, .inr ⟨h, hv, rfl⟩⟩

theorem checkField_error {s : State} {e : ErrCode} (h : checkField s = some e) :
    e ∈ [ErrCode.illegalArg, .capacity] := by
  unfold checkField at h
  simp only at h
  split_ifs at h <;> cases h <;> decide

/-- R97: what passed operand checks of RDFIELD and WRFIELD say. -/
theorem checkField_none {s : State} (h : checkField s = none) :
    1 ≤ s.argW.toNat ∧ s.argW.toNat ≤ 32 ∧ (s.argI.toNat + s.argW.toNat - 1) / 32 < s.cfg.contWords := by
  unfold checkField at h
  simp only [State.operandI, State.operandW] at h
  split_ifs at h
  omega

/-- Every command answers a next state: one of its errors reported, or its own effect. -/
theorem exec_cases (i : Instr) (s : State) :
    ∃ t, exec i s = .next t ∧ ((∃ e ∈ possibleErrors i, t = s.raise e) ∨ Completed i s t) := by
  have vsub : ∀ {sel : Selector} {e : ErrCode} {l : List ErrCode}, validate s sel = .error e →
      [ErrCode.capacity, .length, .magic, .version, .tag, .param] ⊆ l → ∃ e' ∈ l, s.raise e = s.raise e' :=
    fun h hsub => ⟨_, hsub (validate_error h), rfl⟩
  cases i with
  | bitlen => exact ⟨_, rfl, .inr rfl⟩
  | width =>
    show ∃ t, execWidth s = .next t ∧ _
    unfold execWidth
    simp only
    split
    · exact ⟨_, rfl, .inl ⟨.capacity, by decide, rfl⟩⟩
    · next hn => exact ⟨_, rfl, .inr ⟨Nat.le_of_not_lt hn, rfl⟩⟩
  | rdfield =>
    show ∃ t, execRdfield s = .next t ∧ _
    unfold execRdfield
    cases hc : checkField s with
    | some e => exact ⟨_, rfl, .inl ⟨e, checkField_error hc, rfl⟩⟩
    | none => exact ⟨_, rfl, .inr ⟨hc, rfl⟩⟩
  | wrfield =>
    show ∃ t, execWrfield s = .next t ∧ _
    unfold execWrfield
    cases hc : checkField s with
    | some e => exact ⟨_, rfl, .inl ⟨e, checkField_error hc, rfl⟩⟩
    | none => exact ⟨_, rfl, .inr ⟨hc, rfl⟩⟩
  | encodeOvl =>
    show ∃ t, s.finish (encodeOverlap s) = .next t ∧ _
    unfold encodeOverlap
    simp only
    split
    · exact ⟨_, rfl, .inl ⟨.capacity, by decide, rfl⟩⟩
    · next hn =>
      obtain ⟨t, ht, h⟩ := finish_storeContainer s (overlapHeader s.cfg (s.inputSequence s.operandN)) []
        (s.inputSequence s.operandN) (Nat.le_of_not_lt hn) (length_inputSequence _ _) rfl
        (fun _ => overlapHeader_encoded fun v hv => mem_inputSequence_lt hv)
      exact ⟨t, ht, h.imp (fun h => ⟨.capacity, by decide, h⟩) id⟩
  | encodeNov =>
    show ∃ t, s.finish (encodeNonOverlap s) = .next t ∧ _
    unfold encodeNonOverlap
    simp only
    split
    · exact ⟨_, rfl, .inl ⟨.capacity, by decide, rfl⟩⟩
    · next hn =>
      obtain ⟨t, ht, h⟩ := finish_storeContainer s (nonOverlapHeader s.cfg (s.inputSequence s.operandN)) []
        (s.inputSequence s.operandN) (Nat.le_of_not_lt hn) (length_inputSequence _ _) rfl
        (fun _ => nonOverlapHeader_encoded fun v hv => mem_inputSequence_lt hv)
      exact ⟨t, ht, h.imp (fun h => ⟨.capacity, by decide, h⟩) id⟩
  | encodeOvf =>
    show ∃ t, s.finish (encodeOverflow s) = .next t ∧ _
    unfold encodeOverflow
    simp only
    split
    · exact ⟨_, rfl, .inl ⟨.capacity, by decide, rfl⟩⟩
    · next hn =>
      obtain ⟨t, ht, h⟩ := finish_storeContainer s (overflowHeader s.cfg (s.inputSequence s.operandN))
        (overflowTable (thresholdBits (s.inputSequence s.operandN)) (s.inputSequence s.operandN))
        (overflowFields _ _ 0 (s.inputSequence s.operandN))
        (Nat.le_of_not_lt hn) (length_inputSequence _ _) rfl
        (fun hcap => overflowHeader_encoded (fun v hv => mem_inputSequence_lt hv) (by
          rw [length_inputSequence]; omega))
      exact ⟨t, ht, h.imp (fun h => ⟨.capacity, by decide, h⟩) id⟩
  | decodeOvl =>
    show ∃ t, execDecodeOvl s = .next t ∧ _
    unfold execDecodeOvl
    cases hv : validate s (.only .ovl) with
    | error e => exact ⟨_, rfl, .inl (vsub hv (by decide))⟩
    | ok h =>
      obtain ⟨t, ht, h⟩ := finish_decodeOverlap hv
      exact ⟨t, ht, h.imp (fun h => ⟨.capacity, by decide, h⟩) id⟩
  | decodeNov =>
    show ∃ t, execDecodeNov s = .next t ∧ _
    unfold execDecodeNov
    cases hv : validate s (.only .nov) with
    | error e => exact ⟨_, rfl, .inl (vsub hv (by decide))⟩
    | ok h =>
      obtain ⟨t, ht, h⟩ := finish_decodeNonOverlap hv
      exact ⟨t, ht, h.imp (fun h => ⟨.capacity, by decide, h⟩) id⟩
  | decodeOvf =>
    show ∃ t, execDecodeOvf s = .next t ∧ _
    unfold execDecodeOvf
    cases hv : validate s (.only .ovf) with
    | error e => exact ⟨_, rfl, .inl (vsub hv (by decide))⟩
    | ok h =>
      obtain ⟨t, ht, h | h | h⟩ := finish_decodeOverflow hv
      · exact ⟨t, ht, .inl ⟨.capacity, by decide, h⟩⟩
      · exact ⟨t, ht, .inl ⟨.index, by decide, h⟩⟩
      · exact ⟨t, ht, .inr h⟩
  | decodeAuto =>
    show ∃ t, execDecodeAuto s = .next t ∧ _
    unfold execDecodeAuto
    cases hv : validate s .auto with
    | error e => exact ⟨_, rfl, .inl (vsub hv (by decide))⟩
    | ok h =>
      simp only
      split
      · obtain ⟨t, ht, h⟩ := finish_decodeOverlap hv
        exact ⟨t, ht, h.imp (fun h => ⟨.capacity, by decide, h⟩) id⟩
      · obtain ⟨t, ht, h⟩ := finish_decodeNonOverlap hv
        exact ⟨t, ht, h.imp (fun h => ⟨.capacity, by decide, h⟩) id⟩
      · obtain ⟨t, ht, h | h | h⟩ := finish_decodeOverflow hv
        · exact ⟨t, ht, .inl ⟨.capacity, by decide, h⟩⟩
        · exact ⟨t, ht, .inl ⟨.index, by decide, h⟩⟩
        · exact ⟨t, ht, .inr h⟩
  | getOvl =>
    show ∃ t, execGetOvl s = .next t ∧ _
    unfold execGetOvl
    cases hv : validate s (.only .ovl) with
    | error e => exact ⟨_, rfl, .inl (vsub hv (by decide))⟩
    | ok h =>
      obtain ⟨t, ht, h⟩ := finish_getOverlap hv
      exact ⟨t, ht, h.imp (fun h => ⟨.range, by decide, h⟩) id⟩
  | getNov =>
    show ∃ t, execGetNov s = .next t ∧ _
    unfold execGetNov
    cases hv : validate s (.only .nov) with
    | error e => exact ⟨_, rfl, .inl (vsub hv (by decide))⟩
    | ok h =>
      obtain ⟨t, ht, h⟩ := finish_getNonOverlap hv
      exact ⟨t, ht, h.imp (fun h => ⟨.range, by decide, h⟩) id⟩
  | getOvf =>
    show ∃ t, execGetOvf s = .next t ∧ _
    unfold execGetOvf
    cases hv : validate s (.only .ovf) with
    | error e => exact ⟨_, rfl, .inl (vsub hv (by decide))⟩
    | ok h =>
      obtain ⟨t, ht, h | h | h⟩ := finish_getOverflow hv
      · exact ⟨t, ht, .inl ⟨.range, by decide, h⟩⟩
      · exact ⟨t, ht, .inl ⟨.index, by decide, h⟩⟩
      · exact ⟨t, ht, .inr h⟩
  | getAuto =>
    show ∃ t, execGetAuto s = .next t ∧ _
    unfold execGetAuto
    cases hv : validate s .auto with
    | error e => exact ⟨_, rfl, .inl (vsub hv (by decide))⟩
    | ok h =>
      simp only
      split
      · obtain ⟨t, ht, h⟩ := finish_getOverlap hv
        exact ⟨t, ht, h.imp (fun h => ⟨.range, by decide, h⟩) id⟩
      · obtain ⟨t, ht, h⟩ := finish_getNonOverlap hv
        exact ⟨t, ht, h.imp (fun h => ⟨.range, by decide, h⟩) id⟩
      · obtain ⟨t, ht, h | h | h⟩ := finish_getOverflow hv
        · exact ⟨t, ht, .inl ⟨.range, by decide, h⟩⟩
        · exact ⟨t, ht, .inl ⟨.index, by decide, h⟩⟩
        · exact ⟨t, ht, .inr h⟩
  | parseOvl => exact finish_parseContainer s (.only .ovl)
  | parseNov => exact finish_parseContainer s (.only .nov)
  | parseOvf => exact finish_parseContainer s (.only .ovf)
  | parseAuto => exact finish_parseContainer s .auto

end Sys2Proof.Machine
end

