-- ==== Sys2Proof/Laws/PerInstr.lean ====
section
/-! SUPPORT. Statements about every command as syntax, one lemma for each constructor. -/

namespace Sys2Proof.Laws.WordLegal

/-- R65 to R67: the command word of a command has zero reserved bits, an opcode of 0x01 to 0x04 or 0x08 to 0x0B, VAR 0
below opcode 0x08, and never VAR 3 with the opcode of ENCODE. -/
def Statement (i : Instr) : Prop :=
  (encode i).toNat / 1024 = 0 ∧
    ((1 ≤ (encode i).toNat % 256 ∧ (encode i).toNat % 256 ≤ 4 ∧ (encode i).toNat / 256 = 0) ∨
      ((encode i).toNat % 256 = 8 ∧ (encode i).toNat / 256 ≤ 2) ∨
      (9 ≤ (encode i).toNat % 256 ∧ (encode i).toNat % 256 ≤ 0x0B ∧ (encode i).toNat / 256 ≤ 3))

theorem bitlen : Statement .bitlen := by unfold Statement; decide
theorem width : Statement .width := by unfold Statement; decide
theorem rdfield : Statement .rdfield := by unfold Statement; decide
theorem wrfield : Statement .wrfield := by unfold Statement; decide
theorem encodeOvl : Statement .encodeOvl := by unfold Statement; decide
theorem encodeNov : Statement .encodeNov := by unfold Statement; decide
theorem encodeOvf : Statement .encodeOvf := by unfold Statement; decide
theorem decodeOvl : Statement .decodeOvl := by unfold Statement; decide
theorem decodeNov : Statement .decodeNov := by unfold Statement; decide
theorem decodeOvf : Statement .decodeOvf := by unfold Statement; decide
theorem decodeAuto : Statement .decodeAuto := by unfold Statement; decide
theorem getOvl : Statement .getOvl := by unfold Statement; decide
theorem getNov : Statement .getNov := by unfold Statement; decide
theorem getOvf : Statement .getOvf := by unfold Statement; decide
theorem getAuto : Statement .getAuto := by unfold Statement; decide
theorem parseOvl : Statement .parseOvl := by unfold Statement; decide
theorem parseNov : Statement .parseNov := by unfold Statement; decide
theorem parseOvf : Statement .parseOvf := by unfold Statement; decide
theorem parseAuto : Statement .parseAuto := by unfold Statement; decide

end Sys2Proof.Laws.WordLegal
end

