-- ==== Sys2Proof/Laws/Step.lean ====
section
/-! SUPPORT. What a step can do, said once (20_memory.md rules R46, R51, R57): nothing when the host has no operation
pending, otherwise the host's oldest operation, in one of these forms. -/

namespace Sys2Proof.Machine

/-- What performing one operation does when it answers a next state. -/
inductive Performed (u t : State) : HostOp → Prop where
  /-- a host read: a word is returned -/
  | read (op : HostOp) (v : Word) (hop : op ≠ .reset) (h : t = u.returnWord v) : Performed u t op
  /-- a host write of a register other than CMD -/
  | writeReg (i : Nat) (v : Word) (r : Reg) (hr : regAt i = some r) (hcmd : r ≠ .cmd) (h : t = u.writeReg r v) :
      Performed u t (.wr i v)
  /-- a CMD write that selects a command -/
  | command (k : Nat) (c : Word) (i : Instr) (hr : regAt k = some .cmd) (hc : decode c = .ok i)
      (h : exec i u.started = .next t) : Performed u t (.wr k c)
  /-- a CMD write that selects none -/
  | illegal (k : Nat) (c : Word) (hr : regAt k = some .cmd) (hc : ∀ i, decode c ≠ .ok i)
      (h : t = u.started.raise .illegalCmd) : Performed u t (.wr k c)
  /-- a host write of a word of SEQ -/
  | writeSeq (i : Nat) (v : Word) (hi : i < u.cfg.seqWords) (h : t = { u with seq := u.seq.write i v }) :
      Performed u t (.wseq i v)
  /-- a host write of a word of CONT -/
  | writeCont (i : Nat) (v : Word) (hi : i < u.cfg.contWords) (h : t = { u with cont := u.cont.write i v }) :
      Performed u t (.wcont i v)
  /-- reset -/
  | reset (h : t = u.resetBlock) : Performed u t .reset

theorem perform_cases {u t : State} {op : HostOp} (h : u.perform op = .next t) : Performed u t op := by
  unfold State.perform at h
  cases op with
  | wr i v =>
    simp only at h
    cases hr : regAt i with
    | none => simp [hr] at h
    | some r =>
      simp only [hr, State.hostWrite] at h
      by_cases hcmd : r = .cmd
      · subst hcmd
        simp only [State.runCommandWord] at h
        cases hc : decode v with
        | ok j => exact .command i v j hr hc (by simpa [hc] using h)
        | error e =>
          simp only [hc] at h
          cases h
          exact .illegal i v hr (by simp [hc]) rfl
      · refine .writeReg i v r hr hcmd ?_
        cases r <;> first | exact absurd rfl hcmd | (cases h; rfl)
  | rd i =>
    simp only at h
    cases hr : regAt i with
    | none => simp [hr] at h
    | some r =>
      simp only [hr] at h
      cases h
      exact .read _ _ (by simp) rfl
  | wseq i v =>
    simp only at h
    split_ifs at h with hi
    cases h
    exact .writeSeq i v hi rfl
  | rseq i =>
    simp only at h
    split_ifs at h with hi
    cases h
    exact .read _ _ (by simp) rfl
  | wcont i v =>
    simp only at h
    split_ifs at h with hi
    cases h
    exact .writeCont i v hi rfl
  | rcont i =>
    simp only at h
    split_ifs at h with hi
    cases h
    exact .read _ _ (by simp) rfl
  | reset =>
    cases h
    exact .reset rfl

/-- A step that answers a next state: nothing was pending, or the oldest operation was performed. -/
theorem step_cases {s t : State} (h : step s = .next t) :
    (s.pending = [] ∧ t = s) ∨
      ∃ op rest, s.pending = op :: rest ∧ (s.busyFlag = true → op.allowedWhileBusy = true) ∧
        Performed { s with pending := rest } t op := by
  unfold step State.serveHost at h
  cases hp : s.pending with
  | nil =>
    simp only [hp] at h
    cases h
    exact .inl ⟨rfl, rfl⟩
  | cons op rest =>
    simp only [hp] at h
    split_ifs at h with hb
    refine .inr ⟨op, rest, rfl, ?_, perform_cases h⟩
    intro hbusy
    cases hop : op.allowedWhileBusy with
    | true => rfl
    | false => simp [hbusy, hop] at hb

/-- The host's oldest operation is performed when the block is not busy. -/
theorem step_perform {s : State} {op : HostOp} {rest : List HostOp} (hp : s.pending = op :: rest)
    (hb : s.busyFlag = false) : step s = State.perform { s with pending := rest } op := by
  unfold step State.serveHost
  simp [hp, hb]

end Sys2Proof.Machine
end

