-- ==== Sys2Proof/Tests/Slice0.lean ====
section
/-! SUPPORT. The model's own tests: the words of the opcode map, one or two small steps of each command with the results
95_test_vectors.md or the rule's own example gives, and for each statement a state that meets its hypotheses. -/

namespace Sys2Proof.Tests

open Sys2Proof.Machine

/-! ### The states the tests start from -/

/-- 95_test_vectors.md: the sequence S8. -/
def s8 : List Word := [5#32, 12#32, 31#32, 7#32, 15#32, 1023#32, 2000#32, 999999#32]

/-- 95_test_vectors.md: the container V-OVL-1. -/
def vOvl1 : List Word :=
  [0x42504B31#32, 1#32, 1#32, 8#32, 0x14#32] ++
  [0x00C00005#32, 0x70001F00#32, 0x000F0000#32, 0xD0003FF0#32, 0xF423F007#32]

/-- 95_test_vectors.md: the container V-NOV-1. -/
def vNov1 : List Word := [0x42504B31#32, 1#32, 2#32, 8#32, 0x14#32] ++ s8

/-- 95_test_vectors.md: the container V-OVF-1. -/
def vOvf1 : List Word :=
  [0x42504B31#32, 1#32, 3#32, 8#32, 0x14#32, 0x13#32, 0#32, 1#32, 0x000F423F#32] ++
  [0x00C00005#32, 0x70001F00#32, 0x000F0000#32, 0xD0003FF0#32, 0x80000007#32]

/-- Reset with a sequence in SEQ and its length in ARG_N. -/
def withSeq (values : List Word) : State :=
  { State.reset with seq := Memory.writeList [] 0 values, argN := BitVec.ofNat 32 values.length }

/-- Reset with a container in CONT and its length in CLEN. -/
def withCont (words : List Word) : State :=
  { State.reset with cont := Memory.writeList [] 0 words, clen := BitVec.ofNat 32 words.length }

/-- Reset with words in CONT and the operands of RDFIELD and WRFIELD. -/
def withField (words : List Word) (off w v : Word) : State :=
  { State.reset with cont := Memory.writeList [] 0 words, argI := off, argW := w, argV := v }

/-- Reset with one operation of the host pending. -/
def withOp (op : HostOp) : State := { State.reset with pending := [op] }

/-- The state a command answers, if it answers one. -/
def after (i : Instr) (s : State) : Option State :=
  match exec i s with
  | .next t => some t
  | .fault _ => none
  | .refused _ => none

/-- The code a command ends in and STATUS. -/
def outcome (i : Instr) (s : State) : Option (Word × Word) := (after i s).map fun t => (t.errcode, t.status)

/-- STATUS, RESULT after a command. -/
def answer (i : Instr) (s : State) : Option (Word × Word) := (after i s).map fun t => (t.status, t.result)

/-- The first words of CONT after a command. -/
def contAfter (i : Instr) (s : State) (n : Nat) : Option (List Word) :=
  (after i s).map fun t => (List.range n).map t.contWord

/-- The first words of SEQ after a command. -/
def seqAfter (i : Instr) (s : State) (n : Nat) : Option (List Word) :=
  (after i s).map fun t => (List.range n).map t.seqWord

/-- The P registers after a command. -/
def paramsAfter (i : Instr) (s : State) : Option (List Word) :=
  (after i s).map fun t => [t.pTag, t.pN, t.pWidth, t.pTbits, t.pIbits, t.pOvflen, t.pPlen]

/-! ### Well-formed words: each check refuses a word it should refuse (R67) -/

theorem test_wellFormed_refuses_reserved_bits :
    rsvdIsZero 0x00000401#32 = false ∧ wordIsCommand 0x00000401#32 = false := by decide
theorem test_wellFormed_refuses_unassigned_opcode :
    opcodeIsAssigned 0x05#8 = false ∧ wordIsCommand 0x00000005#32 = false ∧ wordIsCommand 0x0000000C#32 = false := by
  decide
theorem test_wellFormed_refuses_illegal_variant :
    varIsAllowed 0x08#8 3#2 = false ∧ wordIsCommand 0x00000308#32 = false ∧ wordIsCommand 0x00000101#32 = false := by
  decide
theorem test_wellFormed_takes_commands :
    wordIsCommand 0x00000001#32 = true ∧ wordIsCommand 0x00000208#32 = true ∧ wordIsCommand 0x0000030B#32 = true := by
  decide
theorem test_instr_wellFormed : Instr.WellFormed .parseAuto := by decide

/-! ### Decoding: the words of R64, some put together from the fields of R63 (RSVD, VAR, OPCODE) -/

theorem test_decode_estimator :
    decode 0x00000001#32 = .ok .bitlen ∧ decode (0#22 ++ 0b00#2 ++ 0b00000010#8) = .ok .width := by decide
theorem test_decode_bitstream :
    decode 0x00000003#32 = .ok .rdfield ∧ decode (0#22 ++ 0b00#2 ++ 0b00000100#8) = .ok .wrfield := by decide
theorem test_decode_encode :
    decode (0#22 ++ 0b00#2 ++ 0b00001000#8) = .ok .encodeOvl ∧ decode 0x00000108#32 = .ok .encodeNov ∧
      decode 0x00000208#32 = .ok .encodeOvf := by decide
theorem test_decode_decode :
    decode 0x00000009#32 = .ok .decodeOvl ∧ decode 0x00000109#32 = .ok .decodeNov ∧
      decode (0#22 ++ 0b10#2 ++ 0b00001001#8) = .ok .decodeOvf ∧ decode 0x00000309#32 = .ok .decodeAuto := by decide
theorem test_decode_get :
    decode 0x0000000A#32 = .ok .getOvl ∧ decode (0#22 ++ 0b01#2 ++ 0b00001010#8) = .ok .getNov ∧
      decode 0x0000020A#32 = .ok .getOvf ∧ decode 0x0000030A#32 = .ok .getAuto := by decide
theorem test_decode_parse :
    decode 0x0000000B#32 = .ok .parseOvl ∧ decode 0x0000010B#32 = .ok .parseNov ∧
      decode 0x0000020B#32 = .ok .parseOvf ∧ decode (0#22 ++ 0b11#2 ++ 0b00001011#8) = .ok .parseAuto := by decide
theorem test_decode_rejects :
    decode 0x00000000#32 = .error .unassignedOpcode ∧ decode 0x0000000C#32 = .error .unassignedOpcode ∧
      decode 0x00000308#32 = .error .illegalVariant ∧ decode 0x00000301#32 = .error .illegalVariant ∧
      decode 0x00000400#32 = .error .reservedBits ∧ decode 0xFFFFFFFF#32 = .error .reservedBits := by decide
theorem test_decodeTableWord :
    decodeTableWord 32 0x00000109 = some .decodeNov ∧ decodeTableWord 8 0x02 = some .width ∧
      decodeTableWord 32 0x00000308 = none := by decide

/-! ### One step of each command -/

/-- 95_test_vectors.md 2.1. -/
theorem test_bitlen_1023 : answer .bitlen { State.reset with argV := 1023#32 } = some (0#32, 10#32) := by
  decide +kernel
theorem test_bitlen_ends : answer .bitlen { State.reset with argV := 0#32 } = some (0#32, 0#32) ∧
    answer .bitlen { State.reset with argV := 0xFFFFFFFF#32 } = some (0#32, 32#32) := by decide +kernel
theorem test_width_s8 : answer .width (withSeq s8) = some (0#32, 20#32) := by decide +kernel
theorem test_width_capacity :
    outcome .width { State.reset with argN := 65#32 } = some (0x08#32, 6#32) := by decide +kernel
/-- The example of 42_bitstream.md rule R98. -/
theorem test_rdfield_straddles :
    answer .rdfield (withField [0xF0000000#32, 0x0000000A#32] 28#32 8#32 0#32) = some (0#32, 0xAF#32) := by
  decide +kernel
theorem test_rdfield_errors :
    outcome .rdfield (withField [] 2017#32 32#32 0#32) = some (0x08#32, 6#32) ∧
      outcome .rdfield (withField [] 0#32 33#32 0#32) = some (0x0A#32, 6#32) := by decide +kernel
/-- The example of 42_bitstream.md rule R99. -/
theorem test_wrfield_straddles :
    contAfter .wrfield (withField [0#32, 0xFFFFFFFF#32] 28#32 8#32 0x5A#32) 2 =
      some [0xA0000000#32, 0xFFFFFFF5#32] := by decide +kernel
theorem test_wrfield_keeps_neighbours :
    contAfter .wrfield (withField [0xFFFFFFFF#32] 8#32 8#32 0#32) 1 = some [0xFFFF00FF#32] := by decide +kernel
/-- 95_test_vectors.md 2.3, V-OVL-1 and V-OVL-5. -/
theorem test_encodeOvl_s8 : contAfter .encodeOvl (withSeq s8) 10 = some vOvl1 ∧
    paramsAfter .encodeOvl (withSeq s8) = some [1#32, 8#32, 20#32, 0#32, 0#32, 0#32, 5#32] := by decide +kernel
theorem test_encodeOvl_straddles : contAfter .encodeOvl (withSeq (List.replicate 11 7#32)) 7 =
    some [0x42504B31#32, 1#32, 1#32, 11#32, 3#32, 0xFFFFFFFF#32, 1#32] := by decide +kernel
/-- 95_test_vectors.md 2.4, V-NOV-1 and V-NOV-3. -/
theorem test_encodeNov_s8 : contAfter .encodeNov (withSeq s8) 13 = some vNov1 := by decide +kernel
theorem test_encodeNov_lanes : contAfter .encodeNov (withSeq (List.replicate 11 7#32)) 7 =
    some [0x42504B31#32, 1#32, 2#32, 11#32, 3#32, 0x3FFFFFFF#32, 7#32] := by decide +kernel
/-- 95_test_vectors.md 2.5, V-OVF-1 and V-OVF-6. -/
theorem test_encodeOvf_s8 : contAfter .encodeOvf (withSeq s8) 14 = some vOvf1 ∧
    paramsAfter .encodeOvf (withSeq s8) = some [3#32, 8#32, 20#32, 19#32, 0#32, 1#32, 5#32] := by decide +kernel
theorem test_encodeOvf_duplicates :
    contAfter .encodeOvf (withSeq [100#32, 1#32, 100#32, 2#32, 100#32]) 13 =
      some ([0x42504B31#32, 1#32, 3#32, 5#32, 7#32, 6#32, 2#32, 3#32, 0x64#32, 0x64#32, 0x64#32] ++
        [0x205040C0#32, 4#32]) := by decide +kernel
theorem test_decodeOvl_s8 : seqAfter .decodeOvl (withCont vOvl1) 8 = some s8 := by decide +kernel
/-- 95_test_vectors.md 2.6: CONT[4] = 19. -/
theorem test_decodeOvl_other_width :
    seqAfter .decodeOvl { withCont vOvl1 with cont := (withCont vOvl1).cont.write 4 19#32 } 8 =
      some [5#32, 24#32, 124#32, 56#32, 240#32, 32736#32, 128000#32, 73600#32] := by decide +kernel
theorem test_decodeNov_s8 : seqAfter .decodeNov (withCont vNov1) 8 = some s8 := by decide +kernel
theorem test_decodeNov_tag : outcome .decodeNov (withCont vOvl1) = some (0x03#32, 6#32) := by decide +kernel
theorem test_decodeOvf_s8 : seqAfter .decodeOvf (withCont vOvf1) 8 = some s8 := by decide +kernel
/-- 95_test_vectors.md 2.5: CONT[13] = 0x80001007. -/
theorem test_decodeOvf_index :
    outcome .decodeOvf { withCont vOvf1 with cont := (withCont vOvf1).cont.write 13 0x80001007#32 } =
      some (0x06#32, 6#32) := by decide +kernel
theorem test_decodeAuto_nov : seqAfter .decodeAuto (withCont vNov1) 8 = some s8 := by decide +kernel
theorem test_decodeAuto_magic :
    outcome .decodeAuto { withCont vOvl1 with cont := (withCont vOvl1).cont.write 0 0x42504B30#32 } =
      some (0x01#32, 6#32) := by decide +kernel
theorem test_getOvl_straddles : answer .getOvl { withCont vOvl1 with argI := 1#32 } = some (0#32, 12#32) := by
  decide +kernel
theorem test_getOvl_range : outcome .getOvl { withCont vOvl1 with argI := 8#32 } = some (0x07#32, 6#32) := by
  decide +kernel
theorem test_getNov_lane : answer .getNov { withCont vNov1 with argI := 5#32 } = some (0#32, 1023#32) := by
  decide +kernel
/-- 95_test_vectors.md 2.4: V-NOV-4, element 10. -/
theorem test_getNov_second_word :
    answer .getNov { withCont [0x42504B31#32, 1#32, 2#32, 11#32, 3#32, 0x2EFAC688#32, 4#32] with argI := 10#32 } =
      some (0#32, 4#32) := by decide +kernel
theorem test_getOvf_table : answer .getOvf { withCont vOvf1 with argI := 7#32 } = some (0#32, 999999#32) := by
  decide +kernel
theorem test_getOvf_inline : answer .getOvf { withCont vOvf1 with argI := 6#32 } = some (0#32, 2000#32) := by
  decide +kernel
theorem test_getAuto_ovf : answer .getAuto { withCont vOvf1 with argI := 6#32 } = some (0#32, 2000#32) := by
  decide +kernel
theorem test_getAuto_reset : outcome .getAuto State.reset = some (0x04#32, 6#32) := by decide +kernel
theorem test_parseOvl : answer .parseOvl (withCont vOvl1) = some (0#32, 0#32) := by decide +kernel
theorem test_parseNov : answer .parseNov (withCont vNov1) = some (0#32, 1#32) := by decide +kernel
theorem test_parseOvf : answer .parseOvf (withCont vOvf1) = some (0#32, 2#32) ∧
    paramsAfter .parseOvf (withCont vOvf1) = some [3#32, 8#32, 20#32, 19#32, 0#32, 1#32, 5#32] := by decide +kernel
theorem test_parseAuto_nov : answer .parseAuto (withCont vNov1) = some (0#32, 1#32) := by decide +kernel
theorem test_parseAuto_version :
    outcome .parseAuto { withCont vOvl1 with cont := (withCont vOvl1).cont.write 1 2#32 } = some (0x02#32, 6#32) := by
  decide +kernel
/-- 95_test_vectors.md 2.8: an error, then a success: STICKY stays. -/
theorem test_success_keeps_sticky : answer .bitlen { State.reset with status := 6#32, errcode := 4#32 } =
    some (4#32, 0#32) := by decide +kernel

/-! ### One step of the host -/

theorem test_step_runs_a_command :
    step (State.reset.withFetchWord 32 0x00000002) = exec .width State.reset.started := rfl
theorem test_step_illegal_word :
    step (State.reset.withCommandWord 0x00000308#32) = .next { State.reset with status := 6#32, errcode := 9#32 } := rfl
theorem test_step_read_info : step (withOp (.rd 0x12)) = .next { State.reset with reads := [64#32] } := rfl
theorem test_step_write_operand : step (withOp (.wr 0x06 7#32)) = .next { State.reset with argV := 7#32 } := rfl
theorem test_step_outside : step (withOp (.rseq 64)) = .refused (.seqIndexOutside 64) := rfl

/-! ### States that meet the hypotheses of the statements

One theorem for each statement with hypotheses, and for its clauses at the boundaries of their ranges. -/

/-- DecodeSelectsExactlyTheCommandWords: ENCODE.AUTO is no command's word. -/
theorem witness_DecodeSelects : ∀ i, 0x00000308#32 ≠ encode i := by intro i; cases i <;> decide

theorem witness_ReservedWords : (withOp (.wr 0x00 0x00000400#32)).pending = .wr 0x00 0x00000400#32 :: [] ∧
    (withOp (.wr 0x00 0x00000400#32)).busyFlag = false ∧ ReservedWord 0x00000400#32 := by
  refine ⟨rfl, by decide, ?_⟩
  unfold ReservedWord
  decide

/-- The ends of the reserved ranges, and command words beside them. -/
theorem witness_ReservedWords_ends : ReservedWord 0x000000FF#32 ∧ ReservedWord 0x00000007#32 ∧
    ReservedWord 0x0000000C#32 ∧ ReservedWord 0x00000104#32 ∧ ReservedWord 0x00000308#32 ∧
    ¬ ReservedWord 0x0000030B#32 ∧ ¬ ReservedWord 0x00000208#32 ∧ ¬ ReservedWord 0x00000004#32 := by
  simp [ReservedWord]

theorem witness_StepRuns : (withOp (.wr 0x00 0x00000001#32)).pending = .wr 0x00 0x00000001#32 :: [] ∧
    (withOp (.wr 0x00 0x00000001#32)).busyFlag = false ∧ decode 0x00000001#32 = .ok .bitlen := by decide

theorem witness_HostRead : (withOp (.rd 0x1F)).pending = .rd 0x1F :: [] ∧ (withOp (.rd 0x1F)).busyFlag = false ∧
    0x1F < 0x20 := by decide

theorem witness_HostWrite : (withOp (.wr 0x01 9#32)).pending = .wr 0x01 9#32 :: [] ∧
    (withOp (.wr 0x01 9#32)).busyFlag = false ∧ 1 ≤ 0x01 ∧ 0x1F < 0x20 := by decide

/-- ReservedRegistersReadZeroIgnoreWrites, each clause: 0x14 and 0x1F are reserved, 0x20 is outside. -/
theorem witness_ReservedRegisters : State.reset.busyFlag = false ∧
    (withOp (.rd 0x14)).pending = .rd 0x14 :: [] ∧ (withOp (.wr 0x1F 9#32)).pending = .wr 0x1F 9#32 :: [] ∧
    (withOp (.rd 0x20)).pending = .rd 0x20 :: [] ∧ 0x14 ≤ 0x1F ∧ ¬ 0x20 ≤ 0x1F := by decide

/-- HostMemoryAccessMovesOneWord, each clause at the last word. -/
theorem witness_HostMemory : State.reset.busyFlag = false ∧
    (withOp (.wseq 63 9#32)).pending = .wseq 63 9#32 :: [] ∧ (withOp (.wcont 63 9#32)).pending = .wcont 63 9#32 :: [] ∧
    (withOp (.rseq 63)).pending = .rseq 63 :: [] ∧ (withOp (.rcont 63)).pending = .rcont 63 :: [] ∧
    63 < State.reset.cfg.seqWords ∧ 63 < State.reset.cfg.contWords := by decide

/-- HostAccessOutsideIsRefused, each clause at the first index outside. -/
theorem witness_HostOutside : State.reset.busyFlag = false ∧
    (withOp (.wr 0x20 9#32)).pending = .wr 0x20 9#32 :: [] ∧ (withOp (.rseq 64)).pending = .rseq 64 :: [] ∧
    (withOp (.wcont 64 9#32)).pending = .wcont 64 9#32 :: [] ∧ State.reset.cfg.seqWords ≤ 64 ∧
    State.reset.cfg.contWords ≤ 64 := by decide

theorem witness_Busy : ({ withOp (.rd 0x01) with status := 1#32 } : State).busyFlag = true ∧
    ({ withOp (.rd 0x01) with status := 1#32 } : State).pending = .rd 0x01 :: [] ∧
    HostOp.rd 0x02 ≠ .rd 0x01 ∧ HostOp.rd 0x02 ≠ .reset := by decide

/-- StepTakesOldestOperation, each clause: a step that answers, an operation pending with BUSY 0, none pending. -/
theorem witness_StepTakes : step (withOp (.rd 0x01)) = .next { State.reset with reads := [0#32] } ∧
    (withOp (.rd 0x01)).pending = .rd 0x01 :: [] ∧ (withOp (.rd 0x01)).busyFlag = false ∧
    State.reset.pending = [] := ⟨rfl, rfl, by decide, rfl⟩

theorem witness_Reset : (withOp .reset).pending = .reset :: [] := rfl

/-- CommandsOnTheResetState: P0, and the smallest memories R9 allows. -/
theorem witness_OnReset : Config.p0.Valid ∧ ({ Config.p0 with seqWords := 1, contWords := 8 } : Config).Valid ∧
    containerSelector .getAuto ≠ none := by decide

theorem witness_Sticky :
    step { withOp (.wr 0x00 1#32) with status := 4#32 } = .next { State.reset with status := 4#32 } ∧
      ({ withOp (.wr 0x00 1#32) with status := 4#32 } : State).stickyFlag = true ∧
      HostOp.wr 0x00 1#32 ≠ .reset ∧
      step { withOp .reset with status := 4#32 } = .next { State.reset with epoch := 1 } := by
  refine ⟨rfl, by decide, by decide, rfl⟩

theorem witness_Width : (withSeq (List.replicate 64 0#32)).argN.toNat ≤ State.reset.cfg.seqWords ∧
    State.reset.cfg.seqWords < ({ State.reset with argN := 65#32 } : State).argN.toNat := by decide

theorem witness_WidthBetween : (∀ v ∈ [2 ^ 32 - 1, 0], v < 2 ^ 32) ∧ 2 ^ 31 ≤ maxOf [2 ^ 31, 0] ∧
    maxOf [1, 0] ≤ 1 := by decide

theorem witness_WidthFits : 1 ≤ maxOf [1, 0] ∧ maxOf [1, 0] < 2 ^ 1 ∧ maxOf ([] : List Nat) = 0 := by decide

/-- RdfieldReadsField and WrfieldReplacesField, each clause: widths 0 and 33, the last whole word, one bit further. -/
theorem witness_Field : (withField [] 0#32 0#32 0#32).argW.toNat = 0 ∧ 32 < (withField [] 0#32 33#32 0#32).argW.toNat ∧
    State.reset.cfg.contWords ≤ ((withField [] 2017#32 32#32 0#32).argI.toNat + 32 - 1) / 32 ∧
    ((withField [] 2016#32 32#32 0#32).argI.toNat + 32 - 1) / 32 < State.reset.cfg.contWords := by decide

/-- FieldReadAfterWrite: a field of 32 bits that straddles, and fields on both sides of it. -/
theorem witness_FieldReadAfterWrite : 1 ≤ 32 ∧ 32 ≤ 32 ∧ (12 + 4 ≤ 16 ∨ 16 + 32 ≤ 12) ∧ (48 + 4 ≤ 16 ∨ 16 + 32 ≤ 48) := by
  decide

/-- FieldPrimitivesEqualWordForm: a straddling field over zero bits. -/
theorem witness_FieldWordForm : 0x5A < 2 ^ 8 ∧ 32 < 28 % 32 + 8 ∧
    ∀ j, j < 8 → streamBit (Memory.word [(0, 0x0FFFFFFF#32), (1, 0xFFFFFFF0#32)] 0 .cont) 0 (28 + j) = false := by
  decide +kernel

/-- The three ENCODE statements: S8 fits, 65 elements do not fit SEQ; 59 full words fill CONT, 60 do not fit. -/
theorem witness_Encode : State.reset.cfg.Valid ∧ (withSeq s8).argN.toNat ≤ State.reset.cfg.seqWords ∧
    5 + (8 * widthOf ((withSeq s8).inputSequence 8) + 31) / 32 ≤ State.reset.cfg.contWords ∧
    State.reset.cfg.seqWords < ({ State.reset with argN := 65#32 } : State).argN.toNat ∧
    5 + (59 * widthOf ((withSeq (List.replicate 59 0xFFFFFFFF#32)).inputSequence 59) + 31) / 32 =
      State.reset.cfg.contWords ∧
    State.reset.cfg.contWords <
      5 + (60 * widthOf ((withSeq (List.replicate 60 0xFFFFFFFF#32)).inputSequence 60) + 31) / 32 := by decide +kernel

theorem witness_EncodeNov : 5 + (8 + 32 / widthOf ((withSeq s8).inputSequence 8) - 1) /
      (32 / widthOf ((withSeq s8).inputSequence 8)) ≤ State.reset.cfg.contWords ∧
    State.reset.cfg.contWords < 5 + (60 + 32 / 32 - 1) / (32 / 32) := by decide +kernel

theorem witness_EncodeOvf : (overflowHeader Config.p0 ((withSeq s8).inputSequence 8)).len = 14 ∧
    14 ≤ State.reset.cfg.contWords ∧
    State.reset.cfg.contWords < (overflowHeader Config.p0 (List.replicate 29 (2 ^ 32 - 1))).len := by decide +kernel

/-! The headers of the three containers, and that the containers are accepted: the hypotheses of the DECODE, GET and
PARSE statements, for the named variants and for AUTO. -/

/-- The header of V-OVL-1. -/
def hOvl : Header :=
  { var := .ovl, tag := 1#32, n := 8, w := 20, tb := 0, ib := 0, k := 0, pbase := 5, plen := 5, len := 10 }

/-- The header of V-NOV-1. -/
def hNov : Header :=
  { var := .nov, tag := 2#32, n := 8, w := 20, tb := 0, ib := 0, k := 0, pbase := 5, plen := 8, len := 13 }

/-- The header of V-OVF-1. -/
def hOvf : Header :=
  { var := .ovf, tag := 3#32, n := 8, w := 20, tb := 19, ib := 0, k := 1, pbase := 9, plen := 5, len := 14 }

/-- V-OVF-1 with element 7's field naming table entry 1, which is not there (95_test_vectors.md 2.5). -/
def sBad : State := { withCont vOvf1 with cont := (withCont vOvf1).cont.write 13 0x80001007#32 }

theorem accepted_ovl (sel : Selector) (h : sel = .auto ∨ sel = .only .ovl) (i : Word) :
    AcceptedContainer { withCont vOvl1 with argI := i } sel hOvl := by
  refine ⟨by rfl, show hOvl.len ≤ 64 by decide, by rfl, by rfl, by rfl, by rfl, h, by rfl, by rfl, ?_⟩
  simp [AcceptedParameters, hOvl]

theorem accepted_nov (sel : Selector) (h : sel = .auto ∨ sel = .only .nov) (i : Word) :
    AcceptedContainer { withCont vNov1 with argI := i } sel hNov := by
  refine ⟨by rfl, show hNov.len ≤ 64 by decide, by rfl, by rfl, by rfl, by rfl, h, by rfl, by rfl, ?_⟩
  simp [AcceptedParameters, hNov]

theorem accepted_ovf (sel : Selector) (h : sel = .auto ∨ sel = .only .ovf) (i : Word) :
    AcceptedContainer { withCont vOvf1 with argI := i } sel hOvf := by
  refine ⟨by rfl, show hOvf.len ≤ 64 by decide, by rfl, by rfl, by rfl, by rfl, h, by rfl, by rfl, ?_⟩
  exact ⟨by rfl, by rfl, by rfl, by decide, by rfl, by decide, by rfl, by rfl, by rfl⟩

theorem accepted_bad (sel : Selector) (h : sel = .auto ∨ sel = .only .ovf) (i : Word) :
    AcceptedContainer { sBad with argI := i } sel hOvf := by
  refine ⟨by rfl, show hOvf.len ≤ 64 by decide, by rfl, by rfl, by rfl, by rfl, h, by rfl, by rfl, ?_⟩
  exact ⟨by rfl, by rfl, by rfl, by decide, by rfl, by decide, by rfl, by rfl, by rfl⟩

/-- The same containers in a block whose SEQ has 4 words, as in 95_test_vectors.md 2.6. -/
def withSmallSeq (s : State) : State := { s with cfg := { s.cfg with seqWords := 4 } }

theorem accepted_small :
    AcceptedContainer (withSmallSeq (withCont vOvl1)) (.only .ovl) hOvl ∧
      AcceptedContainer (withSmallSeq (withCont vNov1)) (.only .nov) hNov ∧
      AcceptedContainer (withSmallSeq (withCont vOvf1)) (.only .ovf) hOvf ∧
      (withSmallSeq (withCont vOvl1)).cfg.Valid ∧ (withSmallSeq (withCont vOvl1)).cfg.seqWords < hOvl.n := by
  refine ⟨⟨by rfl, by decide, by rfl, by rfl, by rfl, by rfl, .inr rfl, by rfl, by rfl, ?_⟩,
    ⟨by rfl, by decide, by rfl, by rfl, by rfl, by rfl, .inr rfl, by rfl, by rfl, ?_⟩,
    ⟨by rfl, by decide, by rfl, by rfl, by rfl, by rfl, .inr rfl, by rfl, by rfl, ?_⟩, by decide, by decide⟩
  · simp [AcceptedParameters, hOvl]
  · simp [AcceptedParameters, hNov]
  · exact ⟨by rfl, by rfl, by rfl, by decide, by rfl, by decide, by rfl, by rfl, by rfl⟩

/-- DECODE and GET of an overflow container: every element of V-OVF-1 reads, element 7 of the changed one does not. -/
theorem witness_elements :
    (∀ i, i < hOvf.n → elementAt (withCont vOvf1).contWord hOvf i ≠ none) ∧
      elementAt sBad.contWord hOvf 7 = none ∧ elementAt sBad.contWord hOvf 0 = some 5 ∧
      elementAt (withCont vOvl1).contWord hOvl 7 = some 999999 ∧
      elementAt (withCont vNov1).contWord hNov 7 = some 999999 := by decide +kernel

/-- GET: the last legal index and the first illegal one. -/
theorem witness_index : ({ withCont vOvl1 with argI := 7#32 } : State).argI.toNat < hOvl.n ∧
    hOvl.n ≤ ({ withCont vOvl1 with argI := 8#32 } : State).argI.toNat := by decide

/-- Each error of the validator, for a named variant and for AUTO. -/
theorem witness_validate_identity :
    validate { withCont vOvl1 with clen := 65#32 } .auto = .error .capacity ∧
      validate { withCont vOvl1 with cont := (withCont vOvl1).cont.write 0 0#32 } (.only .ovl) = .error .magic ∧
      validate { withCont vOvl1 with cont := (withCont vOvl1).cont.write 1 2#32 } .auto = .error .version ∧
      validate { withCont vOvl1 with cont := (withCont vOvl1).cont.write 2 7#32 } .auto = .error .tag ∧
      validate (withCont vOvl1) (.only .nov) = .error .tag ∧ validate (withCont vNov1) (.only .ovf) = .error .tag := by
  decide +kernel

theorem witness_validate_length :
    validate { withCont vOvl1 with clen := 0#32 } .auto = .error .length ∧
      validate { withCont vOvl1 with clen := 1#32 } (.only .ovl) = .error .length ∧
      validate { withCont vOvl1 with clen := 2#32 } .auto = .error .length ∧
      validate { withCont vOvl1 with clen := 4#32 } .auto = .error .length ∧
      validate { withCont vOvf1 with clen := 7#32 } .auto = .error .length ∧
      validate { withCont vNov1 with clen := 12#32 } (.only .nov) = .error .length ∧
      validate { withCont vOvl1 with clen := 11#32 } .auto = .error .length ∧
      validate { withCont vOvf1 with cont := (withCont vOvf1).cont.write 7 2#32 } .auto = .error .length := by
  decide +kernel

theorem witness_validate_param :
    validate { withCont vOvl1 with cont := (withCont vOvl1).cont.write 4 0#32 } .auto = .error .param ∧
      validate { withCont vNov1 with cont := (withCont vNov1).cont.write 4 33#32 } (.only .nov) = .error .param ∧
      validate { withCont vOvf1 with cont := (withCont vOvf1).cont.write 5 0#32 } .auto = .error .param ∧
      validate { withCont vOvf1 with cont := (withCont vOvf1).cont.write 6 20#32 } .auto = .error .param := by
  decide +kernel

theorem witness_HeaderRejection : containerSelector .parseOvf ≠ none ∧
    1 ≤ ({ withCont vOvl1 with cont := (withCont vOvl1).cont.write 0 0#32 } : State).clen.toNat ∧
    ({ withCont vOvl1 with cont := (withCont vOvl1).cont.write 0 0#32 } : State).clen.toNat ≤ Config.p0.contWords ∧
    ({ withCont vOvl1 with cont := (withCont vOvl1).cont.write 0 0#32 } : State).contWord 0 ≠ Config.p0.magic := by
  decide +kernel

/-- AutoEqualsNamedVariant, both clauses. -/
theorem witness_AutoEquals : (withCont vNov1).cfg.Valid ∧ 3 ≤ (withCont vNov1).clen.toNat ∧
    (withCont vNov1).clen.toNat ≤ (withCont vNov1).cfg.contWords ∧
    (withCont vNov1).contWord 0 = (withCont vNov1).cfg.magic ∧
    (withCont vNov1).contWord 1 = (withCont vNov1).cfg.version ∧
    (withCont vNov1).contWord 2 = (withCont vNov1).cfg.tag .nov ∧ State.reset.clen.toNat < 3 := by decide +kernel

theorem witness_ErrorsOfEachCommand :
    exec .getAuto State.reset = .next (State.reset.raise .length) ∧ (State.reset.raise .length).errFlag = true := by
  refine ⟨rfl, by decide⟩

/-- SequenceChangesOnlyInDecode: SEQ[0] was 0 and is 5 after the DECODE. -/
theorem witness_SequenceChanges :
    ∃ t, exec .decodeOvl { withCont vOvl1 with seq := [(0, 0#32)] } = .next t ∧
      t.seqWord 0 ≠ ({ withCont vOvl1 with seq := [(0, 0#32)] } : State).seqWord 0 := by
  refine ⟨_, rfl, ?_⟩
  decide +kernel

/-- CommandsChangeOnlyTheirWriteSet, each word clause at its first word: a WRFIELD of words 0 and 1 (word 2 is
outside), an ENCODE that succeeded with CLEN 10, a DECODE that succeeded with RESULT 8; and a command that failed. -/
theorem witness_WriteSet : (28 + 8 - 1) / 32 < 2 ∧
    (∃ t, exec .wrfield (withField [0#32, 0#32] 28#32 8#32 0x5A#32) = .next t ∧ t.errFlag = false) ∧
    (withSeq s8).cfg.Valid ∧
    (∃ t, exec .encodeOvl (withSeq s8) = .next t ∧ t.errFlag = false ∧ t.clen.toNat ≤ 10) ∧
    (∃ t, exec .decodeOvl (withCont vOvl1) = .next t ∧ t.errFlag = false ∧ t.result.toNat ≤ 8) ∧
    ∃ t, exec .decodeNov (withCont vOvl1) = .next t ∧ t.errFlag = true := by
  refine ⟨by decide, ⟨_, rfl, ?_⟩, by decide, ⟨_, rfl, ?_⟩, ⟨_, rfl, ?_⟩, _, rfl, ?_⟩ <;> decide +kernel

/-- ContainerCommandsReadOnlyContainer: two states that differ in everything a DECODE or PARSE does not read, ARG_I
among them. -/
theorem witness_ReadOnlyContainer : containerSelector .decodeOvl ≠ none ∧
    ∃ s' : State, s' = { withCont vOvl1 with pN := 3#32, status := 4#32, argI := 5#32, seq := [(0, 9#32)] } ∧
      s'.cfg = (withCont vOvl1).cfg ∧ s'.epoch = (withCont vOvl1).epoch ∧ s'.cont = (withCont vOvl1).cont ∧
      s'.clen = (withCont vOvl1).clen ∧ s'.argI ≠ (withCont vOvl1).argI :=
  ⟨by decide, _, rfl, rfl, rfl, rfl, rfl, by decide⟩

/-- The same for a GET, whose ARG_I is the same in both. -/
theorem witness_ReadOnlyContainer_get : containerSelector .getOvl ≠ none ∧
    ∃ s' : State, s' = { withCont vOvl1 with pN := 3#32, status := 4#32, seq := [(0, 9#32)] } ∧
      s'.cfg = (withCont vOvl1).cfg ∧ s'.epoch = (withCont vOvl1).epoch ∧ s'.cont = (withCont vOvl1).cont ∧
      s'.clen = (withCont vOvl1).clen ∧ s'.argI = (withCont vOvl1).argI ∧ s' ≠ withCont vOvl1 :=
  ⟨by decide, _, rfl, rfl, rfl, rfl, rfl, rfl, by decide +kernel⟩

theorem witness_OverflowBounds : (∀ v ∈ [2 ^ 32 - 1, 0], v < 2 ^ 32) ∧ [2 ^ 32 - 1, 0].length ≤ 2 ^ 31 := by decide

/-- OverflowThresholdSelects: a maximum of 1, and one of 2. -/
theorem witness_OverflowThreshold : maxOf [1, 0, 1] ≤ 1 ∧ 2 ≤ maxOf [2, 1] ∧ overflowTable 1 [2, 1] = [2] := by decide

/-- OverlapPayloadNeverLonger: widths that divide 32, and one that does not. -/
theorem witness_OverlapPayload : (1 ∣ 32) ∧ (32 ∣ 32) ∧ ¬ (20 ∣ 32) := by decide

/-- OverflowReferentialIntegrity and EncodedContainerValidates: ENCODE.OVF of S8; element 7 has its indicator 1,
element 6 has it 0. -/
theorem witness_EncodeSucceeds :
    ∃ t, exec .encodeOvf (withSeq s8) = .next t ∧ t.errFlag = false ∧
      (fieldRead t.contWord 9 (7 * 20) 20).testBit 19 = true ∧
      (fieldRead t.contWord 9 (6 * 20) 20).testBit 19 = false := by
  refine ⟨_, rfl, ?_⟩
  decide +kernel

/-- The round trips: the state each ENCODE leaves, with an index and whatever SEQ holds, meets the hypotheses. -/
theorem witness_RoundTrip (i : Instr) (h : i = .encodeOvl ∨ i = .encodeNov ∨ i = .encodeOvf) :
    ∃ t, exec i (withSeq s8) = .next t ∧
      ∃ u : State, u = { t with argI := 7#32, seq := [] } ∧ u.cfg = t.cfg ∧ u.epoch = t.epoch ∧ u.cont = t.cont ∧
        u.clen = t.clen ∧ u.argI.toNat < (withSeq s8).argN.toNat := by
  rcases h with rfl | rfl | rfl <;> exact ⟨_, rfl, _, rfl, rfl, rfl, rfl, rfl, by decide⟩

/-- StepKeepsInvariant: a state with a command pending, that meets the invariant and steps. -/
theorem witness_Invariant :
    (withOp (.wr 0x00 0x00000208#32)).Inv ∧ ∃ t, step (withOp (.wr 0x00 0x00000208#32)) = .next t := by
  refine ⟨⟨by decide, ⟨by decide, ?_, by decide, by decide, by decide⟩,
    ⟨by decide, by decide, by decide, by decide⟩, .inl (by decide)⟩, _, rfl⟩
  intro b _
  show (0#32).getLsbD b = false
  simp

end Sys2Proof.Tests
end

section
/-! PROOFS. The statements of 00_scope.md: the mask, the parameters, and the invariant of the block. A command's effect
is put into one of five forms (`Effect`), each form keeps the invariant, and so does every operation of the host. -/

namespace Sys2Proof.Machine

/-! ### The mask -/

/-- Settles O17: `2^w - 1` has its low w bits one. -/
theorem maskHasLowBitsOne : Obligations.MaskHasLowBitsOne := by
  intro w hw
  have hpow : 2 ^ w ≤ 2 ^ 32 := Nat.pow_le_pow_right (by decide) hw
  have hpos : 0 < 2 ^ w := Nat.two_pow_pos w
  exact ⟨by unfold mask; omega, Nat.testBit_two_pow_sub_one w⟩

/-! ### Headers the P registers can hold -/

/-- R75, R147: the header words that depend on the codec: none but the width for OVL and NOV, the overflow parameters
for OVF. -/
def CodecParameters (h : Header) : Prop :=
  match h.var with
  | .ovl => h.tb = 0 ∧ h.ib = 0 ∧ h.k = 0
  | .nov => h.tb = 0 ∧ h.ib = 0 ∧ h.k = 0
  | .ovf => 1 ≤ h.tb ∧ h.w = 1 + max h.tb h.ib

/-- R75, R77, R78, R147: a header the block can produce or accept, its container inside CONT. -/
structure PossibleHeader (cfg : Config) (h : Header) : Prop where
  tag_eq : h.tag = cfg.tag h.var
  count_lt : h.n < 2 ^ 32
  width_pos : 1 ≤ h.w
  width_le : h.w ≤ 32
  codec : CodecParameters h
  plen_eq : h.plen = payloadLength h.var h.n h.w
  len_eq : h.len = headerWords h.var + h.k + h.plen
  fits : h.len ≤ cfg.contWords

/-- The overflow parameters are no wider than a field (R127, R147). -/
theorem CodecParameters.bits_le {h : Header} (hp : CodecParameters h) : h.tb ≤ h.w ∧ h.ib ≤ h.w := by
  unfold CodecParameters at hp
  cases hv : h.var <;> simp only [hv] at hp <;> omega

/-- R150: LoadParams puts every value of a possible header into its register, none too large for a word. -/
theorem PossibleHeader.paramsAre_loadParams {cfg : Config} {h : Header} (hh : PossibleHeader cfg h)
    (hc : cfg.contWords ≤ 2 ^ 32 - 1) (s : State) : ParamsAre (s.loadParams h) h := by
  obtain ⟨htb, hib⟩ := hh.codec.bits_le
  have hw := hh.width_le
  have hlen := hh.len_eq
  have hfits := hh.fits
  exact ⟨rfl, toNat_wordOf hh.count_lt, toNat_wordOf (by omega), toNat_wordOf (by omega), toNat_wordOf (by omega),
    toNat_wordOf (by omega), toNat_wordOf (by omega)⟩

/-- P registers that hold a possible header meet their part of the invariant. -/
theorem PossibleHeader.paramsInv {t : State} {h : Header} (hh : PossibleHeader t.cfg h) (hp : ParamsAre t h) :
    ParamsInv t := by
  obtain ⟨htag, hn, hw, htb, hib, hk, hplen⟩ := hp
  obtain ⟨htag', -, hw1, hw32, hcodec, hplen', hlen, hfits⟩ := hh
  have hzero : ∀ {x : Word} {y : Nat}, x.toNat = y → y = 0 → x = 0#32 :=
    fun hx hy => BitVec.eq_of_toNat_eq (by simpa using hx.trans hy)
  unfold CodecParameters at hcodec
  rw [htag'] at htag
  refine .inr ⟨by omega, by omega, by omega, ?_⟩
  rw [hn, hw, htb, hib, hk, hplen]
  cases hv : h.var <;> simp only [hv] at hcodec htag hplen' hlen
  case ovl =>
    obtain ⟨h1, h2, h3⟩ := hcodec
    exact .inl ⟨htag, hzero htb h1, hzero hib h2, hzero hk h3, hplen'⟩
  case nov =>
    obtain ⟨h1, h2, h3⟩ := hcodec
    exact .inr (.inl ⟨htag, hzero htb h1, hzero hib h2, hzero hk h3, hplen'⟩)
  case ovf =>
    obtain ⟨h1, h2⟩ := hcodec
    exact .inr (.inr ⟨htag, h1, h2, hlen ▸ hfits, hplen'⟩)

/-- R148: a header the validator accepts is possible. -/
theorem validate_possibleHeader {s : State} {sel : Selector} {h : Header} (hv : validate s sel = .ok h) :
    PossibleHeader s.cfg h := by
  obtain ⟨v, hid, -, rfl, hok, hlen⟩ := validate_ok hv
  obtain ⟨-, hcap, -⟩ := checkIdentity_ok hid
  have hfits : (readHeader s v).len ≤ s.cfg.contWords := hlen ▸ hcap
  have hn : (s.contWord 3).toNat < 2 ^ 32 := (s.contWord 3).isLt
  cases v with
  | ovl =>
    obtain ⟨h1, h2⟩ := of_decide_eq_true hok
    exact ⟨rfl, hn, Nat.one_le_iff_ne_zero.mpr h1, h2, ⟨rfl, rfl, rfl⟩, rfl, rfl, hfits⟩
  | nov =>
    obtain ⟨h1, h2⟩ := of_decide_eq_true hok
    exact ⟨rfl, hn, Nat.one_le_iff_ne_zero.mpr h1, h2, ⟨rfl, rfl, rfl⟩, rfl, rfl, hfits⟩
  | ovf =>
    obtain ⟨h1, h2, h3⟩ := of_decide_eq_true hok
    exact ⟨rfl, hn, h2 ▸ Nat.le_add_right 1 _, h3, ⟨Nat.one_le_iff_ne_zero.mpr h1, h2⟩, rfl, rfl, hfits⟩

/-- R107, R117, R131: a header an ENCODE stored is possible. -/
theorem Stored.possibleHeader {s t : State} {h : Header} {table fields : List Nat} (hs : Stored s t h table fields)
    (hc : s.cfg.Valid) (hk : h.k = table.length) (hp : CodecParameters h) : PossibleHeader s.cfg h := by
  obtain ⟨-, hn, htag, hfits, henc, -⟩ := hs
  obtain ⟨hw1, hw32, hpbase, hplen, hlen, -⟩ := henc hc.2.1
  exact ⟨htag, hn ▸ s.argN.isLt, hw1, hw32, hp, hplen, by rw [hlen, hpbase, hk], hfits⟩

/-! ### The forms of a command's effect -/

/-- What a command that succeeded did. -/
inductive Effect (s t : State) : Prop where
  /-- BITLEN, WIDTH, RDFIELD: RESULT alone. -/
  | answered (r : Nat) (ht : t = s.complete r)
  /-- WRFIELD: a field of CONT. -/
  | fieldWritten (hf : checkField s = none)
      (ht : t = { s with
        cont := fieldWrite s.epoch s.cont 0 s.operandI s.operandW s.operandV }.completeNoResult)
  /-- ENCODE: a container in CONT. -/
  | stored (h : Header) (table fields : List Nat) (hs : Stored s t h table fields) (hk : h.k = table.length)
      (hp : CodecParameters h)
  /-- DECODE: a sequence in SEQ. -/
  | decoded (sel : Selector) (h : Header) (values : List Nat) (hd : Decoded s t sel h values)
  /-- GET, PARSE: the P registers and RESULT. -/
  | loaded (sel : Selector) (h : Header) (r : Nat) (hv : validate s sel = .ok h) (ht : t = (s.loadParams h).complete r)

theorem effect_of_fetched {s t : State} {sel : Selector} : (∃ h r, Fetched s t sel h r) → Effect s t
  | ⟨h, r, hv, _, ht⟩ => .loaded sel h r hv ht

theorem effect_of_parsed {s t : State} {sel : Selector} : (∃ h, Parsed s t sel h) → Effect s t
  | ⟨h, hv, ht⟩ => .loaded sel h _ hv ht

theorem effect_of_decoded {s t : State} {sel : Selector} : (∃ h values, Decoded s t sel h values) → Effect s t
  | ⟨h, values, hd⟩ => .decoded sel h values hd

/-- The effect of each command has one of the forms. -/
theorem Completed.effect {i : Instr} {s t : State} (h : Completed i s t) : Effect s t := by
  cases i with
  | bitlen => exact .answered _ h
  | width => exact .answered _ h.2
  | rdfield => exact .answered _ h.2
  | wrfield => exact .fieldWritten h.1 h.2
  | encodeOvl => exact .stored _ _ _ h rfl ⟨rfl, rfl, rfl⟩
  | encodeNov => exact .stored _ _ _ h rfl ⟨rfl, rfl, rfl⟩
  | encodeOvf => exact .stored _ _ _ h rfl ⟨thresholdBits_pos _, rfl⟩
  | decodeOvl => exact effect_of_decoded h
  | decodeNov => exact effect_of_decoded h
  | decodeOvf => exact effect_of_decoded h
  | decodeAuto => exact effect_of_decoded h
  | getOvl => exact effect_of_fetched h
  | getNov => exact effect_of_fetched h
  | getOvf => exact effect_of_fetched h
  | getAuto => exact effect_of_fetched h
  | parseOvl => exact effect_of_parsed h
  | parseNov => exact effect_of_parsed h
  | parseOvf => exact effect_of_parsed h
  | parseAuto => exact effect_of_parsed h

/-- A command that answers t reported an error or had an effect. -/
theorem exec_raise_or_effect {i : Instr} {s t : State} (h : exec i s = .next t) :
    (∃ e, t = s.raise e) ∨ Effect s t := by
  obtain ⟨t', ht', hcases⟩ := exec_cases i s
  cases ht'.symm.trans h
  exact hcases.imp (fun ⟨e, _, ht⟩ => ⟨e, ht⟩) Completed.effect

theorem Effect.cfg_eq {s t : State} (h : Effect s t) : t.cfg = s.cfg := by
  cases h with
  | answered r ht => subst ht; rfl
  | fieldWritten hf ht => subst ht; rfl
  | stored h table fields hs hk hp => obtain ⟨-, -, -, -, -, rfl⟩ := hs; rfl
  | decoded sel h values hd => obtain ⟨-, -, -, rfl⟩ := hd; rfl
  | loaded sel h r hv ht => subst ht; rfl

/-- R167: every effect ends in success. -/
theorem Effect.succeeded {s t : State} (h : Effect s t) : SucceededFrom s t := by
  cases h with
  | answered r ht => subst ht; exact succeeded_of_completed rfl rfl
  | fieldWritten hf ht => subst ht; exact succeeded_of_completed rfl rfl
  | stored h table fields hs hk hp => obtain ⟨-, -, -, -, -, rfl⟩ := hs; exact succeeded_of_completed rfl rfl
  | decoded sel h values hd => obtain ⟨-, -, -, rfl⟩ := hd; exact succeeded_of_completed rfl rfl
  | loaded sel h r hv ht => subst ht; exact succeeded_of_completed rfl rfl

/-! ### The parameters -/

theorem exec_cfg {i : Instr} {s t : State} (h : exec i s = .next t) : t.cfg = s.cfg := by
  rcases exec_raise_or_effect h with ⟨e, rfl⟩ | heff
  · rfl
  · exact heff.cfg_eq

@[simp] theorem State.writeReg_cfg (s : State) (r : Reg) (v : Word) : (s.writeReg r v).cfg = s.cfg := by
  cases r <;> rfl

theorem Performed.cfg_eq {u t : State} {op : HostOp} (h : Performed u t op) : t.cfg = u.cfg := by
  cases h with
  | read _ v _ ht => subst ht; rfl
  | writeReg i v r _ _ ht => subst ht; exact State.writeReg_cfg u r v
  | command k c i _ _ hexec => exact (exec_cfg hexec).trans (State.started_cfg u)
  | illegal k c _ _ ht => subst ht; rfl
  | writeSeq i v _ ht => subst ht; rfl
  | writeCont i v _ ht => subst ht; rfl
  | reset ht => subst ht; rfl

/-- Settles O16: no form of a step changes the parameters. -/
theorem parametersNeverChange : Obligations.ParametersNeverChange := by
  intro s t h
  rcases step_cases h with ⟨-, rfl⟩ | ⟨op, rest, -, -, hperf⟩
  · rfl
  · exact hperf.cfg_eq

/-! ### The three parts of the invariant after a command -/

/-- R23: the reserved bits of STATUS are zero. -/
def ReservedBitsZero (s : State) : Prop := ∀ b, 3 ≤ b → s.status.getLsbD b = false

theorem SucceededFrom.statusInv {s t : State} (h : SucceededFrom s t) (hr : ReservedBitsZero s) : StatusInv t := by
  obtain ⟨hbusy, herr, -, hrest, hcode⟩ := h
  exact ⟨hbusy, fun b hb => (hrest b hb).trans (hr b hb), by simp [herr, hcode], by simp [herr], by simp [hcode]⟩

theorem FailedFrom.statusInv {s t : State} {e : ErrCode} (h : FailedFrom s t e) (hr : ReservedBitsZero s) :
    StatusInv t := by
  obtain ⟨hbusy, herr, hsticky, hrest, hcode⟩ := h
  obtain ⟨hne, hle⟩ := e.code_bounds
  exact ⟨hbusy, fun b hb => (hrest b hb).trans (hr b hb), by simp only [herr, hcode, true_iff]; exact hne,
    fun _ => hsticky, hcode ▸ hle⟩

/-- R34, R35, R53: no effect writes a word outside a memory. -/
theorem Effect.memoryInv {s t : State} (h : Effect s t) (hc : s.cfg.Valid) (hm : MemoryInv s) : MemoryInv t := by
  obtain ⟨hswf, hcwf, hsin, hcin⟩ := hm
  cases h with
  | answered r ht => subst ht; exact ⟨hswf, hcwf, hsin, hcin⟩
  | fieldWritten hf ht =>
    subst ht
    obtain ⟨hw, -, hlast⟩ := checkField_none hf
    exact ⟨hswf, fieldWrite_wf _ hcwf _ _ _ _, hsin,
      fieldWrite_inBounds _ hcin _ _ _ _ hw (by rw [Nat.zero_add]; exact hlast)⟩
  | stored h table fields hs hk hp =>
    obtain ⟨-, -, -, hfits, henc, rfl⟩ := hs
    exact ⟨hswf, writeContainer_wf _ _ _ _ _ hcwf, hsin, writeContainer_inBounds _ _ (henc hc.2.1) hcin hfits⟩
  | decoded sel h values hd =>
    obtain ⟨-, hn, hl, rfl⟩ := hd
    exact ⟨Memory.writeList_wf _ hswf _, hcwf, Memory.writeList_inBounds _ hsin _ (by simpa [hl] using hn), hcin⟩
  | loaded sel h r hv ht => subst ht; exact ⟨hswf, hcwf, hsin, hcin⟩

/-- R150: an effect leaves the P registers as they are, or loads a possible header. -/
theorem Effect.paramsInv {s t : State} (h : Effect s t) (hc : s.cfg.Valid) (hp : ParamsInv s) : ParamsInv t := by
  have hload : ∀ {h : Header} (u : State) (r : Nat), u.cfg = s.cfg → PossibleHeader s.cfg h →
      ParamsInv ((u.loadParams h).complete r) := fun u r hu hh =>
    PossibleHeader.paramsInv (t := (u.loadParams _).complete r) (hu ▸ hh) (hh.paramsAre_loadParams hc.2.2.2.1 u)
  cases h with
  | answered r ht => subst ht; exact hp
  | fieldWritten hf ht => subst ht; exact hp
  | stored h table fields hs hk hcodec =>
    have hh := hs.possibleHeader hc hk hcodec
    obtain ⟨-, -, -, -, -, rfl⟩ := hs
    exact hload _ _ rfl hh
  | decoded sel h values hd =>
    obtain ⟨hv, -, -, rfl⟩ := hd
    exact hload _ _ rfl (validate_possibleHeader hv)
  | loaded sel h r hv ht =>
    subst ht
    exact hload _ _ rfl (validate_possibleHeader hv)

/-! ### The invariant -/

/-- The invariant while a command runs, when BUSY is 1 and ERR is an earlier command's: of STATUS and ERRCODE, only
that the reserved bits are zero. -/
def RunningInv (s : State) : Prop :=
  s.cfg.Valid ∧ ReservedBitsZero s ∧ MemoryInv s ∧ ParamsInv s

theorem State.Inv.started {s : State} (h : s.Inv) : RunningInv s.started := by
  obtain ⟨hc, ⟨-, hr, -⟩, hm, hp⟩ := h
  refine ⟨hc, fun b hb => ?_, hm, hp⟩
  rw [State.started_status, getLsbD_statusStarted, if_neg (by omega)]
  exact hr b hb

theorem RunningInv.raise {s : State} (h : RunningInv s) (e : ErrCode) : (s.raise e).Inv := by
  obtain ⟨hc, hr, hm, hp⟩ := h
  exact ⟨hc, (onlyErrorReported_raise s e).1.statusInv hr, hm, hp⟩

theorem RunningInv.effect {s t : State} (h : RunningInv s) (heff : Effect s t) : t.Inv := by
  obtain ⟨hc, hr, hm, hp⟩ := h
  exact ⟨heff.cfg_eq ▸ hc, heff.succeeded.statusInv hr, heff.memoryInv hc hm, heff.paramsInv hc hp⟩

/-- Whatever the command, its end meets the invariant. -/
theorem RunningInv.exec {i : Instr} {s t : State} (h : RunningInv s) (hexec : exec i s = .next t) : t.Inv := by
  rcases exec_raise_or_effect hexec with ⟨e, rfl⟩ | heff
  · exact h.raise e
  · exact h.effect heff

/-- The invariant is about no register the host can write. -/
theorem writeReg_inv_iff (s : State) (r : Reg) (v : Word) : (s.writeReg r v).Inv ↔ s.Inv := by
  cases r <;> rfl

theorem statusInv_of_zero {s : State} (hst : s.status = 0#32) (hcode : s.errcode = 0#32) : StatusInv s := by
  have hbit : ∀ b, s.status.getLsbD b = false := fun b => hst ▸ BitVec.getLsbD_zero
  have herr : s.errFlag = false := hbit 1
  exact ⟨hbit 0, fun b _ => hbit b, by simp [herr, hcode], by simp [herr], by simp [hcode]⟩

theorem Memory.nil_inBounds (n : Nat) : Memory.inBounds [] n := fun _ hcell => absurd hcell List.not_mem_nil

/-- R190, R191: the state after reset. -/
theorem resetWith_inv {c : Config} (hc : c.Valid) : (State.resetWith c).Inv := by
  exact ⟨hc, statusInv_of_zero rfl rfl, ⟨Memory.nil_wf, Memory.nil_wf, Memory.nil_inBounds _, Memory.nil_inBounds _⟩,
    .inl ⟨rfl, rfl, rfl, rfl, rfl, rfl, rfl⟩⟩

/-- Every operation of the host keeps the invariant. -/
theorem Performed.inv {u t : State} {op : HostOp} (h : Performed u t op) (hu : u.Inv) : t.Inv := by
  cases h with
  | read _ v _ ht => subst ht; exact hu
  | writeReg i v r _ _ ht => subst ht; exact (writeReg_inv_iff u r v).mpr hu
  | command k c i _ _ hexec => exact hu.started.exec hexec
  | illegal k c _ _ ht => subst ht; exact hu.started.raise _
  | writeSeq i v hi ht =>
    subst ht
    obtain ⟨hc, hst, ⟨hswf, hcwf, hsin, hcin⟩, hp⟩ := hu
    exact ⟨hc, hst, ⟨Memory.write_wf hswf i v, hcwf, Memory.write_inBounds hsin hi v, hcin⟩, hp⟩
  | writeCont i v hi ht =>
    subst ht
    obtain ⟨hc, hst, ⟨hswf, hcwf, hsin, hcin⟩, hp⟩ := hu
    exact ⟨hc, hst, ⟨hswf, Memory.write_wf hcwf i v, hsin, Memory.write_inBounds hcin hi v⟩, hp⟩
  | reset ht => subst ht; exact resetWith_inv hu.1

/-- Settles O59: with nothing pending the state stays, and every operation of the host keeps the invariant. -/
theorem stepKeepsInvariant : Obligations.StepKeepsInvariant := by
  intro s t hs h
  rcases step_cases h with ⟨-, rfl⟩ | ⟨op, rest, -, -, hperf⟩
  · exact hs
  · exact hperf.inv hs

/-- Settles O60: `State.reset` is the state after reset of P0, whose parameters meet R9. -/
theorem resetMeetsInvariant : Obligations.ResetMeetsInvariant :=
  ⟨fun _ hc => resetWith_inv hc, resetWith_inv (by decide)⟩

end Sys2Proof.Machine
end

section
/-! PROOFS. The statements of 10_state.md: the host port, STATUS.STICKY, the frame of every command, and what the
container commands read. One rule for each operation of the host comes first; the frames follow from the two ways a
command can end. -/

namespace Sys2Proof.Machine

/-! ### The register map -/

/-- R33: the slots 0x14 to 0x1F. -/
theorem regAt_reserved {i : Nat} (h1 : 0x14 ≤ i) (h2 : i ≤ 0x1F) : regAt i = some .reserved := by
  interval_cases i <;> rfl

/-- R53: no register stands at 0x20 or above. -/
theorem regAt_outside {i : Nat} (h : 0x20 ≤ i) : regAt i = none := by
  unfold regAt
  split
  any_goals omega
  exact if_neg (by omega)

/-- R21: index by index, the register there reads as its entry of the column. -/
theorem exists_regAt_readReg (s : State) {i : Nat} (h : i < 0x20) :
    ∃ r, regAt i = some r ∧ s.readReg r = (registerColumn s).getD i 0#32 := by
  interval_cases i <;> exact ⟨_, rfl, rfl⟩

/-- R21: index by index, a write of the register there stores the word or is ignored; only index 0 is CMD. -/
theorem exists_regAt_writeReg (u : State) (v : Word) {i : Nat} (h1 : 1 ≤ i) (h : i < 0x20) :
    ∃ r, regAt i = some r ∧ r ≠ .cmd ∧ u.writeReg r v =
      if i = 0x03 then { u with argN := v }
      else if i = 0x04 then { u with argI := v }
      else if i = 0x05 then { u with argW := v }
      else if i = 0x06 then { u with argV := v }
      else if i = 0x08 then { u with clen := v }
      else u := by
  interval_cases i <;> exact ⟨_, rfl, by decide, rfl⟩

/-! ### One rule for each operation of the host -/

theorem perform_rd (u : State) {i : Nat} {r : Reg} (hr : regAt i = some r) :
    u.perform (.rd i) = .next (u.returnWord (u.readReg r)) := by
  simp only [State.perform, hr]

theorem perform_wr (u : State) (v : Word) {i : Nat} {r : Reg} (hr : regAt i = some r) (hcmd : r ≠ .cmd) :
    u.perform (.wr i v) = .next (u.writeReg r v) := by
  simp only [State.perform, hr]
  cases r
  case cmd => exact absurd rfl hcmd
  all_goals rfl

/-- R22, R66: a write to CMD of a word that selects a command. -/
theorem perform_cmd (u : State) {c : Word} {i : Instr} (hc : decode c = .ok i) :
    u.perform (.wr 0x00 c) = exec i u.started := by
  show u.runCommandWord c = _
  simp only [State.runCommandWord, hc]

theorem perform_rd_outside (u : State) {i : Nat} (hi : 0x20 ≤ i) :
    u.perform (.rd i) = .refused (.regIndexOutside i) := by
  simp only [State.perform, regAt_outside hi]

theorem perform_wr_outside (u : State) (v : Word) {i : Nat} (hi : 0x20 ≤ i) :
    u.perform (.wr i v) = .refused (.regIndexOutside i) := by
  simp only [State.perform, regAt_outside hi]

theorem perform_wseq {u : State} {i : Nat} (v : Word) (hi : i < u.cfg.seqWords) :
    u.perform (.wseq i v) = .next { u with seq := u.seq.write i v } := if_pos hi

theorem perform_wcont {u : State} {i : Nat} (v : Word) (hi : i < u.cfg.contWords) :
    u.perform (.wcont i v) = .next { u with cont := u.cont.write i v } := if_pos hi

theorem perform_rseq {u : State} {i : Nat} (hi : i < u.cfg.seqWords) :
    u.perform (.rseq i) = .next (u.returnWord (u.seqWord i)) := if_pos hi

theorem perform_rcont {u : State} {i : Nat} (hi : i < u.cfg.contWords) :
    u.perform (.rcont i) = .next (u.returnWord (u.contWord i)) := if_pos hi

/-- R192: a reset is performed whether the block is busy or not. -/
theorem step_reset {s : State} {rest : List HostOp} (hp : s.pending = .reset :: rest) :
    step s = .next (State.resetBlock { s with pending := rest }) := by
  simp [step, State.serveHost, hp, HostOp.allowedWhileBusy, State.perform]

/-! ### The host port -/

/-- Settles O4: starting a command is setting bit 0 of STATUS. -/
theorem stepRunsDecodedCommand : Obligations.StepRunsDecodedCommand := by
  intro s c i rest hp hb hc
  rw [step_perform hp hb, perform_cmd _ hc]
  rfl

/-- Settles O5: the register at each index reads as its entry of the column. -/
theorem hostReadReturnsEveryRegister : Obligations.HostReadReturnsEveryRegister := by
  intro s i rest hp hb hi
  obtain ⟨r, hr, hread⟩ := exists_regAt_readReg { s with pending := rest } hi
  rw [step_perform hp hb, perform_rd _ hr, hread]
  rfl

/-- Settles O6: the register at each index stores the word or ignores it. -/
theorem hostWriteStoresOnlyRwRegisters : Obligations.HostWriteStoresOnlyRwRegisters := by
  intro s i v rest hp hb h1 hi
  obtain ⟨r, hr, hcmd, hwrite⟩ := exists_regAt_writeReg { s with pending := rest } v h1 hi
  rw [step_perform hp hb, perform_wr _ v hr hcmd, hwrite]

/-- Settles O7: the slots from 0x14 to 0x1F are `Reg.reserved`, and there is none above. -/
theorem reservedRegistersReadZeroIgnoreWrites : Obligations.ReservedRegistersReadZeroIgnoreWrites := by
  intro s i v rest hb
  refine ⟨fun h1 h2 hp => ?_, fun h1 h2 hp => ?_, fun hi hp => ?_⟩
  · rw [step_perform hp hb, perform_rd _ (regAt_reserved h1 h2)]
    rfl
  · rw [step_perform hp hb, perform_wr _ v (regAt_reserved h1 h2) (by decide)]
    rfl
  · rcases hp with hp | hp
    · rw [step_perform hp hb, perform_rd_outside _ hi]
    · rw [step_perform hp hb, perform_wr_outside _ v hi]

/-- Settles O8: each access by its rule, the words after a write by `Memory.word_write`. -/
theorem hostMemoryAccessMovesOneWord : Obligations.HostMemoryAccessMovesOneWord := by
  intro s i v rest hb
  refine ⟨fun hp hi => ?_, fun hp hi => ?_, fun hp hi => ?_, fun hp hi => ?_⟩
  · refine ⟨_, (step_perform hp hb).trans (perform_wseq v hi), rfl, fun j => ?_⟩
    exact (Memory.word_write s.seq s.epoch .seq i j v).trans (if_congr eq_comm rfl rfl)
  · refine ⟨_, (step_perform hp hb).trans (perform_wcont v hi), rfl, fun j => ?_⟩
    exact (Memory.word_write s.cont s.epoch .cont i j v).trans (if_congr eq_comm rfl rfl)
  · exact (step_perform hp hb).trans (perform_rseq hi)
  · exact (step_perform hp hb).trans (perform_rcont hi)

/-- Settles O13: reset empties both memories and counts the epoch on. -/
theorem resetLeavesMemoriesUnspecified : Obligations.ResetLeavesMemoriesUnspecified := by
  intro s rest hp
  exact ⟨_, step_reset hp, rfl, rfl, rfl, rfl, fun i => rfl, fun i => rfl⟩

/-! ### STICKY -/

/-- R167, R168: success keeps STICKY and an error sets it. -/
theorem exec_sticky {i : Instr} {s t : State} (h : exec i s = .next t) (hs : s.stickyFlag = true) :
    t.stickyFlag = true := by
  rcases exec_raise_or_effect h with ⟨e, rfl⟩ | heff
  · obtain ⟨⟨-, -, hsticky, -⟩, -⟩ := onlyErrorReported_raise s e
    exact hsticky
  · obtain ⟨-, -, hsticky, -⟩ := heff.succeeded
    exact hsticky.trans hs

theorem State.started_stickyFlag (s : State) : s.started.stickyFlag = s.stickyFlag := by
  rw [State.stickyFlag, State.started_status, getLsbD_statusStarted]
  rfl

@[simp] theorem State.writeReg_status (s : State) (r : Reg) (v : Word) : (s.writeReg r v).status = s.status := by
  cases r <;> rfl

/-- R192: every operation but reset keeps a STICKY of 1. -/
theorem Performed.sticky {u t : State} {op : HostOp} (h : Performed u t op) (hop : op ≠ .reset)
    (hu : u.stickyFlag = true) : t.stickyFlag = true := by
  have hst : u.started.stickyFlag = true := (State.started_stickyFlag u).trans hu
  cases h with
  | read _ v _ ht => subst ht; exact hu
  | writeReg i v r _ _ ht => subst ht; rwa [State.stickyFlag, State.writeReg_status]
  | command k c i _ _ hexec => exact exec_sticky hexec hst
  | illegal k c _ _ ht =>
    subst ht
    obtain ⟨⟨-, -, hsticky, -⟩, -⟩ := onlyErrorReported_raise u.started .illegalCmd
    exact hsticky
  | writeSeq i v _ ht => subst ht; exact hu
  | writeCont i v _ ht => subst ht; exact hu
  | reset _ => exact absurd rfl hop

/-- Settles O15: by the forms of a step; reset sets STATUS to 0. -/
theorem onlyResetClearsSticky : Obligations.OnlyResetClearsSticky := by
  intro s t op rest hp h
  refine ⟨fun hop hs => ?_, fun hop => ?_⟩
  · rcases step_cases h with ⟨hnil, -⟩ | ⟨op', rest', hp', -, hperf⟩
    · rw [hp] at hnil
      cases hnil
    · rw [hp] at hp'
      cases hp'
      exact hperf.sticky hop hs
  · subst hop
    rw [step_reset hp] at h
    cases h
    exact BitVec.getLsbD_zero

/-! ### The frame of every command -/

/-- A command that answers t reported an error or had its own effect. -/
theorem exec_raise_or_completed {i : Instr} {s t : State} (h : exec i s = .next t) :
    (∃ e, t = s.raise e) ∨ Completed i s t := by
  obtain ⟨t', ht', hcases⟩ := exec_cases i s
  cases ht'.symm.trans h
  exact hcases.imp_left fun ⟨e, _, ht⟩ => ⟨e, ht⟩

/-- Settles O45: the two ends of a command. -/
theorem commandsEndInSuccessOrReportedError : Obligations.CommandsEndInSuccessOrReportedError := by
  intro i s
  obtain ⟨t, ht, ⟨e, -, rfl⟩ | hdone⟩ := exec_cases i s
  · exact ⟨_, ht, .inr ⟨e, onlyErrorReported_raise s e⟩⟩
  · exact ⟨t, ht, .inl hdone.effect.succeeded⟩

/-- R168: a command that left ERR 1 changed nothing but STATUS and ERRCODE. -/
theorem exec_errorFrame {i : Instr} {s t : State} (h : exec i s = .next t) (herr : t.errFlag = true) :
    ErrorFrame s t := by
  rcases exec_raise_or_effect h with ⟨e, rfl⟩ | heff
  · exact (onlyErrorReported_raise s e).2
  · rw [succeeded_errFlag heff.succeeded] at herr
    cases herr

section Frames

variable {s t : State}

/-- The frame of a command that answers RESULT alone. -/
theorem resultFrame_of_complete (h : (∃ e, t = s.raise e) ∨ ∃ r, t = s.complete r) : ResultFrame s t := by
  rcases h with ⟨e, rfl⟩ | ⟨r, rfl⟩ <;> rfl

/-- The frame of WRFIELD: CONT, and of it the words its field lies in. -/
theorem fieldFrame_of_completed (h : (∃ e, t = s.raise e) ∨ Completed .wrfield s t) :
    FieldFrame s t ∧
      ∀ j, (j < s.argI.toNat / 32 ∨ (s.argI.toNat + s.argW.toNat - 1) / 32 < j) →
        t.contWord j = s.contWord j := by
  rcases h with ⟨e, rfl⟩ | ⟨hf, rfl⟩
  · exact ⟨rfl, fun j _ => rfl⟩
  · obtain ⟨hw, hw32, -⟩ := checkField_none hf
    exact ⟨rfl, fun j hj => word_fieldWrite_outside s.epoch s.cont 0 _ _ _ hw hw32 (by simpa using hj)⟩

/-- The frame of an ENCODE: a container in CONT, CLEN, the P registers and RESULT. -/
theorem encodeFrame_of_stored {h : Header} {table fields : List Nat}
    (hend : (∃ e, t = s.raise e) ∨ Stored s t h table fields) :
    EncodeFrame s t ∧
      (s.cfg.Valid → t.errFlag = false → ∀ j, t.clen.toNat ≤ j → t.contWord j = s.contWord j) := by
  rcases hend with ⟨e, rfl⟩ | hs
  · exact ⟨rfl, fun _ _ j _ => rfl⟩
  · refine ⟨?_, fun hc _ j hj => hs.contWord_above hc hj⟩
    obtain ⟨-, -, -, -, -, rfl⟩ := hs
    rfl

/-- The frame of a DECODE: a sequence in SEQ, the P registers and RESULT. -/
theorem decodeFrame_of_decoded {sel : Selector}
    (hend : (∃ e, t = s.raise e) ∨ ∃ h values, Decoded s t sel h values) :
    DecodeFrame s t ∧ (t.errFlag = false → ∀ j, t.result.toNat ≤ j → t.seqWord j = s.seqWord j) := by
  rcases hend with ⟨e, rfl⟩ | ⟨h, values, hd⟩
  · exact ⟨rfl, fun _ j _ => rfl⟩
  · refine ⟨?_, fun _ j hj => hd.seqWord_above hj⟩
    obtain ⟨-, -, -, rfl⟩ := hd
    rfl

/-- The frame of a GET: the P registers and RESULT. -/
theorem parseFrame_of_fetched {sel : Selector} (hend : (∃ e, t = s.raise e) ∨ ∃ h r, Fetched s t sel h r) :
    ParseFrame s t := by
  rcases hend with ⟨e, rfl⟩ | ⟨h, r, -, -, rfl⟩ <;> rfl

/-- The frame of a PARSE: the P registers and RESULT. -/
theorem parseFrame_of_parsed {sel : Selector} (hend : (∃ e, t = s.raise e) ∨ ∃ h, Parsed s t sel h) :
    ParseFrame s t := by
  rcases hend with ⟨e, rfl⟩ | ⟨h, -, rfl⟩ <;> rfl

end Frames

/-- Settles O47: command by command, the frame of its kind. -/
theorem commandsChangeOnlyTheirWriteSet : Obligations.CommandsChangeOnlyTheirWriteSet := by
  intro i s t h
  refine ⟨exec_errorFrame h, ?_⟩
  have hend := exec_raise_or_completed h
  cases i with
  | bitlen => exact resultFrame_of_complete (hend.imp_right fun ht => ⟨_, ht⟩)
  | width | rdfield => exact resultFrame_of_complete (hend.imp_right fun ⟨_, ht⟩ => ⟨_, ht⟩)
  | wrfield => exact fieldFrame_of_completed hend
  | encodeOvl | encodeNov | encodeOvf => exact encodeFrame_of_stored hend
  | decodeOvl | decodeNov | decodeOvf | decodeAuto => exact decodeFrame_of_decoded hend
  | getOvl | getNov | getOvf | getAuto => exact parseFrame_of_fetched hend
  | parseOvl | parseNov | parseOvf | parseAuto => exact parseFrame_of_parsed hend

/-! ### SEQ -/

/-- The DECODE commands. -/
abbrev IsDecode (i : Instr) : Prop := i = .decodeOvl ∨ i = .decodeNov ∨ i = .decodeOvf ∨ i = .decodeAuto

/-- The GET commands. -/
abbrev IsGet (i : Instr) : Prop := i = .getOvl ∨ i = .getNov ∨ i = .getOvf ∨ i = .getAuto

/-- R34: a command that changed a word of SEQ is a DECODE, by the frames of the others. -/
theorem isDecode_of_seqWord_ne {i : Instr} {s t : State} {j : Nat} (h : exec i s = .next t)
    (hne : t.seqWord j ≠ s.seqWord j) : IsDecode i := by
  obtain ⟨-, hframe⟩ := commandsChangeOnlyTheirWriteSet i s t h
  cases i with
  | decodeOvl | decodeNov | decodeOvf | decodeAuto => decide
  | wrfield | encodeOvl | encodeNov | encodeOvf =>
    obtain ⟨hframe, -⟩ := hframe
    exact absurd (congrArg (State.seqWord · j) hframe) hne
  | bitlen | width | rdfield | getOvl | getNov | getOvf | getAuto | parseOvl | parseNov | parseOvf | parseAuto =>
    exact absurd (congrArg (State.seqWord · j) hframe) hne

/-- A DECODE's own effect, whatever it asks of the container. -/
theorem Completed.decoded {i : Instr} {s t : State} (h : Completed i s t) (hi : IsDecode i) :
    ∃ sel hd values, Decoded s t sel hd values := by
  rcases hi with rfl | rfl | rfl | rfl <;> exact ⟨_, h⟩

/-- R109: the element count a DECODE answers is at most SEQ_WORDS. -/
theorem Decoded.result_le {s t : State} {sel : Selector} {h : Header} {values : List Nat}
    (hd : Decoded s t sel h values) : t.result.toNat ≤ s.cfg.seqWords := by
  obtain ⟨-, hn, -, rfl⟩ := hd
  calc (wordOf h.n).toNat = h.n % 2 ^ 32 := BitVec.toNat_ofNat _ _
    _ ≤ h.n := Nat.mod_le _ _
    _ ≤ s.cfg.seqWords := hn

/-- Settles O48: an error changes no word, another command than DECODE none, and a DECODE none from RESULT on. -/
theorem sequenceChangesOnlyInDecode : Obligations.SequenceChangesOnlyInDecode := by
  intro i s t j h hne
  have hi := isDecode_of_seqWord_ne h hne
  rcases exec_raise_or_completed h with ⟨e, rfl⟩ | hdone
  · exact absurd rfl hne
  · obtain ⟨sel, hd, values, hdec⟩ := hdone.decoded hi
    refine ⟨hi, succeeded_errFlag hdone.effect.succeeded, ?_, hdec.result_le⟩
    exact Nat.lt_of_not_le fun hj => hne (hdec.seqWord_above hj)

/-! ### What the container commands read -/

/-- R44: two states with the same container: the parameters, the unspecified words, CONT and CLEN agree. -/
structure SameContainer (s s' : State) : Prop where
  cfg : s'.cfg = s.cfg
  epoch : s'.epoch = s.epoch
  cont : s'.cont = s.cont
  clen : s'.clen = s.clen

/-- A command ended the same on two states: in the same error, or with the same header, RESULT and, for a DECODE,
decoded values. -/
inductive SameEnd (i : Instr) (s s' : State) :
    Host.Outcome State Fault Refusal → Host.Outcome State Fault Refusal → Prop where
  /-- an error -/
  | raised (e : ErrCode) : SameEnd i s s' (.next (s.raise e)) (.next (s'.raise e))
  /-- a DECODE -/
  | decoded (h : Header) (values : List Nat) (hl : values.length = h.n) :
      SameEnd i s s' (.next (((s.storeSequence values).loadParams h).complete h.n))
        (.next (((s'.storeSequence values).loadParams h).complete h.n))
  /-- a GET or PARSE -/
  | loaded (h : Header) (r : Nat) (hi : ¬ IsDecode i) :
      SameEnd i s s' (.next ((s.loadParams h).complete r)) (.next ((s'.loadParams h).complete r))

/-- How a command goes on that validates the container first (R143): with the error, or on the accepted header. -/
def afterValidation (sel : Selector) (body : State → Header → Except ErrCode State) (s : State) :
    Host.Outcome State Fault Refusal :=
  match validate s sel with
  | .error e => .next (s.raise e)
  | .ok h => s.finish (body s h)

/-! R109, R111, R119, R121, R134, R136: the commands of one variant that validate the container first. -/

theorem exec_decodeOvl (s : State) : exec .decodeOvl s = afterValidation (.only .ovl) decodeOverlap s := rfl
theorem exec_decodeNov (s : State) : exec .decodeNov s = afterValidation (.only .nov) decodeNonOverlap s := rfl
theorem exec_decodeOvf (s : State) : exec .decodeOvf s = afterValidation (.only .ovf) decodeOverflow s := rfl
theorem exec_getOvl (s : State) : exec .getOvl s = afterValidation (.only .ovl) getOverlap s := rfl
theorem exec_getNov (s : State) : exec .getNov s = afterValidation (.only .nov) getNonOverlap s := rfl
theorem exec_getOvf (s : State) : exec .getOvf s = afterValidation (.only .ovf) getOverflow s := rfl

namespace SameContainer

variable {i : Instr} {s s' : State} (hs : SameContainer s s')
include hs

theorem contWord_eq : s'.contWord = s.contWord := by
  funext j
  simp only [State.contWord, hs.cont, hs.epoch]

theorem checkIdentity_eq (sel : Selector) : checkIdentity s' sel = checkIdentity s sel := by
  unfold checkIdentity State.operandLen
  rw [hs.contWord_eq, hs.cfg, hs.clen]

theorem readHeader_eq : readHeader s' = readHeader s := by
  funext v
  unfold readHeader
  rw [hs.contWord_eq, hs.cfg]

/-- R144 to R148: the validator reads the container alone. -/
theorem validate_eq (sel : Selector) : validate s' sel = validate s sel := by
  unfold validate State.operandLen
  rw [hs.checkIdentity_eq, hs.readHeader_eq, hs.clen]

theorem overlapElement_eq : overlapElement s' = overlapElement s := by
  funext h j
  simp only [overlapElement, hs.contWord_eq]

theorem nonOverlapElement_eq : nonOverlapElement s' = nonOverlapElement s := by
  funext h j
  simp only [nonOverlapElement, hs.contWord_eq]

theorem readOverflow_eq : readOverflow s' = readOverflow s := by
  funext h j
  simp only [readOverflow, hs.contWord_eq]

theorem readOverflowAll_eq (h : Header) (is : List Nat) : readOverflowAll s' h is = readOverflowAll s h is := by
  induction is with
  | nil => rfl
  | cons j is ih => simp only [readOverflowAll, hs.readOverflow_eq, ih]

theorem decodeOverlap_sameEnd (h : Header) :
    SameEnd i s s' (s.finish (decodeOverlap s h)) (s'.finish (decodeOverlap s' h)) := by
  unfold decodeOverlap
  rw [hs.cfg, hs.overlapElement_eq]
  split
  · exact .raised _
  · exact .decoded h _ (by simp)

theorem decodeNonOverlap_sameEnd (h : Header) :
    SameEnd i s s' (s.finish (decodeNonOverlap s h)) (s'.finish (decodeNonOverlap s' h)) := by
  unfold decodeNonOverlap
  rw [hs.cfg, hs.nonOverlapElement_eq]
  split
  · exact .raised _
  · exact .decoded h _ (by simp)

theorem decodeOverflow_sameEnd (h : Header) :
    SameEnd i s s' (s.finish (decodeOverflow s h)) (s'.finish (decodeOverflow s' h)) := by
  unfold decodeOverflow
  rw [hs.cfg, hs.readOverflowAll_eq]
  split
  · exact .raised _
  · cases hr : readOverflowAll s h (List.range h.n) with
    | error e => exact .raised e
    | ok values => exact .decoded h values (by simpa using (readOverflowAll_ok hr).1)

theorem getOverlap_sameEnd (hi : ¬ IsDecode i) (hI : s'.argI = s.argI) (h : Header) :
    SameEnd i s s' (s.finish (getOverlap s h)) (s'.finish (getOverlap s' h)) := by
  simp only [getOverlap, State.operandI, hI, hs.overlapElement_eq]
  split
  · exact .raised _
  · exact .loaded h _ hi

theorem getNonOverlap_sameEnd (hi : ¬ IsDecode i) (hI : s'.argI = s.argI) (h : Header) :
    SameEnd i s s' (s.finish (getNonOverlap s h)) (s'.finish (getNonOverlap s' h)) := by
  simp only [getNonOverlap, State.operandI, hI, hs.nonOverlapElement_eq]
  split
  · exact .raised _
  · exact .loaded h _ hi

theorem getOverflow_sameEnd (hi : ¬ IsDecode i) (hI : s'.argI = s.argI) (h : Header) :
    SameEnd i s s' (s.finish (getOverflow s h)) (s'.finish (getOverflow s' h)) := by
  simp only [getOverflow, State.operandI, hI, hs.readOverflow_eq]
  split
  · exact .raised _
  · cases readOverflow s h s.argI.toNat with
    | error e => exact .raised e
    | ok v => exact .loaded h v hi

theorem parseContainer_sameEnd (hi : ¬ IsDecode i) (sel : Selector) :
    SameEnd i s s' (s.finish (parseContainer s sel)) (s'.finish (parseContainer s' sel)) := by
  simp only [parseContainer, hs.validate_eq]
  cases validate s sel with
  | error e => exact .raised e
  | ok h => exact .loaded h _ hi

/-- A command that validates the container ends the same if its body does. -/
theorem afterValidation_sameEnd {body : State → Header → Except ErrCode State} (sel : Selector)
    (hbody : ∀ h, SameEnd i s s' (s.finish (body s h)) (s'.finish (body s' h))) :
    SameEnd i s s' (afterValidation sel body s) (afterValidation sel body s') := by
  unfold afterValidation
  rw [hs.validate_eq]
  cases validate s sel with
  | error e => exact .raised e
  | ok h => exact hbody h

theorem decodeAuto_sameEnd : SameEnd i s s' (execDecodeAuto s) (execDecodeAuto s') := by
  unfold execDecodeAuto
  rw [hs.validate_eq]
  cases validate s .auto with
  | error e => exact .raised e
  | ok h =>
    simp only
    cases h.var with
    | ovl => exact hs.decodeOverlap_sameEnd h
    | nov => exact hs.decodeNonOverlap_sameEnd h
    | ovf => exact hs.decodeOverflow_sameEnd h

theorem getAuto_sameEnd (hi : ¬ IsDecode i) (hI : s'.argI = s.argI) :
    SameEnd i s s' (execGetAuto s) (execGetAuto s') := by
  unfold execGetAuto
  rw [hs.validate_eq]
  cases validate s .auto with
  | error e => exact .raised e
  | ok h =>
    simp only
    cases h.var with
    | ovl => exact hs.getOverlap_sameEnd hi hI h
    | nov => exact hs.getNonOverlap_sameEnd hi hI h
    | ovf => exact hs.getOverflow_sameEnd hi hI h

/-- R44: a container command ends the same on two states with the same container, and for a GET the same ARG_I. -/
theorem exec_sameEnd (hi : containerSelector i ≠ none) (hI : IsGet i → s'.argI = s.argI) :
    SameEnd i s s' (exec i s) (exec i s') := by
  cases i with
  | bitlen | width | rdfield | wrfield | encodeOvl | encodeNov | encodeOvf => exact absurd rfl hi
  | decodeOvl =>
    rw [exec_decodeOvl, exec_decodeOvl]
    exact hs.afterValidation_sameEnd _ hs.decodeOverlap_sameEnd
  | decodeNov =>
    rw [exec_decodeNov, exec_decodeNov]
    exact hs.afterValidation_sameEnd _ hs.decodeNonOverlap_sameEnd
  | decodeOvf =>
    rw [exec_decodeOvf, exec_decodeOvf]
    exact hs.afterValidation_sameEnd _ hs.decodeOverflow_sameEnd
  | decodeAuto => exact hs.decodeAuto_sameEnd
  | getOvl =>
    rw [exec_getOvl, exec_getOvl]
    exact hs.afterValidation_sameEnd _ (hs.getOverlap_sameEnd (by decide) (hI (by decide)))
  | getNov =>
    rw [exec_getNov, exec_getNov]
    exact hs.afterValidation_sameEnd _ (hs.getNonOverlap_sameEnd (by decide) (hI (by decide)))
  | getOvf =>
    rw [exec_getOvf, exec_getOvf]
    exact hs.afterValidation_sameEnd _ (hs.getOverflow_sameEnd (by decide) (hI (by decide)))
  | getAuto => exact hs.getAuto_sameEnd (by decide) (hI (by decide))
  | parseOvl => exact hs.parseContainer_sameEnd (by decide) (.only .ovl)
  | parseNov => exact hs.parseContainer_sameEnd (by decide) (.only .nov)
  | parseOvf => exact hs.parseContainer_sameEnd (by decide) (.only .ovf)
  | parseAuto => exact hs.parseContainer_sameEnd (by decide) .auto

end SameContainer

@[simp] theorem State.raise_errFlag (s : State) (e : ErrCode) : (s.raise e).errFlag = true := by
  obtain ⟨⟨-, herr, -⟩, -⟩ := onlyErrorReported_raise s e
  exact herr

@[simp] theorem State.complete_errFlag (s : State) (r : Nat) : (s.complete r).errFlag = false :=
  succeeded_errFlag (succeeded_of_completed (s := s) rfl rfl)

/-- R109: the words two DECODEs of the same values leave below the count. -/
theorem seqWord_storeSequence_below (s s' : State) {values : List Nat} {n j : Nat} (hl : values.length = n)
    (hj : j < (wordOf n).toNat) : (s'.storeSequence values).seqWord j = (s.storeSequence values).seqWord j := by
  have hjn : j < values.length := hl ▸ Nat.lt_of_lt_of_le hj ((BitVec.toNat_ofNat n 32).trans_le (Nat.mod_le _ _))
  rw [seqWord_storeSequence, seqWord_storeSequence, dif_pos hjn, dif_pos hjn]

/-- Settles O49: the same end leaves the same code, RESULT, P registers and decoded words. -/
theorem containerCommandsReadOnlyContainer : Obligations.ContainerCommandsReadOnlyContainer := by
  intro i s s' hi hcfg hepoch hcont hclen hI
  have hend := SameContainer.exec_sameEnd ⟨hcfg, hepoch, hcont, hclen⟩ hi hI
  generalize exec i s = o, exec i s' = o' at hend
  cases hend with
  | raised e =>
    refine ⟨_, _, rfl, rfl, rfl, by simp, fun h => ?_⟩
    simp at h
  | decoded h values hl =>
    exact ⟨_, _, rfl, rfl, rfl, by simp, fun _ => ⟨rfl, rfl, rfl, rfl, rfl, rfl, rfl, rfl,
      fun _ j hj => seqWord_storeSequence_below s s' hl hj⟩⟩
  | loaded h r hnd =>
    exact ⟨_, _, rfl, rfl, rfl, by simp, fun _ => ⟨rfl, rfl, rfl, rfl, rfl, rfl, rfl, rfl,
      fun hd => absurd hd hnd⟩⟩

end Sys2Proof.Machine
end

section
/-! PROOFS. The statements of 20_memory.md: the order in which the host's operations are performed, and the accesses
outside SEQ and CONT. -/

namespace Sys2Proof.Machine

/-! ### The queue of the host's operations -/

/-- No form of a command's effect reaches the queue. -/
theorem Effect.pending_eq {s t : State} (h : Effect s t) : t.pending = s.pending := by
  cases h with
  | answered r ht => subst ht; rfl
  | fieldWritten hf ht => subst ht; rfl
  | stored h table fields hs hk hp => obtain ⟨-, -, -, -, -, rfl⟩ := hs; rfl
  | decoded sel h values hd => obtain ⟨-, -, -, rfl⟩ := hd; rfl
  | loaded sel h r hv ht => subst ht; rfl

theorem exec_pending {i : Instr} {s t : State} (h : exec i s = .next t) : t.pending = s.pending := by
  rcases exec_raise_or_effect h with ⟨e, rfl⟩ | heff
  · exact State.raise_pending s e
  · exact heff.pending_eq

@[simp] theorem State.writeReg_pending (s : State) (r : Reg) (v : Word) : (s.writeReg r v).pending = s.pending := by
  cases r <;> rfl

/-- R57: performing an operation, a command or reset included, leaves the operations that wait behind it. -/
theorem Performed.pending_eq {u t : State} {op : HostOp} (h : Performed u t op) : t.pending = u.pending := by
  cases h with
  | read _ v _ ht => subst ht; exact State.returnWord_pending u v
  | writeReg i v r _ _ ht => subst ht; exact State.writeReg_pending u r v
  | command k c i _ _ hexec => exact (exec_pending hexec).trans (State.started_pending u)
  | illegal k c _ _ ht => subst ht; exact State.raise_pending u.started .illegalCmd
  | writeSeq i v _ ht => subst ht; rfl
  | writeCont i v _ ht => subst ht; rfl
  | reset ht => subst ht; exact State.resetBlock_pending u

/-- A step that answers takes the oldest operation off the queue, and no other. -/
theorem step_pending {s t : State} (h : step s = .next t) : t.pending = s.pending.tail := by
  rcases step_cases h with ⟨hnil, rfl⟩ | ⟨op, rest, hcons, -, hperf⟩
  · simp [hnil]
  · rw [hperf.pending_eq, hcons, List.tail_cons]

/-- With no operation pending the block waits. -/
theorem step_idle {s : State} (hp : s.pending = []) : step s = .next s := by
  simp only [step, State.serveHost, hp]

/-- Settles O11: what a step takes off the queue, what it performs, and the idle step. -/
theorem stepTakesOldestOperation : Obligations.StepTakesOldestOperation :=
  ⟨fun _ _ => step_pending, fun _ _ _ => step_perform, fun _ => step_idle⟩

/-! ### Accesses outside SEQ and CONT -/

section Outside

variable {u : State} {i : Nat}

theorem perform_rseq_outside (hi : u.cfg.seqWords ≤ i) :
    u.perform (.rseq i) = .refused (.seqIndexOutside i) := if_neg (Nat.not_lt.mpr hi)

theorem perform_wseq_outside (v : Word) (hi : u.cfg.seqWords ≤ i) :
    u.perform (.wseq i v) = .refused (.seqIndexOutside i) := if_neg (Nat.not_lt.mpr hi)

theorem perform_rcont_outside (hi : u.cfg.contWords ≤ i) :
    u.perform (.rcont i) = .refused (.contIndexOutside i) := if_neg (Nat.not_lt.mpr hi)

theorem perform_wcont_outside (v : Word) (hi : u.cfg.contWords ≤ i) :
    u.perform (.wcont i v) = .refused (.contIndexOutside i) := if_neg (Nat.not_lt.mpr hi)

end Outside

/-- Settles O9: space by space, the read and the write by their rules outside it; outside REG it is a clause of O7. -/
theorem hostAccessOutsideIsRefused : Obligations.HostAccessOutsideIsRefused := by
  intro s i v rest hb
  obtain ⟨-, -, hreg⟩ := reservedRegistersReadZeroIgnoreWrites s i v rest hb
  refine ⟨hreg, fun hi hp => ?_, fun hi hp => ?_⟩
  · rcases hp with hp | hp
    · exact (step_perform hp hb).trans (perform_rseq_outside hi)
    · exact (step_perform hp hb).trans (perform_wseq_outside v hi)
  · rcases hp with hp | hp
    · exact (step_perform hp hb).trans (perform_rcont_outside hi)
    · exact (step_perform hp hb).trans (perform_wcont_outside v hi)

end Sys2Proof.Machine
end

section
/-! PROOFS. The statements of 30_encoding.md: the decoder against the encoder, by the rows of the opcode map; the
reserved words, by the numbers a word's fields hold; and what a CMD write of a word that is no command's does. -/

namespace Sys2Proof.Machine

/-! ### Decoding and encoding -/

/-- R66: a word is read as the command in the row its OPCODE and VAR name, the reserved bits being zero. -/
theorem decode_ok {c : Word} {i : Instr} (h : decode c = .ok i) :
    rsvdField c = 0#22 ∧ tableRow (opcodeField c) (varField c) = some i := by
  unfold decode at h
  split at h
  next hr =>
    refine ⟨eq_of_beq hr, ?_⟩
    split at h
    next j hj => cases h; exact hj
    next => split at h <;> cases h
  next => cases h

/-- R64: the command word in each row of the map is that of the row's OPCODE and VAR, RSVD being zero. -/
theorem encode_of_mem_opcodeTable :
    ∀ row ∈ opcodeTable, encode row.2.2 = 0#22 ++ row.2.1 ++ row.1 := by decide

theorem decode_encode (i : Instr) : decode (encode i) = .ok i := by
  cases i <;> rfl

/-- R66: a word is read as a command exactly when it is the command's word: its fields make the word, and they are
those of the command's row. -/
theorem decode_eq_ok_iff {c : Word} {i : Instr} : decode c = .ok i ↔ c = encode i := by
  constructor
  · intro h
    obtain ⟨hr, hrow⟩ := decode_ok h
    calc c = rsvdField c ++ varField c ++ opcodeField c := word_of_fields c
      _ = 0#22 ++ varField c ++ opcodeField c := by rw [hr]
      _ = encode i := (encode_of_mem_opcodeTable _ (tableRow_some hrow)).symm
  · rintro rfl
    exact decode_encode i

theorem toNat_encode (i : Instr) : (encode i).toNat = (commandFields i).1 + 256 * (commandFields i).2 := by
  cases i <;> rfl

/-! ### A CMD write of a word that is no command's -/

/-- R168: the start of a command sets BUSY, which the report of an error clears again. -/
theorem OnlyErrorReported.of_started {s t : State} {e : ErrCode} (h : OnlyErrorReported s.started t e) :
    OnlyErrorReported s t e := by
  obtain ⟨⟨hbusy, herr, hsticky, hrest, hcode⟩, hframe⟩ := h
  refine ⟨⟨hbusy, herr, hsticky, fun b hb => ?_, hcode⟩, hframe⟩
  rw [hrest b hb, State.started_status, getLsbD_statusStarted, if_neg (by omega)]

/-- R67: whatever the reason the word is no command's, the outcome is E_ILLEGAL_CMD. -/
theorem runCommandWord_illegal (s : State) {c : Word} (hc : ∀ i, decode c ≠ .ok i) :
    ∃ t, s.runCommandWord c = .next t ∧ OnlyErrorReported s t .illegalCmd := by
  refine ⟨s.started.raise .illegalCmd, ?_, (onlyErrorReported_raise s.started .illegalCmd).of_started⟩
  unfold State.runCommandWord
  cases hd : decode c with
  | ok i => exact absurd hd (hc i)
  | error e => rfl

/-- Settles O1: the word of each command, the decoder against the encoder, and the CMD write of any other word. -/
theorem decodeSelectsExactlyTheCommandWords : Obligations.DecodeSelectsExactlyTheCommandWords :=
  ⟨toNat_encode, fun _ _ => decode_eq_ok_iff,
    fun s _ hc => runCommandWord_illegal s fun i hi => hc i (decode_eq_ok_iff.mp hi)⟩

/-! ### The reserved words -/

/-- R65: the pairs of OPCODE and VAR that are not reserved. -/
def AssignedFields (op var : Nat) : Prop :=
  (1 ≤ op ∧ op ≤ 4 ∧ var = 0) ∨ (op = 8 ∧ var ≤ 2) ∨ (9 ≤ op ∧ op ≤ 0x0B ∧ var ≤ 3)

/-- R64: the assigned pairs are those of the rows of the map. -/
theorem assignedFields_iff {op var : Nat} : AssignedFields op var ↔ ∃ i, commandFields i = (op, var) := by
  unfold AssignedFields
  constructor
  · rintro (⟨h1, h4, rfl⟩ | ⟨rfl, hvar⟩ | ⟨h9, h11, hvar⟩)
    · interval_cases op
      exacts [⟨.bitlen, rfl⟩, ⟨.width, rfl⟩, ⟨.rdfield, rfl⟩, ⟨.wrfield, rfl⟩]
    · interval_cases var
      exacts [⟨.encodeOvl, rfl⟩, ⟨.encodeNov, rfl⟩, ⟨.encodeOvf, rfl⟩]
    · interval_cases op <;> interval_cases var
      exacts [⟨.decodeOvl, rfl⟩, ⟨.decodeNov, rfl⟩, ⟨.decodeOvf, rfl⟩, ⟨.decodeAuto, rfl⟩,
        ⟨.getOvl, rfl⟩, ⟨.getNov, rfl⟩, ⟨.getOvf, rfl⟩, ⟨.getAuto, rfl⟩,
        ⟨.parseOvl, rfl⟩, ⟨.parseNov, rfl⟩, ⟨.parseOvf, rfl⟩, ⟨.parseAuto, rfl⟩]
  · rintro ⟨i, hi⟩
    cases i <;> cases hi <;> decide

theorem commandFields_lt (i : Instr) : (commandFields i).1 < 256 ∧ (commandFields i).2 < 4 := by
  cases i <;> decide

/-- R63: a word is a command's when its reserved bits are zero and its OPCODE and VAR are the command's. -/
theorem eq_encode_iff {c : Word} {i : Instr} :
    c = encode i ↔ c.toNat / 1024 = 0 ∧ commandFields i = (c.toNat % 256, c.toNat / 256 % 4) := by
  obtain ⟨hop, hvar⟩ := commandFields_lt i
  rw [← BitVec.toNat_inj, toNat_encode, Prod.ext_iff]
  dsimp only
  omega

/-- R67: a reserved word has a reserved bit 1, or fields that are not assigned. -/
theorem reservedWord_iff (c : Word) :
    ReservedWord c ↔ ¬ (c.toNat / 1024 = 0 ∧ AssignedFields (c.toNat % 256) (c.toNat / 256 % 4)) := by
  unfold ReservedWord AssignedFields
  omega

/-- R67: the reserved words and the words of the commands are complements, by the fields of each. -/
theorem reservedWord_iff_decode_ne (c : Word) : ReservedWord c ↔ ∀ i, decode c ≠ .ok i := by
  rw [reservedWord_iff, assignedFields_iff, ← exists_and_left, not_exists]
  simp only [ne_eq, decode_eq_ok_iff, eq_encode_iff]

/-- Settles O3: a reserved word decodes to no command, so the step that writes it to CMD raises E_ILLEGAL_CMD. -/
theorem reservedWordsEndInIllegalCmd : Obligations.ReservedWordsEndInIllegalCmd := by
  refine ⟨reservedWord_iff_decode_ne, fun s c rest hp hb hc => ?_⟩
  rw [step_perform hp hb]
  exact runCommandWord_illegal _ ((reservedWord_iff_decode_ne c).mp hc)

/-! ### Words of the table -/

/-- Settles O2: the eight words are their commands' words. -/
theorem commandWordsOfTheTable : Obligations.CommandWordsOfTheTable :=
  ⟨decode_encode .bitlen, decode_encode .width, decode_encode .wrfield, decode_encode .encodeNov,
    decode_encode .decodeOvf, decode_encode .getAuto, decode_encode .parseOvl, decode_encode .parseAuto⟩

end Sys2Proof.Machine
end

section
/-! PROOFS. The statements of 41_width_estimator.md: the bit length and the width as least bounds, and what BITLEN and
WIDTH answer. -/

namespace Sys2Proof.Machine

/-! ### The bit length and the width as least bounds -/

/-- R15: the bit length of x is the least b with x < 2^b. -/
theorem bitLen_le_iff {x b : Nat} : bitLen x ≤ b ↔ x < 2 ^ b :=
  ⟨fun h => Nat.lt_of_lt_of_le (lt_two_pow_bitLen x) (Nat.pow_le_pow_right (by decide) h), bitLen_le⟩

/-- R85: a width of 1 or more is enough for a sequence exactly when its maximum fits it. -/
theorem widthOf_le_iff {values : List Nat} {w : Nat} (hw : 1 ≤ w) : widthOf values ≤ w ↔ maxOf values < 2 ^ w :=
  calc widthOf values ≤ w ↔ 1 ≤ w ∧ bitLen (maxOf values) ≤ w := Nat.max_le
    _ ↔ bitLen (maxOf values) ≤ w := and_iff_right hw
    _ ↔ maxOf values < 2 ^ w := bitLen_le_iff

theorem widthOf_eq_one_iff {values : List Nat} : widthOf values = 1 ↔ maxOf values ≤ 1 :=
  calc widthOf values = 1 ↔ widthOf values ≤ 1 := (widthOf_pos values).ge_iff_eq'.symm
    _ ↔ maxOf values < 2 ^ 1 := widthOf_le_iff le_rfl
    _ ↔ maxOf values ≤ 1 := Nat.lt_succ_iff

/-- R89: the width of a sequence of words is 32 exactly when 31 bits are too few. -/
theorem widthOf_eq_32_iff {values : List Nat} (h : ∀ v ∈ values, v < 2 ^ 32) :
    widthOf values = 32 ↔ 2 ^ 31 ≤ maxOf values := by
  have hle : widthOf values ≤ 32 := widthOf_le h
  have hfew : widthOf values ≤ 31 ↔ maxOf values < 2 ^ 31 := widthOf_le_iff (by decide)
  omega

/-- Settles O20: the bounds of a width, and which maximum reaches each. -/
theorem widthIsBetweenOneAnd32 : Obligations.WidthIsBetweenOneAnd32 :=
  fun values h => ⟨widthOf_pos values, widthOf_le h, widthOf_eq_32_iff h, widthOf_eq_one_iff⟩

theorem maxOf_eq_zero_or_mem (values : List Nat) : maxOf values = 0 ∨ maxOf values ∈ values :=
  or_iff_not_imp_left.mpr maxOf_mem

/-- R90: a width that fits a maximum of 1 or more is itself 1 or more, so it is at least the sequence's. -/
theorem widthOf_minimal {values : List Nat} {w : Nat} (hmax : 1 ≤ maxOf values) (hfit : maxOf values < 2 ^ w) :
    widthOf values ≤ w := by
  have hw : 1 ≤ w := Nat.one_le_iff_ne_zero.mpr (by rintro rfl; omega)
  exact (widthOf_le_iff hw).mpr hfit

/-- Settles O21: the maximum as the largest element, and the width as the least that fits it. -/
theorem widthFitsAndIsMinimal : Obligations.WidthFitsAndIsMinimal :=
  fun values => ⟨fun _ => le_maxOf, maxOf_eq_zero_or_mem values, fun _ => lt_two_pow_widthOf,
    fun hmax _ => widthOf_minimal hmax, fun h0 => widthOf_eq_one_iff.mpr (h0 ▸ Nat.zero_le 1)⟩

/-! ### BITLEN and WIDTH -/

/-- R167: `complete(r)` ends in success with r in RESULT, and changes nothing else. -/
theorem complete_answers (s : State) {r : Nat} (hr : r < 2 ^ 32) :
    SucceededFrom s (s.complete r) ∧ ResultFrame s (s.complete r) ∧ (s.complete r).result.toNat = r :=
  ⟨succeeded_of_completed rfl rfl, rfl, toNat_wordOf hr⟩

theorem exec_bitlen (s : State) : exec .bitlen s = .next (s.complete (bitLen s.operandV)) := rfl

theorem exec_width_of_le {s : State} (hn : s.operandN ≤ s.cfg.seqWords) :
    exec .width s = .next (s.complete (widthOf (s.inputSequence s.operandN))) := if_neg (Nat.not_lt.mpr hn)

theorem exec_width_of_lt {s : State} (hn : s.cfg.seqWords < s.operandN) :
    exec .width s = .next (s.raise .capacity) := if_pos hn

theorem mem_inputSequence_iff {s : State} {n v : Nat} :
    v ∈ s.inputSequence n ↔ ∃ i, i < n ∧ (s.seqWord i).toNat = v := by
  simp [State.inputSequence]

/-- Settles O18: the bit length of a word is at most 32, so RESULT holds it whole. -/
theorem bitlenAnswersBitLength : Obligations.BitlenAnswersBitLength := by
  intro s
  have hle : bitLen s.operandV ≤ 32 := bitLen_le s.argV.isLt
  obtain ⟨hsucc, hframe, hresult⟩ := complete_answers s (r := bitLen s.operandV) (by omega)
  refine ⟨_, exec_bitlen s, hsucc, hframe, ?_⟩
  rw [hresult]
  exact ⟨lt_two_pow_bitLen _, fun _ => bitLen_le⟩

/-- Settles O19: m is the maximum of the input sequence; its width is at most 32, so RESULT holds it whole. -/
theorem widthAnswersEstimate : Obligations.WidthAnswersEstimate := by
  intro s
  refine ⟨fun hn => ?_, fun hn => ⟨_, exec_width_of_lt hn, onlyErrorReported_raise s .capacity⟩⟩
  have hle : widthOf (s.inputSequence s.operandN) ≤ 32 := widthOf_le fun _ => mem_inputSequence_lt
  obtain ⟨hsucc, hframe, hresult⟩ := complete_answers s (r := widthOf (s.inputSequence s.operandN)) (by omega)
  exact ⟨_, maxOf (s.inputSequence s.operandN), exec_width_of_le hn, hsucc, hframe,
    fun i hi => le_maxOf (mem_inputSequence_iff.mpr ⟨i, hi, rfl⟩),
    (maxOf_eq_zero_or_mem _).imp_right mem_inputSequence_iff.mp, hresult⟩

end Sys2Proof.Machine
end

section
/-! PROOFS. The statements of 42_bitstream.md: a field read after a field write, the word-level forms of the two
primitives, and what RDFIELD and WRFIELD answer. -/

namespace Sys2Proof.Machine

/-! ### A field read after a field write -/

section AfterWrite

variable (epoch : Nat) (m : Memory) (base off w v : Nat) (hw : 1 ≤ w) (hw32 : w ≤ 32)
include hw hw32

theorem fieldRead_fieldWrite_same :
    fieldRead ((fieldWrite epoch m base off w v).word epoch .cont) base off w = v &&& mask w := by
  rw [mask_and]
  refine fieldRead_eq (Nat.mod_lt _ (Nat.two_pow_pos w)) fun j hj => ?_
  rw [streamBit_fieldWrite epoch m base off w v hw hw32, if_pos (by omega), Nat.add_sub_cancel_left,
    Nat.testBit_mod_two_pow, decide_eq_true hj, Bool.true_and]

theorem fieldRead_fieldWrite_disjoint {off' w' : Nat} (h : off' + w' ≤ off ∨ off + w ≤ off') :
    fieldRead ((fieldWrite epoch m base off w v).word epoch .cont) base off' w' =
      fieldRead (m.word epoch .cont) base off' w' :=
  fieldRead_congr fun j hj => by
    rw [streamBit_fieldWrite epoch m base off w v hw hw32, if_neg (by omega)]

end AfterWrite

/-- Settles O24: the stream bits inside the field are those of the value, the bits of a disjoint field stay. -/
theorem fieldReadAfterWrite : Obligations.FieldReadAfterWrite :=
  fun epoch m base off w v hw hw32 => ⟨fieldRead_fieldWrite_same epoch m base off w v hw hw32,
    fun _ _ h => fieldRead_fieldWrite_disjoint epoch m base off w v hw hw32 h⟩

/-! ### The word-level forms -/

/-- R48: a stream bit by its word and the place in the word. -/
theorem streamBit_mul_add (word : Nat → Word) (base k : Nat) {b : Nat} (hb : b < 32) :
    streamBit word base (32 * k + b) = (word (base + k)).getLsbD b := by
  have hdiv : (32 * k + b) / 32 = k := by omega
  have hmod : (32 * k + b) % 32 = b := by omega
  rw [streamBit, hdiv, hmod]

/-- R96: the bits of a field that lie in its first word. -/
theorem streamBit_low (word : Nat → Word) (base : Nat) {off j : Nat} (h : off % 32 + j < 32) :
    streamBit word base (off + j) = (word (base + off / 32)).getLsbD (off % 32 + j) := by
  rw [← streamBit_mul_add word base (off / 32) h, ← Nat.add_assoc, Nat.div_add_mod]

/-- R96: the bits of a field of at most 32 bits that lie past its first word lie in the next. -/
theorem streamBit_high (word : Nat → Word) (base : Nat) {off j : Nat} (hj : j < 32) (h : 32 ≤ off % 32 + j) :
    streamBit word base (off + j) = (word (base + off / 32 + 1)).getLsbD (j - (32 - off % 32)) := by
  have hplace : off + j = 32 * (off / 32 + 1) + (j - (32 - off % 32)) := by omega
  rw [hplace, streamBit_mul_add word base _ (by omega), Nat.add_assoc]

/-- R13, R96: the bits of `trunc32(x << d)`. -/
theorem testBit_trunc_shiftLeft (x d : Nat) {j : Nat} (hj : j < 32) :
    (x <<< d % 2 ^ 32).testBit j = (decide (d ≤ j) && x.testBit (j - d)) := by
  rw [Nat.testBit_mod_two_pow, decide_eq_true hj, Bool.true_and, Nat.testBit_shiftLeft]

/-- R96: a field read is the low word shifted right, joined with the high word where the field straddles, masked. -/
theorem fieldRead_eq_words (word : Nat → Word) (base off w : Nat) (hw32 : w ≤ 32) :
    fieldRead word base off w =
      ((word (base + off / 32)).toNat >>> (off % 32) |||
        if 32 < off % 32 + w then ((word (base + off / 32 + 1)).toNat <<< (32 - off % 32)) % 2 ^ 32 else 0) &&&
        mask w := by
  apply Nat.eq_of_testBit_eq
  intro j
  rw [testBit_fieldRead, mask_and, Nat.testBit_mod_two_pow, Nat.testBit_or, Nat.testBit_shiftRight,
    BitVec.testBit_toNat]
  by_cases hj : j < w
  · have hj32 : j < 32 := by omega
    rw [decide_eq_true hj, Bool.true_and, Bool.true_and]
    by_cases hlow : off % 32 + j < 32
    · have hshift : ¬ 32 - off % 32 ≤ j := by omega
      rw [streamBit_low word base hlow]
      split
      · rw [testBit_trunc_shiftLeft _ _ hj32, decide_eq_false hshift, Bool.false_and, Bool.or_false]
      · rw [Nat.zero_testBit, Bool.or_false]
    · have hshift : 32 - off % 32 ≤ j := by omega
      rw [streamBit_high word base hj32 (by omega), BitVec.getLsbD_of_ge _ _ (Nat.le_of_not_lt hlow),
        if_pos (by omega), testBit_trunc_shiftLeft _ _ hj32, decide_eq_true hshift, Bool.true_and, Bool.false_or,
        BitVec.testBit_toNat]
  · rw [decide_eq_false hj, Bool.false_and, Bool.false_and]

/-- R96: a write of v < 2^w into zero bits is, in word `base + k`, an OR of v moved to the field's place in it. -/
theorem word_fieldWrite_zero (epoch : Nat) (m : Memory) (base off w v : Nat) (hw : 1 ≤ w) (hw32 : w ≤ 32)
    (hv : v < 2 ^ w) (hzero : ∀ j, j < w → streamBit (m.word epoch .cont) base (off + j) = false) {k x : Nat}
    (hx : ∀ b, b < 32 → x.testBit b = (decide (off ≤ 32 * k + b) && v.testBit (32 * k + b - off))) :
    (fieldWrite epoch m base off w v).word epoch .cont (base + k) =
      m.word epoch .cont (base + k) ||| BitVec.ofNat 32 x := by
  rw [word_fieldWrite epoch m base off w v hw hw32]
  apply BitVec.eq_of_getLsbD_eq
  intro b hb
  rw [getLsbD_patchWord, BitVec.getLsbD_or, BitVec.getLsbD_ofNat, hx b hb, decide_eq_true hb, Bool.true_and,
    Bool.true_and]
  by_cases hlow : off ≤ 32 * k + b
  · by_cases hhigh : 32 * k + b < off + w
    · have hold : (m.word epoch .cont (base + k)).getLsbD b = false := by
        rw [← streamBit_mul_add (m.word epoch .cont) base k hb, ← Nat.add_sub_cancel' hlow]
        exact hzero _ (by omega)
      rw [if_pos ⟨hlow, hhigh⟩, hold, decide_eq_true hlow, Bool.true_and, Bool.false_or]
    · have hbit : v.testBit (32 * k + b - off) = false :=
        Nat.testBit_lt_two_pow (Nat.lt_of_lt_of_le hv (Nat.pow_le_pow_right (by decide) (by omega)))
      rw [if_neg (fun h => hhigh h.2), hbit, Bool.and_false, Bool.or_false]
  · rw [if_neg (fun h => hlow h.1), decide_eq_false hlow, Bool.false_and, Bool.or_false]

/-- Settles O25: bit by bit, the first word holds the field's bits below its end and the next word the others. -/
theorem fieldPrimitivesEqualWordForm : Obligations.FieldPrimitivesEqualWordForm := by
  refine ⟨fun word base off w _ hw32 => fieldRead_eq_words word base off w hw32,
    fun epoch m base off w v hw hw32 hv hzero => ⟨?_, fun hs => ?_, fun i hi hi' => ?_⟩⟩
  · refine word_fieldWrite_zero epoch m base off w v hw hw32 hv hzero fun b _ => ?_
    have hfirst : off % 32 ≤ b ↔ off ≤ 32 * (off / 32) + b := by omega
    have hplace : b - off % 32 = 32 * (off / 32) + b - off := by omega
    rw [Nat.testBit_shiftLeft, hplace, decide_eq_decide.mpr hfirst]
  · refine word_fieldWrite_zero epoch m base off w v hw hw32 hv hzero (k := off / 32 + 1) fun b _ => ?_
    have hafter : off ≤ 32 * (off / 32 + 1) + b := by omega
    have hplace : 32 - off % 32 + b = 32 * (off / 32 + 1) + b - off := by omega
    rw [Nat.testBit_shiftRight, hplace, decide_eq_true hafter, Bool.true_and]
  · exact word_fieldWrite_outside epoch m base off w v hw hw32 (by omega)

/-! ### RDFIELD and WRFIELD -/

theorem exec_rdfield_of_none {s : State} (h : checkField s = none) :
    exec .rdfield s = .next (s.complete (fieldRead s.contWord 0 s.operandI s.operandW)) := by
  show execRdfield s = _
  rw [execRdfield, h]

theorem exec_wrfield_of_none {s : State} (h : checkField s = none) :
    exec .wrfield s = .next
      { s with cont := fieldWrite s.epoch s.cont 0 s.operandI s.operandW s.operandV }.completeNoResult := by
  show execWrfield s = _
  rw [execWrfield, h]

/-- R97, R168: a failed operand check of RDFIELD or WRFIELD is reported and nothing else happens. -/
theorem exec_field_of_error {i : Instr} {s : State} {e : ErrCode} (hi : i = .rdfield ∨ i = .wrfield)
    (h : checkField s = some e) : ∃ t, exec i s = .next t ∧ OnlyErrorReported s t e := by
  refine ⟨s.raise e, ?_, onlyErrorReported_raise s e⟩
  rcases hi with rfl | rfl
  · show execRdfield s = _
    rw [execRdfield, h]
  · show execWrfield s = _
    rw [execWrfield, h]

/-- R97: the width is checked first. -/
theorem checkField_of_width {s : State} (hw : s.argW.toNat = 0 ∨ 32 < s.argW.toNat) :
    checkField s = some .illegalArg := if_pos hw

/-- R97: a legal width leaves the check of the extent. -/
theorem checkField_of_legal_width {s : State} (hw : 1 ≤ s.argW.toNat) (hw32 : s.argW.toNat ≤ 32) :
    checkField s =
      if s.cfg.contWords ≤ (s.argI.toNat + s.argW.toNat - 1) / 32 then some .capacity else none := by
  have hlegal : ¬ (s.argW.toNat = 0 ∨ 32 < s.argW.toNat) := by omega
  exact if_neg hlegal

/-- R97: a field that ends inside CONT passes both checks. -/
theorem checkField_of_extent {s : State} (hw : 1 ≤ s.argW.toNat) (hw32 : s.argW.toNat ≤ 32)
    (hext : (s.argI.toNat + s.argW.toNat - 1) / 32 < s.cfg.contWords) : checkField s = none :=
  (checkField_of_legal_width hw hw32).trans (if_neg (Nat.not_le.mpr hext))

/-- R97: the two errors RDFIELD and WRFIELD share. -/
theorem exec_field_errors {i : Instr} (hi : i = .rdfield ∨ i = .wrfield) (s : State) :
    ((s.argW.toNat = 0 ∨ 32 < s.argW.toNat) → ∃ t, exec i s = .next t ∧ OnlyErrorReported s t .illegalArg) ∧
      (1 ≤ s.argW.toNat → s.argW.toNat ≤ 32 → s.cfg.contWords ≤ (s.argI.toNat + s.argW.toNat - 1) / 32 →
        ∃ t, exec i s = .next t ∧ OnlyErrorReported s t .capacity) :=
  ⟨fun hw => exec_field_of_error hi (checkField_of_width hw),
    fun hw hw32 hext => exec_field_of_error hi ((checkField_of_legal_width hw hw32).trans (if_pos hext))⟩

/-- Settles O22: the field is below 2^32, so RESULT holds its bits whole. -/
theorem rdfieldReadsField : Obligations.RdfieldReadsField := by
  intro s
  obtain ⟨hwidth, hextent⟩ := exec_field_errors (.inl rfl) s
  refine ⟨hwidth, hextent, fun hw hw32 hext => ?_⟩
  have hlt : fieldRead s.contWord 0 s.operandI s.operandW < 2 ^ 32 :=
    Nat.lt_of_lt_of_le (fieldRead_lt _ _ _ _) (Nat.pow_le_pow_right (by decide) hw32)
  obtain ⟨hsucc, hframe, hresult⟩ := complete_answers s hlt
  refine ⟨_, exec_rdfield_of_none (checkField_of_extent hw hw32 hext), hsucc, hframe, fun j _ => ?_⟩
  rw [← BitVec.testBit_toNat, hresult, testBit_fieldRead, streamBit, Nat.zero_add]

/-- Settles O23: every word of CONT is patched in the field's bits alone, the words outside the field not at all. -/
theorem wrfieldReplacesField : Obligations.WrfieldReplacesField := by
  intro s
  obtain ⟨hwidth, hextent⟩ := exec_field_errors (.inr rfl) s
  refine ⟨hwidth, hextent, fun hw hw32 hext => ?_⟩
  have hcheck := checkField_of_extent hw hw32 hext
  obtain ⟨hframe, houtside⟩ := fieldFrame_of_completed (s := s) (.inr ⟨hcheck, rfl⟩)
  refine ⟨_, exec_wrfield_of_none hcheck, succeeded_of_completed rfl rfl, hframe, fun i p hp => ?_, houtside⟩
  have hword := word_fieldWrite s.epoch s.cont 0 s.operandI s.operandW s.operandV hw hw32 i
  rw [Nat.zero_add] at hword
  rw [State.completeNoResult_contWord, State.contWord, hword, getLsbD_patchWord, decide_eq_true hp, Bool.true_and,
    BitVec.testBit_toNat]
  rfl

end Sys2Proof.Machine
end

section
/-! PROOFS. The statements of 43_overlap.md: what an ENCODE leaves in CONT and the registers, that the validator takes a
container as its words describe it, what a DECODE and a GET leave, and from these the overlap codec and its round
trip. -/

namespace Sys2Proof.Machine

/-! ### The overlap payload -/

/-- R114: a width that divides 32 divides each word into whole fields. -/
theorem fieldOffset_ovl_in_word {w : Nat} (hdvd : w ∣ 32) (i : Nat) : fieldOffset .ovl w i % 32 + w ≤ 32 := by
  obtain ⟨lanes, hlanes⟩ := hdvd
  have hpos : 0 < lanes := Nat.pos_of_ne_zero (by rintro rfl; omega)
  calc fieldOffset .ovl w i % 32 + w = w * (i % lanes) + w := by
        rw [hlanes, ← Nat.mul_mod_mul_left, Nat.mul_comm w i]; rfl
    _ = w * (i % lanes + 1) := (Nat.mul_succ _ _).symm
    _ ≤ w * lanes := Nat.mul_le_mul_left w (Nat.mod_lt i hpos)
    _ = 32 := hlanes.symm

/-- R114: otherwise the first word ends inside field `32 / w`. -/
theorem fieldOffset_ovl_straddles {w : Nat} (hw : 1 ≤ w) (hdvd : ¬ w ∣ 32) :
    32 < fieldOffset .ovl w (32 / w) % 32 + w := by
  have hle : 32 / w * w ≤ 32 := Nat.div_mul_le_self 32 w
  have hne : 32 / w * w ≠ 32 := fun h => hdvd (Dvd.intro_left _ h)
  have hgt : 32 < 32 / w * w + w := Nat.lt_div_mul_add hw
  rw [fieldOffset, Nat.mod_eq_of_lt (by omega)]
  exact hgt

/-- R114: the words that hold n fields in lanes hold them packed. -/
theorem payloadLength_ovl_le_nov {w : Nat} (hw : 1 ≤ w) (hw32 : w ≤ 32) (n : Nat) :
    payloadLength .ovl n w ≤ payloadLength .nov n w :=
  ceilDiv_le (by decide) <|
    calc n * w ≤ 32 / w * ceilDiv n (32 / w) * w :=
          Nat.mul_le_mul_right w (le_mul_ceilDiv (Nat.div_pos hw32 hw))
      _ = 32 / w * w * ceilDiv n (32 / w) := Nat.mul_right_comm _ _ _
      _ ≤ 32 * ceilDiv n (32 / w) := Nat.mul_le_mul_right _ (Nat.div_mul_le_self 32 w)

/-- Settles O53: the two cases of the width, and the lengths of the two payloads. -/
theorem overlapPayloadNeverLonger : Obligations.OverlapPayloadNeverLonger :=
  fun _ hw hw32 => ⟨fieldOffset_ovl_in_word, fun hdvd => ⟨_, fieldOffset_ovl_straddles hw hdvd⟩,
    payloadLength_ovl_le_nov hw hw32⟩

/-! ### What an ENCODE leaves -/

/-- R150, R167: the P registers after a command that loads a possible header. -/
theorem PossibleHeader.paramsAre_complete {cfg : Config} {h : Header} (hh : PossibleHeader cfg h) (hc : cfg.Valid)
    (u : State) (r : Nat) : ParamsAre ((u.loadParams h).complete r) h := by
  obtain ⟨-, -, -, hcap, -⟩ := hc
  exact hh.paramsAre_loadParams hcap u

section Stored

variable {s t : State} {h : Header} {table fields : List Nat} (hs : Stored s t h table fields)
include hs

theorem Stored.succeeded : SucceededFrom s t := by
  obtain ⟨-, -, -, -, -, rfl⟩ := hs
  exact succeeded_of_completed rfl rfl

theorem Stored.encodeFrame : EncodeFrame s t := (encodeFrame_of_stored (.inr hs)).1

theorem Stored.encoded (hc : s.cfg.Valid) : Encoded h table fields := by
  obtain ⟨-, -, -, -, henc, -⟩ := hs
  obtain ⟨-, hseq, -⟩ := hc
  exact henc hseq

/-- R107: RESULT and CLEN hold the container's length, which a word can. -/
theorem Stored.length_toNat (hc : s.cfg.Valid) : t.result.toNat = h.len ∧ t.clen.toNat = h.len := by
  obtain ⟨-, -, -, hfits, -, rfl⟩ := hs
  obtain ⟨-, -, -, hcap, -⟩ := hc
  have hlen : (wordOf h.len).toNat = h.len := toNat_wordOf (by omega)
  exact ⟨hlen, hlen⟩

theorem Stored.paramsAre (hc : s.cfg.Valid) (hh : PossibleHeader s.cfg h) : ParamsAre t h := by
  obtain ⟨-, -, -, -, -, rfl⟩ := hs
  exact hh.paramsAre_complete hc _ _

/-- R79: the header words of the container. -/
theorem Stored.contWord_header (hc : s.cfg.Valid) {i : Nat} (hi : i < headerWords h.var) :
    t.contWord i = (headerList s.cfg h)[i]'(by rw [headerList_length]; exact hi) := by
  have he := hs.encoded hc
  obtain ⟨-, -, -, -, -, rfl⟩ := hs
  exact word_writeContainer_header s.cfg s.epoch he s.cont hi

/-- R73: the header words every codec writes. -/
theorem Stored.contWord_common (hc : s.cfg.Valid) :
    t.contWord 0 = s.cfg.magic ∧ t.contWord 1 = s.cfg.version ∧ t.contWord 2 = s.cfg.tag h.var ∧
      t.contWord 3 = wordOf h.n ∧ t.contWord 4 = wordOf h.w := by
  have h5 := headerWords_ge h.var
  exact ⟨hs.contWord_header hc (by omega), hs.contWord_header hc (by omega), hs.contWord_header hc (by omega),
    hs.contWord_header hc (by omega), hs.contWord_header hc (by omega)⟩

/-- R79, R80, R82: the payload holds the encoder's fields, each of which fits the width. -/
theorem Stored.payloadHolds (hc : s.cfg.Valid) {field : Nat → Nat}
    (hfield : ∀ i (hi : i < fields.length), fields[i] = field i)
    (hlt : ∀ i, i < fields.length → field i < 2 ^ h.w) :
    PayloadHolds t.contWord h.pbase h.plen h.w h.n (fieldOffset h.var h.w) field := by
  have he := hs.encoded hc
  obtain ⟨-, -, -, -, -, rfl⟩ := hs
  rw [← he.fields_len]
  refine ⟨fun i hi => ?_, fun b => streamBit_writeContainer_padding s.cfg s.epoch he s.cont⟩
  rw [← hfield i hi]
  exact fieldRead_writeContainer s.cfg s.epoch he s.cont hi (hfield i hi ▸ hlt i hi)

end Stored

/-! ### The validator on a container as its words describe it -/

/-- R144, R145: the identity checks pass on a header whose first words are right, with a tag the command takes. -/
theorem checkIdentity_of_words {s : State} {sel : Selector} {v : Variant} (hc : s.cfg.Valid)
    (hlen : 3 ≤ s.operandLen) (hcap : s.operandLen ≤ s.cfg.contWords) (hmagic : s.contWord 0 = s.cfg.magic)
    (hversion : s.contWord 1 = s.cfg.version) (htag : s.contWord 2 = s.cfg.tag v)
    (hsel : sel = .auto ∨ sel = .only v) : checkIdentity s sel = .ok v := by
  have haccepts : sel.accepts v = true := by
    rcases hsel with rfl | rfl
    · rfl
    · exact beq_self_eq_true v
  unfold checkIdentity
  simp only
  rw [if_neg (by omega), if_neg (by omega), if_neg (not_not.mpr hmagic), if_neg (by omega),
    if_neg (not_not.mpr hversion), if_neg (by omega), htag, tagVariant_tag hc v]
  exact if_pos haccepts

/-- R148: the words of an accepted container give its header, whose parameters are in range. -/
theorem readHeader_of_accepted {s : State} {sel : Selector} {h : Header} (ha : AcceptedContainer s sel h) :
    readHeader s h.var = h ∧ parametersOk h = true ∧ headerWords h.var ≤ h.len := by
  obtain ⟨-, -, -, -, -, htag, -, hn, hw, hp⟩ := ha
  obtain ⟨var, tag, n, w, tb, ib, k, pbase, plen, len⟩ := h
  dsimp only [AcceptedParameters] at htag hn hw hp
  cases var with
  | ovl | nov =>
    obtain ⟨hw1, hw32, htb, hib, hk, hpbase, hplen, hlen⟩ := hp
    subst htag hn hw htb hib hk hpbase hplen hlen
    exact ⟨rfl, decide_eq_true ⟨Nat.one_le_iff_ne_zero.mp hw1, hw32⟩, Nat.le_add_right 5 _⟩
  | ovf =>
    obtain ⟨htb, hib, hk, htb1, hwidth, hw32, hpbase, hplen, hlen⟩ := hp
    subst htag hn hw htb hib hk hpbase hplen hlen
    exact ⟨rfl, decide_eq_true ⟨Nat.one_le_iff_ne_zero.mp htb1, hwidth, hw32⟩,
      Nat.le_add_right_of_le (Nat.le_add_right 8 _)⟩

/-- R148: the validator gives the header of a container that is as R144 to R147 ask. -/
theorem validate_of_accepted {s : State} {sel : Selector} {h : Header} (hc : s.cfg.Valid)
    (ha : AcceptedContainer s sel h) : validate s sel = .ok h := by
  obtain ⟨hread, hok, hwords⟩ := readHeader_of_accepted ha
  obtain ⟨hclen, hcap, hmagic, hversion, hword2, htag, hsel, -⟩ := ha
  have hlen : s.operandLen = h.len := hclen
  have h5 := headerWords_ge h.var
  have hid : checkIdentity s sel = .ok h.var :=
    checkIdentity_of_words hc (by omega) (by omega) hmagic hversion (hword2.trans htag) hsel
  simp [validate, hid, hread, hok, hlen, hwords]

/-- R147: an encoder's header, its codec's words in CONT, has the parameters of an accepted container. -/
theorem PossibleHeader.acceptedParameters {cfg : Config} {h : Header} (hh : PossibleHeader cfg h)
    (hpbase : h.pbase = headerWords h.var + h.k) {word : Nat → Word}
    (hovf : h.var = .ovf → h.tb = (word 5).toNat ∧ h.ib = (word 6).toNat ∧ h.k = (word 7).toNat) :
    AcceptedParameters word h := by
  obtain ⟨-, -, hw1, hw32, hcodec, hplen, hlen, -⟩ := hh
  unfold CodecParameters at hcodec
  unfold AcceptedParameters
  cases hv : h.var <;> simp only [hv] at hcodec hplen hlen hpbase ⊢
  case ovl | nov =>
    obtain ⟨htb, hib, hk⟩ := hcodec
    rw [hk] at hpbase hlen
    exact ⟨hw1, hw32, htb, hib, hk, hpbase, hplen, hlen⟩
  case ovf =>
    obtain ⟨htb, hib, hk⟩ := hovf hv
    obtain ⟨htb1, hwidth⟩ := hcodec
    exact ⟨htb, hib, hk, htb1, hwidth, hw32, hpbase, hplen, hlen⟩

/-- R75, R79: the header words the overflow codec writes besides. -/
theorem Stored.contWord_overflow {s t : State} {h : Header} {table fields : List Nat}
    (hs : Stored s t h table fields) (hc : s.cfg.Valid) (hv : h.var = .ovf) :
    t.contWord 5 = wordOf h.tb ∧ t.contWord 6 = wordOf h.ib ∧ t.contWord 7 = wordOf h.k := by
  have hlen : headerWords h.var = 8 := by rw [hv]; rfl
  refine ⟨(hs.contWord_header hc (by omega)).trans ?_, (hs.contWord_header hc (by omega)).trans ?_,
    (hs.contWord_header hc (by omega)).trans ?_⟩ <;> simp [headerList, hv]

/-- R155: the container an ENCODE wrote is accepted, by its own variant's commands and by AUTO. -/
theorem Stored.accepted {s t : State} {h : Header} {table fields : List Nat} (hs : Stored s t h table fields)
    (hc : s.cfg.Valid) (hh : PossibleHeader s.cfg h) {sel : Selector} (hsel : sel = .auto ∨ sel = .only h.var) :
    AcceptedContainer t sel h := by
  obtain ⟨h0, h1, h2, h3, h4⟩ := hs.contWord_common hc
  obtain ⟨-, hclen⟩ := hs.length_toNat hc
  obtain ⟨-, hn, hw, htb, hib, hk, -⟩ := hs.paramsAre hc hh
  have hpbase : h.pbase = headerWords h.var + h.k := by
    have hplace := (hs.encoded hc).len_eq
    have hlen := hh.len_eq
    omega
  have hovf := hs.contWord_overflow hc
  obtain ⟨-, -, -, hfits, -, rfl⟩ := hs
  refine ⟨hclen, hfits, h0, h1, h2.trans hh.tag_eq.symm, hh.tag_eq, hsel, ?_, ?_,
    hh.acceptedParameters hpbase fun hv => ?_⟩
  · rw [h3]; exact hn.symm
  · rw [h4]; exact hw.symm
  · obtain ⟨h5, h6, h7⟩ := hovf hv
    rw [h5, h6, h7]
    exact ⟨htb.symm, hib.symm, hk.symm⟩

/-! ### What a DECODE and a GET leave -/

theorem afterValidation_of_ok {s : State} {sel : Selector} {h : Header}
    {body : State → Header → Except ErrCode State} (hv : validate s sel = .ok h) :
    afterValidation sel body s = s.finish (body s h) := by
  rw [afterValidation, hv]

/-- R154: a header error is reported before anything else happens. -/
theorem afterValidation_of_error {s : State} {sel : Selector} {e : ErrCode}
    {body : State → Header → Except ErrCode State} (hv : validate s sel = .error e) :
    ∃ t, afterValidation sel body s = .next t ∧ OnlyErrorReported s t e :=
  ⟨s.raise e, by rw [afterValidation, hv], onlyErrorReported_raise s e⟩

/-- R168: a command whose checks fail reports the error and nothing else happens. -/
theorem finish_of_error {s : State} {r : Except ErrCode State} {e : ErrCode} (hr : r = .error e) :
    ∃ t, s.finish r = .next t ∧ OnlyErrorReported s t e :=
  ⟨s.raise e, by rw [hr, State.finish_error], onlyErrorReported_raise s e⟩

/-- R147: a field of an accepted header is a word's value. -/
theorem fieldRead_lt_of_validate {s : State} {sel : Selector} {h : Header} (hv : validate s sel = .ok h)
    (word : Nat → Word) (base off : Nat) : fieldRead word base off h.w < 2 ^ 32 :=
  Nat.lt_of_lt_of_le (fieldRead_lt word base off h.w)
    (Nat.pow_le_pow_right (by decide) (validate_possibleHeader hv).width_le)

section Decoded

variable {s t : State} {sel : Selector} {h : Header} {values : List Nat}

theorem Decoded.succeeded (hd : Decoded s t sel h values) : SucceededFrom s t :=
  (Effect.decoded sel h values hd).succeeded

theorem Decoded.decodeFrame (hd : Decoded s t sel h values) : DecodeFrame s t :=
  (decodeFrame_of_decoded (.inr ⟨h, values, hd⟩)).1

theorem Decoded.paramsAre (hd : Decoded s t sel h values) (hc : s.cfg.Valid) : ParamsAre t h := by
  obtain ⟨hv, -, -, rfl⟩ := hd
  exact (validate_possibleHeader hv).paramsAre_complete hc _ _

theorem Decoded.result_toNat (hd : Decoded s t sel h values) : t.result.toNat = h.n := by
  obtain ⟨hv, -, -, rfl⟩ := hd
  exact toNat_wordOf (validate_possibleHeader hv).count_lt

/-- R109: the words of SEQ below the count, for values read place by place. -/
theorem Decoded.seqWord_below {read : Nat → Nat} (hd : Decoded s t sel h ((List.range h.n).map read)) {i : Nat}
    (hi : i < h.n) : t.seqWord i = wordOf (read i) := by
  obtain ⟨-, -, -, rfl⟩ := hd
  rw [State.complete_seqWord, State.loadParams_seqWord, seqWord_storeSequence, dif_pos (by simpa using hi)]
  simp

end Decoded

section Fetched

variable {s t : State} {sel : Selector} {h : Header} {r : Nat}

theorem Fetched.succeeded (hf : Fetched s t sel h r) : SucceededFrom s t :=
  (effect_of_fetched ⟨h, r, hf⟩).succeeded

theorem Fetched.parseFrame (hf : Fetched s t sel h r) : ParseFrame s t :=
  parseFrame_of_fetched (.inr ⟨h, r, hf⟩)

theorem Fetched.paramsAre (hf : Fetched s t sel h r) (hc : s.cfg.Valid) : ParamsAre t h := by
  obtain ⟨hv, -, rfl⟩ := hf
  exact (validate_possibleHeader hv).paramsAre_complete hc _ _

theorem Fetched.result_eq (hf : Fetched s t sel h r) : t.result = wordOf r := by
  obtain ⟨-, -, rfl⟩ := hf
  rfl

end Fetched

/-! ### ENCODE.OVL -/

theorem exec_encodeOvl (s : State) : exec .encodeOvl s = s.finish (encodeOverlap s) := rfl

/-- R105: the header of the overlap container of SEQ[0..n-1], n the operand. -/
def State.overlapRecord (s : State) : Header :=
  headerOf s.cfg .ovl s.operandN (widthOf (s.inputSequence s.operandN)) 0 0 0

/-- It is the header ENCODE.OVL makes of its input. -/
theorem overlapHeader_inputSequence (s : State) :
    overlapHeader s.cfg (s.inputSequence s.operandN) = s.overlapRecord := by
  rw [overlapHeader, length_inputSequence, State.overlapRecord]

/-- R107: a sequence that fits SEQ, its container CONT, is encoded. -/
theorem exec_encodeOvl_stored {s : State} (hn : s.operandN ≤ s.cfg.seqWords)
    (hlen : s.overlapRecord.len ≤ s.cfg.contWords) :
    ∃ t, exec .encodeOvl s = .next t ∧ Stored s t s.overlapRecord [] (s.inputSequence s.operandN) := by
  rw [← overlapHeader_inputSequence] at hlen ⊢
  refine ⟨_, ?_, hn, length_inputSequence _ _, rfl, hlen,
    fun _ => overlapHeader_encoded fun v => mem_inputSequence_lt, rfl⟩
  rw [exec_encodeOvl, encodeOverlap, if_neg (Nat.not_lt.mpr hn), storeContainer, if_neg (Nat.not_lt.mpr hlen),
    State.finish_ok]

/-- R107: a sequence or a container that does not fit is E_CAPACITY. -/
theorem encodeOverlap_of_not_fits {s : State}
    (hcap : s.cfg.seqWords < s.operandN ∨ s.cfg.contWords < s.overlapRecord.len) :
    encodeOverlap s = .error .capacity := by
  rw [← overlapHeader_inputSequence] at hcap
  unfold encodeOverlap
  dsimp only
  split
  · rfl
  · next hn => exact if_pos (hcap.resolve_left hn)

/-- R75, R105: a stored overlap header is possible. -/
theorem Stored.possibleHeader_overlap {s t : State} {fields : List Nat} (hs : Stored s t s.overlapRecord [] fields)
    (hc : s.cfg.Valid) : PossibleHeader s.cfg s.overlapRecord :=
  hs.possibleHeader hc rfl ⟨rfl, rfl, rfl⟩

/-- R90: every element of the input fits the width. -/
theorem inputSequence_fields (s : State) (n : Nat) :
    (∀ i (hi : i < (s.inputSequence n).length), (s.inputSequence n)[i] = (s.seqWord i).toNat) ∧
      ∀ i, i < (s.inputSequence n).length → (s.seqWord i).toNat < 2 ^ widthOf (s.inputSequence n) :=
  ⟨fun _ => getElem_inputSequence s n, fun i hi =>
    lt_two_pow_widthOf (mem_inputSequence_iff.mpr ⟨i, by simpa using hi, rfl⟩)⟩

/-- Settles O26: the header words, the fields of the payload and its zero bits, and the words past the container. -/
theorem encodeOverlapWritesContainer : Obligations.EncodeOverlapWritesContainer := by
  intro s hc
  refine ⟨fun hn hlen => ?_, fun hcap => finish_of_error (encodeOverlap_of_not_fits hcap)⟩
  obtain ⟨t, ht, hs⟩ := exec_encodeOvl_stored hn hlen
  have hh := hs.possibleHeader_overlap hc
  obtain ⟨hresult, hclen⟩ := hs.length_toNat hc
  obtain ⟨h0, h1, h2, h3, h4⟩ := hs.contWord_common hc
  obtain ⟨hfield, hlt⟩ := inputSequence_fields s s.operandN
  exact ⟨t, ht, hs.succeeded, hs.encodeFrame, hresult, hclen, hs.paramsAre hc hh, h0, h1, h2,
    h3 ▸ toNat_wordOf hh.count_lt, h4 ▸ toNat_wordOf (Nat.lt_of_le_of_lt hh.width_le (by decide)),
    hs.payloadHolds hc hfield hlt, fun i hi => hs.contWord_above hc (hclen.trans_le hi)⟩

/-! ### DECODE.OVL and GET.OVL -/

section Overlap

variable {s : State} {sel : Selector} {h : Header}

/-- R109: an accepted container whose elements fit SEQ is decoded. -/
theorem finish_decodeOverlap_of_le (hv : validate s sel = .ok h) (hn : h.n ≤ s.cfg.seqWords) :
    ∃ t, s.finish (decodeOverlap s h) = .next t ∧
      Decoded s t sel h ((List.range h.n).map (overlapElement s h)) :=
  ⟨_, congrArg s.finish (if_neg (Nat.not_lt.mpr hn)), hv, hn, by simp, rfl⟩

/-- R111: an element of an accepted container is answered. -/
theorem finish_getOverlap_of_lt (hv : validate s sel = .ok h) (hi : s.operandI < h.n) :
    ∃ t, s.finish (getOverlap s h) = .next t ∧ Fetched s t sel h (overlapElement s h s.operandI) :=
  ⟨_, congrArg s.finish (if_neg (Nat.not_le.mpr hi)), hv, hi, rfl⟩

/-- R108: the elements of a validated overlap container. -/
theorem overlapElement_of_accepted (ha : AcceptedContainer s (.only .ovl) h) (i : Nat) :
    overlapElement s h i = fieldRead s.contWord 5 (i * h.w) h.w := by
  obtain ⟨-, -, -, -, -, -, hsel, -, -, hp⟩ := ha
  have hvar : .ovl = h.var := by simpa using hsel
  simp only [AcceptedParameters, ← hvar] at hp
  obtain ⟨-, -, -, -, -, hpbase, -⟩ := hp
  rw [overlapElement, hpbase, fieldOffset]

end Overlap

/-- Settles O29: on an accepted container the words DECODE.OVL stores; otherwise the error of the failed check. -/
theorem decodeOverlapRestoresSequence : Obligations.DecodeOverlapRestoresSequence := by
  intro s hc
  refine ⟨fun h ha hn => ?_, fun h ha hn => ?_, fun e hv => afterValidation_of_error hv⟩
  · have hv := validate_of_accepted hc ha
    obtain ⟨t, ht, hd⟩ := finish_decodeOverlap_of_le hv hn
    refine ⟨t, (afterValidation_of_ok hv).trans ht, hd.succeeded, hd.decodeFrame, hd.paramsAre hc, hd.result_toNat,
      fun i hi => ?_, fun i hi => hd.seqWord_above (hd.result_toNat.trans_le hi)⟩
    rw [hd.seqWord_below hi, overlapElement_of_accepted ha]
    exact toNat_wordOf (fieldRead_lt_of_validate hv _ _ _)
  · rw [exec_decodeOvl, afterValidation_of_ok (validate_of_accepted hc ha)]
    exact finish_of_error (if_pos hn)

/-- Settles O33: on an accepted container the element GET.OVL answers, or E_RANGE; otherwise the header's error. -/
theorem getOverlapReadsElement : Obligations.GetOverlapReadsElement := by
  intro s hc
  refine ⟨fun h ha hi => ?_, fun h ha hi => ?_, fun e hv => afterValidation_of_error hv⟩
  · have hv := validate_of_accepted hc ha
    obtain ⟨t, ht, hf⟩ := finish_getOverlap_of_lt hv hi
    refine ⟨t, (afterValidation_of_ok hv).trans ht, hf.succeeded, hf.parseFrame, hf.paramsAre hc, ?_⟩
    rw [hf.result_eq, overlapElement_of_accepted ha]
    exact toNat_wordOf (fieldRead_lt_of_validate hv _ _ _)
  · rw [exec_getOvl, afterValidation_of_ok (validate_of_accepted hc ha)]
    exact finish_of_error (if_pos hi)

/-! ### The overlap round trip -/

section Commands

variable {s : State} {h : Header} (hvar : h.var = .ovl)
  (hv : ∀ sel, (sel = .auto ∨ sel = .only .ovl) → validate s sel = .ok h)
include hvar hv

/-- R109, R160: the commands that decode an accepted overlap container. -/
theorem exec_decode_overlap {d : Instr} (hd : d = .decodeOvl ∨ d = .decodeAuto) :
    exec d s = s.finish (decodeOverlap s h) := by
  rcases hd with rfl | rfl
  · exact afterValidation_of_ok (hv _ (.inr rfl))
  · show execDecodeAuto s = _
    simp only [execDecodeAuto, hv .auto (.inl rfl), hvar]

/-- R111, R161: the commands that read an element of an accepted overlap container. -/
theorem exec_get_overlap {g : Instr} (hg : g = .getOvl ∨ g = .getAuto) :
    exec g s = s.finish (getOverlap s h) := by
  rcases hg with rfl | rfl
  · exact afterValidation_of_ok (hv _ (.inr rfl))
  · show execGetAuto s = _
    simp only [execGetAuto, hv .auto (.inl rfl), hvar]

end Commands

/-- R106, R108: the elements read from a container ENCODE.OVL wrote are those of the sequence. -/
theorem Stored.overlapElement_eq {s t : State} (hs : Stored s t s.overlapRecord [] (s.inputSequence s.operandN))
    (hc : s.cfg.Valid) {i : Nat} (hi : i < s.operandN) :
    overlapElement t s.overlapRecord i = (s.seqWord i).toNat := by
  obtain ⟨hfield, hlt⟩ := inputSequence_fields s s.operandN
  obtain ⟨hread, -⟩ := hs.payloadHolds hc hfield hlt
  exact hread i hi

/-- Settles O55: the container ENCODE.OVL wrote is accepted wherever CONT and CLEN are as it left them, and its elements
are those of the sequence. -/
theorem overlapRoundTrip : Obligations.OverlapRoundTrip := by
  intro s hc hn hlen
  obtain ⟨t, ht, hs⟩ := exec_encodeOvl_stored hn hlen
  refine ⟨t, ht, fun u hcfg hepoch hcont hclen => ?_⟩
  have hu : SameContainer t u := ⟨hcfg, hepoch, hcont, hclen⟩
  have hct : t.cfg = s.cfg := exec_cfg ht
  have hv : ∀ sel, (sel = .auto ∨ sel = .only .ovl) → validate u sel = .ok s.overlapRecord := fun sel hsel =>
    (hu.validate_eq sel).trans
      (validate_of_accepted (hct ▸ hc) (hs.accepted hc (hs.possibleHeader_overlap hc) hsel))
  have helement : ∀ i, i < s.operandN → wordOf (overlapElement u s.overlapRecord i) = s.seqWord i := fun i hi => by
    rw [hu.overlapElement_eq, hs.overlapElement_eq hc hi, wordOf_toNat]
  have hauto := hv .auto (.inl rfl)
  refine ⟨fun d hd => ?_, fun g hg hi => ?_⟩
  · obtain ⟨r, hr, hdec⟩ := finish_decodeOverlap_of_le hauto (hcfg ▸ hct ▸ hn)
    exact ⟨r, (exec_decode_overlap rfl hv hd).trans hr, hdec.succeeded, BitVec.eq_of_toNat_eq hdec.result_toNat,
      fun i hi => (hdec.seqWord_below hi).trans (helement i hi)⟩
  · obtain ⟨r, hr, hf⟩ := finish_getOverlap_of_lt hauto hi
    exact ⟨r, (exec_get_overlap rfl hv hg).trans hr, hf.succeeded, hf.result_eq.trans (helement _ hi)⟩

end Sys2Proof.Machine
end

section
/-! PROOFS. The statements of 44_nonoverlap.md: how the commands of every variant and AUTO go on after validation, what
a DECODE and a GET answer, and from these the non-overlap codec, its lanes and its round trip. -/

namespace Sys2Proof.Machine

/-! ### The commands of a variant and AUTO -/

/-- R109, R119, R134: DECODE of a variant after validation. -/
def decodeBody : Variant → State → Header → Except ErrCode State
  | .ovl => decodeOverlap
  | .nov => decodeNonOverlap
  | .ovf => decodeOverflow

/-- R111, R121, R136: GET of a variant after validation. -/
def getBody : Variant → State → Header → Except ErrCode State
  | .ovl => getOverlap
  | .nov => getNonOverlap
  | .ovf => getOverflow

theorem exec_decodeFor (v : Variant) (s : State) :
    exec (decodeFor v) s = afterValidation (.only v) (decodeBody v) s := by
  cases v <;> rfl

theorem exec_getFor (v : Variant) (s : State) : exec (getFor v) s = afterValidation (.only v) (getBody v) s := by
  cases v <;> rfl

section AfterValidation

variable {s : State} {h : Header}

/-- R160: DECODE.AUTO goes on as the variant the tag names. -/
theorem exec_decodeAuto_of_ok (hv : validate s .auto = .ok h) :
    exec .decodeAuto s = s.finish (decodeBody h.var s h) := by
  show execDecodeAuto s = _
  simp only [execDecodeAuto, hv]
  cases h.var <;> rfl

/-- R161: GET.AUTO goes on as the variant the tag names. -/
theorem exec_getAuto_of_ok (hv : validate s .auto = .ok h) : exec .getAuto s = s.finish (getBody h.var s h) := by
  show execGetAuto s = _
  simp only [execGetAuto, hv]
  cases h.var <;> rfl

variable (hv : ∀ sel, (sel = .auto ∨ sel = .only h.var) → validate s sel = .ok h)
include hv

/-- R163: DECODE of the container's variant and DECODE.AUTO go on alike. -/
theorem exec_decode_of_ok {d : Instr} (hd : d = decodeFor h.var ∨ d = .decodeAuto) :
    exec d s = s.finish (decodeBody h.var s h) := by
  rcases hd with rfl | rfl
  · exact (exec_decodeFor h.var s).trans (afterValidation_of_ok (hv _ (.inr rfl)))
  · exact exec_decodeAuto_of_ok (hv _ (.inl rfl))

/-- R163: GET of the container's variant and GET.AUTO go on alike. -/
theorem exec_get_of_ok {g : Instr} (hg : g = getFor h.var ∨ g = .getAuto) :
    exec g s = s.finish (getBody h.var s h) := by
  rcases hg with rfl | rfl
  · exact (exec_getFor h.var s).trans (afterValidation_of_ok (hv _ (.inr rfl)))
  · exact exec_getAuto_of_ok (hv _ (.inl rfl))

end AfterValidation

/-! ### What a DECODE and a GET answer -/

/-- R109, R119: a DECODE of words read place by place. -/
theorem Decoded.answers {s t : State} {sel : Selector} {h : Header} {read : Nat → Nat}
    (hd : Decoded s t sel h ((List.range h.n).map read)) (hc : s.cfg.Valid) (hread : ∀ i, read i < 2 ^ 32) :
    SucceededFrom s t ∧ DecodeFrame s t ∧ ParamsAre t h ∧ t.result.toNat = h.n ∧
      (∀ i, i < h.n → (t.seqWord i).toNat = read i) ∧ ∀ i, h.n ≤ i → t.seqWord i = s.seqWord i := by
  refine ⟨hd.succeeded, hd.decodeFrame, hd.paramsAre hc, hd.result_toNat, fun i hi => ?_,
    fun i hi => hd.seqWord_above (hd.result_toNat.trans_le hi)⟩
  rw [hd.seqWord_below hi, toNat_wordOf (hread i)]

/-- R111, R121: a GET of a word. -/
theorem Fetched.answers {s t : State} {sel : Selector} {h : Header} {r : Nat} (hf : Fetched s t sel h r)
    (hc : s.cfg.Valid) (hr : r < 2 ^ 32) :
    SucceededFrom s t ∧ ParseFrame s t ∧ ParamsAre t h ∧ t.result.toNat = r := by
  refine ⟨hf.succeeded, hf.parseFrame, hf.paramsAre hc, ?_⟩
  rw [hf.result_eq, toNat_wordOf hr]

/-- R155: a container an ENCODE wrote is accepted wherever CONT and CLEN are as it left them. -/
theorem Stored.validate_sameContainer {s t u : State} {h : Header} {table fields : List Nat}
    (hs : Stored s t h table fields) (hc : s.cfg.Valid) (hh : PossibleHeader s.cfg h) (hu : SameContainer t u)
    {sel : Selector} (hsel : sel = .auto ∨ sel = .only h.var) : validate u sel = .ok h := by
  have ha := hs.accepted hc hh hsel
  obtain ⟨-, -, -, -, -, rfl⟩ := hs
  exact (hu.validate_eq sel).trans (validate_of_accepted hc ha)

/-! ### The lanes of a word -/

section Lane

variable {w : Nat} (hw : 1 ≤ w) (hw32 : w ≤ 32)
include hw hw32

/-- R117: every lane ends inside its word. -/
theorem lane_fits (i : Nat) : i % (32 / w) * w + w ≤ 32 :=
  calc i % (32 / w) * w + w = (i % (32 / w) + 1) * w := (Nat.succ_mul _ _).symm
    _ ≤ 32 / w * w := Nat.mul_le_mul_right w (Nat.mod_lt i (Nat.div_pos hw32 hw))
    _ ≤ 32 := Nat.div_mul_le_self 32 w

/-- R118: a field in a lane is its word shifted right and masked, since it does not straddle. -/
theorem fieldRead_lane (word : Nat → Word) (base i : Nat) :
    fieldRead word base (fieldOffset .nov w i) w =
      (word (base + i / (32 / w))).toNat >>> (i % (32 / w) * w) &&& mask w := by
  have hfit := lane_fits hw hw32 i
  have hword : fieldOffset .nov w i / 32 = i / (32 / w) := by simp only [fieldOffset]; omega
  have hplace : fieldOffset .nov w i % 32 = i % (32 / w) * w := by simp only [fieldOffset]; omega
  rw [fieldRead_eq_words word base _ w hw32, hword, hplace, if_neg (Nat.not_lt.mpr hfit), Nat.or_zero]

end Lane

/-! ### ENCODE.NOV -/

theorem exec_encodeNov (s : State) : exec .encodeNov s = s.finish (encodeNonOverlap s) := rfl

/-- R115: the header of the non-overlap container of SEQ[0..n-1], n the operand. -/
def State.nonOverlapRecord (s : State) : Header :=
  headerOf s.cfg .nov s.operandN (widthOf (s.inputSequence s.operandN)) 0 0 0

/-- It is the header ENCODE.NOV makes of its input. -/
theorem nonOverlapHeader_inputSequence (s : State) :
    nonOverlapHeader s.cfg (s.inputSequence s.operandN) = s.nonOverlapRecord := by
  rw [nonOverlapHeader, length_inputSequence, State.nonOverlapRecord]

theorem encodeNonOverlap_eq (s : State) :
    encodeNonOverlap s = if s.cfg.seqWords < s.operandN then .error .capacity
      else storeContainer s s.nonOverlapRecord [] (s.inputSequence s.operandN) := by
  rw [← nonOverlapHeader_inputSequence]
  rfl

theorem nonOverlapRecord_encoded (s : State) : Encoded s.nonOverlapRecord [] (s.inputSequence s.operandN) :=
  nonOverlapHeader_inputSequence s ▸ nonOverlapHeader_encoded fun _ => mem_inputSequence_lt

/-- R117: a sequence that fits SEQ, its container CONT, is encoded. -/
theorem exec_encodeNov_stored {s : State} (hn : s.operandN ≤ s.cfg.seqWords)
    (hlen : s.nonOverlapRecord.len ≤ s.cfg.contWords) :
    ∃ t, exec .encodeNov s = .next t ∧ Stored s t s.nonOverlapRecord [] (s.inputSequence s.operandN) := by
  refine ⟨_, ?_, hn, rfl, rfl, hlen, fun _ => nonOverlapRecord_encoded s, rfl⟩
  rw [exec_encodeNov, encodeNonOverlap_eq, if_neg (Nat.not_lt.mpr hn), storeContainer,
    if_neg (Nat.not_lt.mpr hlen), State.finish_ok]

/-- R117: a sequence or a container that does not fit is E_CAPACITY. -/
theorem encodeNonOverlap_of_not_fits {s : State}
    (hcap : s.cfg.seqWords < s.operandN ∨ s.cfg.contWords < s.nonOverlapRecord.len) :
    encodeNonOverlap s = .error .capacity := by
  rw [encodeNonOverlap_eq]
  split
  · rfl
  · next hn => exact if_pos (hcap.resolve_left hn)

/-- R75, R115: a stored non-overlap header is possible. -/
theorem Stored.possibleHeader_nonOverlap {s t : State} {fields : List Nat}
    (hs : Stored s t s.nonOverlapRecord [] fields) (hc : s.cfg.Valid) : PossibleHeader s.cfg s.nonOverlapRecord :=
  hs.possibleHeader hc rfl ⟨rfl, rfl, rfl⟩

/-- R116, R82: the lanes hold the elements of the sequence, every other payload bit is zero. -/
theorem Stored.payloadHolds_nonOverlap {s t : State}
    (hs : Stored s t s.nonOverlapRecord [] (s.inputSequence s.operandN)) (hc : s.cfg.Valid) :
    PayloadHolds t.contWord 5 s.nonOverlapRecord.plen s.nonOverlapRecord.w s.operandN
      (fieldOffset .nov s.nonOverlapRecord.w) fun i => (s.seqWord i).toNat := by
  obtain ⟨hfield, hlt⟩ := inputSequence_fields s s.operandN
  exact hs.payloadHolds hc hfield hlt

/-- Settles O27: what the container holds is read off its acceptance, its payload, and the words past it. -/
theorem encodeNonOverlapWritesContainer : Obligations.EncodeNonOverlapWritesContainer := by
  intro s hc
  refine ⟨fun hn hlen => ?_, fun hcap => finish_of_error (encodeNonOverlap_of_not_fits hcap)⟩
  obtain ⟨t, ht, hs⟩ := exec_encodeNov_stored hn hlen
  have hh := hs.possibleHeader_nonOverlap hc
  obtain ⟨hresult, hclen⟩ := hs.length_toNat hc
  obtain ⟨-, -, hmagic, hversion, htag, -, -, hcount, hwidth, -⟩ := hs.accepted hc hh (.inr rfl)
  rw [exec_cfg ht] at hmagic hversion
  exact ⟨t, ht, hs.succeeded, hs.encodeFrame, hresult, hclen, hs.paramsAre hc hh, hmagic, hversion, htag,
    hcount.symm, hwidth.symm, hs.payloadHolds_nonOverlap hc, fun i _ => lane_fits hh.width_pos hh.width_le i,
    fun i hi => hs.contWord_above hc (hclen.trans_le hi)⟩

/-! ### DECODE.NOV and GET.NOV -/

section NonOverlap

variable {s : State} {sel : Selector} {h : Header}

/-- R119: an accepted container whose elements fit SEQ is decoded. -/
theorem finish_decodeNonOverlap_of_le (hv : validate s sel = .ok h) (hn : h.n ≤ s.cfg.seqWords) :
    ∃ t, s.finish (decodeNonOverlap s h) = .next t ∧
      Decoded s t sel h ((List.range h.n).map (nonOverlapElement s h)) :=
  ⟨_, congrArg s.finish (if_neg (Nat.not_lt.mpr hn)), hv, hn, by simp, rfl⟩

/-- R121: an element of an accepted container is answered. -/
theorem finish_getNonOverlap_of_lt (hv : validate s sel = .ok h) (hi : s.operandI < h.n) :
    ∃ t, s.finish (getNonOverlap s h) = .next t ∧ Fetched s t sel h (nonOverlapElement s h s.operandI) :=
  ⟨_, congrArg s.finish (if_neg (Nat.not_le.mpr hi)), hv, hi, rfl⟩

theorem nonOverlapElement_lt (hv : validate s sel = .ok h) (i : Nat) : nonOverlapElement s h i < 2 ^ 32 :=
  fieldRead_lt_of_validate hv _ _ _

/-- R118: the elements of a validated non-overlap container. -/
theorem nonOverlapElement_of_accepted (ha : AcceptedContainer s (.only .nov) h) (i : Nat) :
    nonOverlapElement s h i = fieldRead s.contWord 5 (fieldOffset .nov h.w i) h.w := by
  obtain ⟨-, -, -, -, -, -, hsel, -, -, hp⟩ := ha
  have hvar : .nov = h.var := by simpa using hsel
  simp only [AcceptedParameters, ← hvar] at hp
  obtain ⟨-, -, -, -, -, hpbase, -⟩ := hp
  rw [nonOverlapElement, hpbase]

end NonOverlap

/-- Settles O30: on an accepted container the words DECODE.NOV stores; otherwise the error of the failed check. -/
theorem decodeNonOverlapRestoresSequence : Obligations.DecodeNonOverlapRestoresSequence := by
  intro s hc
  refine ⟨fun h ha hn => ?_, fun h ha hn => ?_, fun e hv => afterValidation_of_error hv⟩
  · have hv := validate_of_accepted hc ha
    obtain ⟨t, ht, hd⟩ := finish_decodeNonOverlap_of_le hv hn
    obtain ⟨hsucc, hframe, hparams, hresult, hbelow, habove⟩ := hd.answers hc (nonOverlapElement_lt hv)
    exact ⟨t, (afterValidation_of_ok hv).trans ht, hsucc, hframe, hparams, hresult,
      fun i hi => (hbelow i hi).trans (nonOverlapElement_of_accepted ha i), habove⟩
  · rw [exec_decodeNov, afterValidation_of_ok (validate_of_accepted hc ha)]
    exact finish_of_error (if_pos hn)

/-- Settles O34: on an accepted container the lane GET.NOV answers, or E_RANGE; otherwise the header's error. -/
theorem getNonOverlapReadsLane : Obligations.GetNonOverlapReadsLane := by
  intro s hc
  refine ⟨fun h ha hi => ?_, fun h ha hi => ?_, fun e hv => afterValidation_of_error hv⟩
  · have hv := validate_of_accepted hc ha
    have hh := validate_possibleHeader hv
    obtain ⟨t, ht, hf⟩ := finish_getNonOverlap_of_lt hv hi
    obtain ⟨hsucc, hframe, hparams, hresult⟩ := hf.answers hc (nonOverlapElement_lt hv _)
    refine ⟨t, (afterValidation_of_ok hv).trans ht, hsucc, hframe, hparams, ?_⟩
    rw [hresult, nonOverlapElement_of_accepted ha, fieldRead_lane hh.width_pos hh.width_le]
  · rw [exec_getNov, afterValidation_of_ok (validate_of_accepted hc ha)]
    exact finish_of_error (if_pos hi)

/-! ### The non-overlap round trip -/

/-- R116, R118: the elements read from a container ENCODE.NOV wrote are those of the sequence. -/
theorem Stored.nonOverlapElement_eq {s t : State}
    (hs : Stored s t s.nonOverlapRecord [] (s.inputSequence s.operandN)) (hc : s.cfg.Valid) {i : Nat}
    (hi : i < s.operandN) : nonOverlapElement t s.nonOverlapRecord i = (s.seqWord i).toNat := by
  obtain ⟨hread, -⟩ := hs.payloadHolds_nonOverlap hc
  exact hread i hi

/-- Settles O56: the container ENCODE.NOV wrote is accepted wherever CONT and CLEN are as it left them, and its lanes
hold the sequence. -/
theorem nonOverlapRoundTrip : Obligations.NonOverlapRoundTrip := by
  intro s hc hn hlen
  obtain ⟨t, ht, hs⟩ := exec_encodeNov_stored hn hlen
  refine ⟨t, ht, fun u hcfg hepoch hcont hclen => ?_⟩
  have hu : SameContainer t u := ⟨hcfg, hepoch, hcont, hclen⟩
  have hcu : u.cfg = s.cfg := hcfg.trans (exec_cfg ht)
  have hv : ∀ sel, (sel = .auto ∨ sel = .only .nov) → validate u sel = .ok s.nonOverlapRecord := fun _ =>
    hs.validate_sameContainer hc (hs.possibleHeader_nonOverlap hc) hu
  have hauto := hv .auto (.inl rfl)
  have helement : ∀ i, i < s.operandN → nonOverlapElement u s.nonOverlapRecord i = (s.seqWord i).toNat :=
    fun i hi => by rw [hu.nonOverlapElement_eq, hs.nonOverlapElement_eq hc hi]
  refine ⟨fun d hd => ?_, fun g hg hi => ?_⟩
  · obtain ⟨r, hr, hdec⟩ := finish_decodeNonOverlap_of_le hauto (hcu ▸ hn)
    obtain ⟨hsucc, -, -, hresult, hbelow, -⟩ := hdec.answers (hcu ▸ hc) (nonOverlapElement_lt hauto)
    exact ⟨r, (exec_decode_of_ok (h := s.nonOverlapRecord) hv hd).trans hr, hsucc, BitVec.eq_of_toNat_eq hresult,
      fun i hi => BitVec.eq_of_toNat_eq ((hbelow i hi).trans (helement i hi))⟩
  · obtain ⟨r, hr, hf⟩ := finish_getNonOverlap_of_lt hauto hi
    obtain ⟨hsucc, -, -, hresult⟩ := hf.answers (hcu ▸ hc) (nonOverlapElement_lt hauto _)
    exact ⟨r, (exec_get_of_ok (h := s.nonOverlapRecord) hv hg).trans hr, hsucc,
      BitVec.eq_of_toNat_eq (hresult.trans (helement _ hi))⟩

end Sys2Proof.Machine
end

section
/-! PROOFS. The statements of 45_overflow.md: the overflow parameters of a sequence, the elements of an overflow
container by indicator and content, what ENCODE.OVF writes, and from these the overflow codec, its references and its
round trip. -/

namespace Sys2Proof.Machine

/-! ### The overflow parameters -/

/-- R15: half a number is one bit shorter. -/
theorem bitLen_half (x : Nat) : bitLen (x / 2) = bitLen x - 1 :=
  eq_of_forall_ge_iff fun b =>
    calc bitLen (x / 2) ≤ b ↔ x / 2 < 2 ^ b := bitLen_le_iff
      _ ↔ x < 2 ^ (b + 1) := Nat.div_lt_iff_lt_mul two_pos
      _ ↔ bitLen x ≤ b + 1 := bitLen_le_iff.symm
      _ ↔ bitLen x - 1 ≤ b := Nat.sub_le_iff_le_add.symm

theorem two_pow_le_iff_lt_bitLen {x b : Nat} : 2 ^ b ≤ x ↔ b < bitLen x := by
  rw [← Nat.not_lt, ← bitLen_le_iff, Nat.not_le]

/-- R125: the threshold has one bit less than the maximum, but at least one. -/
theorem thresholdBits_eq (values : List Nat) : thresholdBits values = max 1 (bitLen (maxOf values) - 1) := by
  rw [thresholdBits, bitLen_half]

/-- R137: with the indicator the content has room for the overlap width. -/
theorem widthOf_le_thresholdBits (values : List Nat) : widthOf values ≤ 1 + thresholdBits values := by
  rw [thresholdBits_eq, widthOf]
  omega

/-- Settles O51: each parameter reaches its largest value exactly when 30 bits are too few. -/
theorem overflowParameterBounds : Obligations.OverflowParameterBounds := by
  intro values hwords hlen tb k ib fw
  have htb1 : 1 ≤ tb := thresholdBits_pos values
  have htb : tb ≤ 31 := thresholdBits_le hwords
  have hib : ib ≤ 31 := indexBits_le ((length_overflowTable_le tb values).trans hlen)
  have htb_max : tb = max 1 (bitLen (maxOf values) - 1) := thresholdBits_eq values
  have hmax : 2 ^ 31 ≤ maxOf values ↔ 31 < bitLen (maxOf values) := two_pow_le_iff_lt_bitLen
  have hindex : 2 ^ 30 ≤ k - 1 ↔ 30 < ib := two_pow_le_iff_lt_bitLen
  refine ⟨htb1, htb, hib, ?_, ?_, ?_⟩ <;> omega

theorem mem_overflowTable_iff {tb : Nat} {values : List Nat} {v : Nat} :
    v ∈ overflowTable tb values ↔ v ∈ values ∧ 2 ^ tb ≤ v := by
  simp [overflowTable]

/-- R137: wider fields make no shorter payload. -/
theorem payloadLength_ovl_le_ovf {w fw : Nat} (hw : w ≤ fw) (n : Nat) :
    payloadLength .ovl n w ≤ payloadLength .ovf n fw :=
  ceilDiv_le (by decide) ((Nat.mul_le_mul_left n hw).trans (le_mul_ceilDiv (by decide)))

/-- R137: a maximum of at most 1 has the least threshold. -/
theorem thresholdBits_of_maxOf_le_one {values : List Nat} (hm : maxOf values ≤ 1) : thresholdBits values = 1 := by
  have hlen : bitLen (maxOf values) ≤ 1 := bitLen_le_iff.mpr (Nat.lt_succ_of_le hm)
  rw [thresholdBits_eq]
  omega

/-- R126: a threshold no element reaches leaves the table empty. -/
theorem overflowTable_eq_nil {tb : Nat} {values : List Nat} (h : ∀ v ∈ values, v < 2 ^ tb) :
    overflowTable tb values = [] :=
  List.eq_nil_iff_forall_not_mem.mpr fun v hv =>
    have ⟨hmem, hle⟩ := mem_overflowTable_iff.mp hv
    Nat.not_lt.mpr hle (h v hmem)

/-- R137: the threshold of a maximum of 2 or more is the maximum's highest bit. -/
theorem thresholdBits_of_two_le_maxOf {values : List Nat} (hm : 2 ≤ maxOf values) :
    thresholdBits values = bitLen (maxOf values) - 1 := by
  have hlen : 1 < bitLen (maxOf values) := two_pow_le_iff_lt_bitLen.mp hm
  rw [thresholdBits_eq]
  omega

/-- R137: so the maximum itself overflows. -/
theorem maxOf_mem_overflowTable {values : List Nat} (hm : 2 ≤ maxOf values) :
    maxOf values ∈ overflowTable (thresholdBits values) values := by
  have hlen : 1 < bitLen (maxOf values) := two_pow_le_iff_lt_bitLen.mp hm
  refine mem_overflowTable_iff.mpr ⟨maxOf_mem (by omega), two_pow_le_iff_lt_bitLen.mpr ?_⟩
  rw [thresholdBits_of_two_le_maxOf hm]
  omega

/-- Settles O52: the two cases of the maximum; the field is never narrower than the overlap width, the header is three
words longer, and the table, where it is not empty, one more. -/
theorem overflowThresholdSelects : Obligations.OverflowThresholdSelects := by
  intro values _ _ m tb k fw ovl ovf
  have hwidth : widthOf values ≤ fw := (widthOf_le_thresholdBits values).trans
    (Nat.add_le_add_left (Nat.le_max_left _ _) 1)
  have hpayload := payloadLength_ovl_le_ovf hwidth values.length
  refine ⟨fun hm => ?_, fun hm => ?_⟩
  · have htb : tb = 1 := thresholdBits_of_maxOf_le_one hm
    have hsmall : ∀ v ∈ values, v < 2 ^ 1 := fun v hv => Nat.lt_succ_of_le ((le_maxOf hv).trans hm)
    have hk : k = 0 := congrArg List.length (overflowTable_eq_nil (htb ▸ hsmall))
    have hfw : fw = 2 := by
      show 1 + max tb (indexBits k) = 2
      rw [hk, htb]
      rfl
    exact ⟨htb, hsmall, hk, hfw, widthOf_eq_one_iff.mpr hm, by omega⟩
  · have htb : tb = bitLen m - 1 := thresholdBits_of_two_le_maxOf hm
    have hmax : m ∈ overflowTable tb values := maxOf_mem_overflowTable hm
    have hk : 1 ≤ k := List.length_pos_of_mem hmax
    have hlen : 1 < bitLen m := two_pow_le_iff_lt_bitLen.mp hm
    have hfw : fw = 1 + max (bitLen m - 1) (bitLen (k - 1)) := congrArg (fun b => 1 + max b (indexBits k)) htb
    refine ⟨htb, fun v hv => ?_, hmax, hk, by omega, hwidth, by omega⟩
    rw [← htb, mem_overflowTable_iff]
    exact ⟨fun ⟨_, hle⟩ => ⟨hle, le_maxOf hv⟩, fun ⟨hle, _⟩ => ⟨hv, hle⟩⟩

/-! ### The elements of an overflow container -/

/-- R129: a field with indicator 0 is its content, one with indicator 1 is 2^cb more. -/
theorem indicator_cases {f cb : Nat} (hf : f < 2 ^ (cb + 1)) :
    (f < 2 ^ cb ∧ f.testBit cb = false ∧ f % 2 ^ cb = f) ∨
      (2 ^ cb ≤ f ∧ f.testBit cb = true ∧ f % 2 ^ cb = f - 2 ^ cb) := by
  rcases Nat.lt_or_ge f (2 ^ cb) with hlt | hge
  · exact .inl ⟨hlt, Nat.testBit_lt_two_pow hlt, Nat.mod_eq_of_lt hlt⟩
  · obtain ⟨c, rfl⟩ := Nat.exists_eq_add_of_le hge
    have hc : c < 2 ^ cb := by omega
    refine .inr ⟨hge, ?_, ?_⟩
    · rw [Nat.testBit_two_pow_add_eq, Nat.testBit_lt_two_pow hc, Bool.not_false]
    · rw [Nat.add_mod_left, Nat.mod_eq_of_lt hc, Nat.add_sub_cancel_left]

/-- R132: field i of an overflow container. -/
def overflowFieldAt (word : Nat → Word) (h : Header) (i : Nat) : Nat :=
  fieldRead word (8 + h.k) (i * h.w) h.w

/-- R132: the content of field i, all of it but its highest bit. -/
def overflowContentAt (word : Nat → Word) (h : Header) (i : Nat) : Nat :=
  overflowFieldAt word h i % 2 ^ (h.w - 1)

section Element

variable {word : Nat → Word} {h : Header} {i : Nat}

theorem overflowFieldAt_cases (hw : 1 ≤ h.w) :
    (overflowFieldAt word h i < 2 ^ (h.w - 1) ∧ (overflowFieldAt word h i).testBit (h.w - 1) = false ∧
        overflowContentAt word h i = overflowFieldAt word h i) ∨
      (2 ^ (h.w - 1) ≤ overflowFieldAt word h i ∧ (overflowFieldAt word h i).testBit (h.w - 1) = true ∧
        overflowContentAt word h i = overflowFieldAt word h i - 2 ^ (h.w - 1)) :=
  indicator_cases (by rw [Nat.sub_add_cancel hw]; exact fieldRead_lt _ _ _ _)

theorem elementAt_ovf (hvar : h.var = .ovf) :
    elementAt word h i =
      if overflowFieldAt word h i < 2 ^ (h.w - 1) then some (overflowFieldAt word h i)
      else if overflowFieldAt word h i - 2 ^ (h.w - 1) < h.k then
        some (word (8 + (overflowFieldAt word h i - 2 ^ (h.w - 1)))).toNat
      else none := by
  rw [elementAt, hvar]
  rfl

variable (hvar : h.var = .ovf) (hw : 1 ≤ h.w)
include hvar hw

/-- R132: a field with indicator 0 holds its element. -/
theorem elementAt_of_content (hbit : (overflowFieldAt word h i).testBit (h.w - 1) = false) :
    elementAt word h i = some (overflowContentAt word h i) := by
  rcases overflowFieldAt_cases (word := word) (i := i) hw with ⟨hlt, -, hcontent⟩ | ⟨-, hset, -⟩
  · rw [elementAt_ovf hvar, if_pos hlt, hcontent]
  · rw [hset] at hbit; cases hbit

/-- R132, R133: a field with indicator 1 names a table entry, or none where its content is k or more. -/
theorem elementAt_of_index (hbit : (overflowFieldAt word h i).testBit (h.w - 1) = true) :
    elementAt word h i =
      if overflowContentAt word h i < h.k then some (word (8 + overflowContentAt word h i)).toNat else none := by
  rcases overflowFieldAt_cases (word := word) (i := i) hw with ⟨-, hclear, -⟩ | ⟨hge, -, hcontent⟩
  · rw [hclear] at hbit; cases hbit
  · rw [elementAt_ovf hvar, if_neg (Nat.not_lt.mpr hge), hcontent]

end Element

/-- R147: an element of an accepted container is a word's value. -/
theorem elementAt_lt {word : Nat → Word} {h : Header} {i v : Nat} (hw : h.w ≤ 32)
    (hv : elementAt word h i = some v) : v < 2 ^ 32 := by
  have hfield : ∀ base off, fieldRead word base off h.w < 2 ^ 32 := fun base off =>
    (fieldRead_lt word base off h.w).trans_le (Nat.pow_le_pow_right (by decide) hw)
  unfold elementAt at hv
  cases hvar : h.var <;> simp only [hvar] at hv
  case ovl | nov =>
    cases hv
    exact hfield _ _
  case ovf =>
    split_ifs at hv <;> cases hv
    · exact hfield _ _
    · exact BitVec.isLt _

/-- R132, R133: ReadOVF gives the element of the field, or E_INDEX where it has none. -/
theorem readOverflow_eq_elementAt {s : State} {h : Header} (hvar : h.var = .ovf) (hpbase : h.pbase = 8 + h.k)
    (hw : 1 ≤ h.w) (i : Nat) :
    readOverflow s h i = (elementAt s.contWord h i).elim (.error .index) .ok := by
  have hread : readOverflow s h i =
      if (overflowFieldAt s.contWord h i).testBit (h.w - 1) = false then .ok (overflowContentAt s.contWord h i)
      else if h.k ≤ overflowContentAt s.contWord h i then .error .index
      else .ok (s.contWord (8 + overflowContentAt s.contWord h i)).toNat := by
    unfold readOverflow
    dsimp only
    rw [hpbase, mask_and]
    rfl
  rw [hread]
  cases hbit : (overflowFieldAt s.contWord h i).testBit (h.w - 1) with
  | false => rw [if_pos rfl, elementAt_of_content hvar hw hbit]; rfl
  | true =>
    rw [if_neg (by decide), elementAt_of_index hvar hw hbit]
    rcases Nat.lt_or_ge (overflowContentAt s.contWord h i) h.k with hlt | hge
    · rw [if_neg (Nat.not_le.mpr hlt), if_pos hlt]; rfl
    · rw [if_pos hge, if_neg (Nat.not_lt.mpr hge)]; rfl

theorem AcceptedContainer.var_eq {s : State} {v : Variant} {h : Header} (ha : AcceptedContainer s (.only v) h) :
    h.var = v := by
  obtain ⟨-, -, -, -, -, -, hsel, -⟩ := ha
  simpa [eq_comm] using hsel

section Accepted

variable {s : State} {sel : Selector} {h : Header} (ha : AcceptedContainer s sel h) (hvar : h.var = .ovf)
include ha hvar

theorem readOverflow_of_accepted (i : Nat) :
    readOverflow s h i = (elementAt s.contWord h i).elim (.error .index) .ok := by
  obtain ⟨-, -, -, -, -, -, -, -, -, hp⟩ := ha
  simp only [AcceptedParameters, hvar] at hp
  obtain ⟨-, -, -, -, hwidth, -, hpbase, -⟩ := hp
  exact readOverflow_eq_elementAt hvar hpbase (by omega) i

/-- R132: ReadOVF of a field of an accepted container that names a value. -/
theorem readOverflow_of_some {i v : Nat} (he : elementAt s.contWord h i = some v) : readOverflow s h i = .ok v := by
  rw [readOverflow_of_accepted ha hvar, he, Option.elim_some]

/-- R133: ReadOVF of a field of an accepted container that names none. -/
theorem readOverflow_of_none {i : Nat} (he : elementAt s.contWord h i = none) :
    readOverflow s h i = .error .index := by
  rw [readOverflow_of_accepted ha hvar, he, Option.elim_none]

end Accepted

/-! ### DECODE.OVF and GET.OVF -/

section Overflow

variable {s : State} {sel : Selector} {h : Header}

/-- R134: where every place holds an element, all of them are read. -/
theorem readOverflowAll_of_ok {read : Nat → Nat} {is : List Nat}
    (hread : ∀ i ∈ is, readOverflow s h i = .ok (read i)) : readOverflowAll s h is = .ok (is.map read) := by
  induction is with
  | nil => rfl
  | cons i is ih =>
    obtain ⟨hhead, htail⟩ := List.forall_mem_cons.mp hread
    simp only [readOverflowAll, hhead, ih htail, List.map_cons]

/-- R134: an accepted container whose fields all name elements, which fit SEQ, is decoded. -/
theorem finish_decodeOverflow_of_ok {read : Nat → Nat} (hv : validate s sel = .ok h) (hn : h.n ≤ s.cfg.seqWords)
    (hread : ∀ i, i < h.n → readOverflow s h i = .ok (read i)) :
    ∃ t, s.finish (decodeOverflow s h) = .next t ∧ Decoded s t sel h ((List.range h.n).map read) := by
  have hall : readOverflowAll s h (List.range h.n) = .ok ((List.range h.n).map read) :=
    readOverflowAll_of_ok fun i hi => hread i (List.mem_range.mp hi)
  refine ⟨_, ?_, hv, hn, by simp, rfl⟩
  rw [decodeOverflow, if_neg (Nat.not_lt.mpr hn), hall]
  rfl

/-- R134: a field that names no table entry ends the decoding in E_INDEX, wherever it stands. -/
theorem decodeOverflow_of_index {i : Nat} (hn : h.n ≤ s.cfg.seqWords) (hi : i < h.n)
    (hread : readOverflow s h i = .error .index) : decodeOverflow s h = .error .index := by
  rcases decodeOverflow_cases s h with ⟨hlt, -⟩ | ⟨-, ⟨e, hall, hr⟩ | ⟨values, hall, -⟩⟩
  · omega
  · obtain ⟨rfl, -⟩ := readOverflowAll_error hall
    exact hr
  · obtain ⟨hlen, hok⟩ := readOverflowAll_ok hall
    have hi' : i < (List.range h.n).length := by simpa using hi
    have hread' := hok i hi' (hlen ▸ hi')
    rw [List.getElem_range, hread] at hread'
    cases hread'

/-- R136: the element a field names is answered. -/
theorem finish_getOverflow_of_ok {r : Nat} (hv : validate s sel = .ok h) (hi : s.operandI < h.n)
    (hread : readOverflow s h s.operandI = .ok r) :
    ∃ t, s.finish (getOverflow s h) = .next t ∧ Fetched s t sel h r := by
  refine ⟨_, ?_, hv, hi, rfl⟩
  rw [getOverflow, if_neg (Nat.not_le.mpr hi), hread]
  rfl

/-- R136: a field that names no table entry is E_INDEX. -/
theorem getOverflow_of_index (hi : s.operandI < h.n) (hread : readOverflow s h s.operandI = .error .index) :
    getOverflow s h = .error .index := by
  rw [getOverflow, if_neg (Nat.not_le.mpr hi), hread]

end Overflow

/-- Settles O31: on an accepted container the words DECODE.OVF stores, or the error of a field or of the count;
otherwise the header's error. -/
theorem decodeOverflowRestoresSequence : Obligations.DecodeOverflowRestoresSequence := by
  intro s hc
  refine ⟨fun h ha hn hsome => ?_, fun h ha hn ⟨i, hi, hnone⟩ => ?_, fun h ha hn => ?_,
    fun e hv => afterValidation_of_error hv⟩
  · have hv := validate_of_accepted hc ha
    have hw32 := (validate_possibleHeader hv).width_le
    have helement : ∀ i, i < h.n →
        elementAt s.contWord h i = some ((elementAt s.contWord h i).getD 0) := fun i hi => by
      obtain ⟨v, he⟩ := Option.ne_none_iff_exists'.mp (hsome i hi)
      rw [he, Option.getD_some]
    have hlt : ∀ i, (elementAt s.contWord h i).getD 0 < 2 ^ 32 := fun i => by
      cases he : elementAt s.contWord h i with
      | none => exact Nat.two_pow_pos 32
      | some v => exact elementAt_lt hw32 he
    obtain ⟨t, ht, hd⟩ := finish_decodeOverflow_of_ok hv hn fun i hi =>
      readOverflow_of_some ha ha.var_eq (helement i hi)
    obtain ⟨hsucc, hframe, hparams, hresult, hbelow, habove⟩ := hd.answers hc hlt
    exact ⟨t, (afterValidation_of_ok hv).trans ht, hsucc, hframe, hparams, hresult,
      fun i hi => (congrArg some (hbelow i hi)).trans (helement i hi).symm, habove⟩
  · rw [exec_decodeOvf, afterValidation_of_ok (validate_of_accepted hc ha)]
    exact finish_of_error (decodeOverflow_of_index hn hi (readOverflow_of_none ha ha.var_eq hnone))
  · rw [exec_decodeOvf, afterValidation_of_ok (validate_of_accepted hc ha)]
    exact finish_of_error (if_pos hn)

/-- Settles O35: on an accepted container the element GET.OVF answers, E_INDEX for its one field, or E_RANGE; otherwise
the header's error. -/
theorem getOverflowReadsElement : Obligations.GetOverflowReadsElement := by
  intro s hc
  refine ⟨fun h v ha hi hsome => ?_, fun h ha hi hnone => ?_, fun h ha hi => ?_,
    fun e hv => afterValidation_of_error hv⟩
  · have hv := validate_of_accepted hc ha
    obtain ⟨t, ht, hf⟩ := finish_getOverflow_of_ok hv hi (readOverflow_of_some ha ha.var_eq hsome)
    exact ⟨t, (afterValidation_of_ok hv).trans ht,
      hf.answers hc (elementAt_lt (validate_possibleHeader hv).width_le hsome)⟩
  · rw [exec_getOvf, afterValidation_of_ok (validate_of_accepted hc ha)]
    exact finish_of_error (getOverflow_of_index hi (readOverflow_of_none ha ha.var_eq hnone))
  · rw [exec_getOvf, afterValidation_of_ok (validate_of_accepted hc ha)]
    exact finish_of_error (if_pos hi)

/-! ### ENCODE.OVF -/

theorem exec_encodeOvf (s : State) : exec .encodeOvf s = s.finish (encodeOverflow s) := rfl

/-- R127: the header of the overflow container of SEQ[0..n-1], n the operand. -/
def State.overflowRecord (s : State) : Header :=
  let values := s.inputSequence s.operandN
  let tb := thresholdBits values
  let k := values.countP fun v => 2 ^ tb ≤ v
  headerOf s.cfg .ovf s.operandN (1 + max tb (indexBits k)) tb (indexBits k) k

/-- R126: its table. -/
def State.overflowEntries (s : State) : List Nat :=
  overflowTable s.overflowRecord.tb (s.inputSequence s.operandN)

/-- R129: its fields. -/
def State.overflowFieldList (s : State) : List Nat :=
  overflowFields s.overflowRecord.tb (max s.overflowRecord.tb s.overflowRecord.ib) 0 (s.inputSequence s.operandN)

/-- It is the header ENCODE.OVF makes of its input. -/
theorem overflowHeader_inputSequence (s : State) :
    overflowHeader s.cfg (s.inputSequence s.operandN) = s.overflowRecord := by
  simp only [overflowHeader, length_inputSequence, length_overflowTable, State.overflowRecord]

theorem encodeOverflow_eq (s : State) :
    encodeOverflow s = if s.cfg.seqWords < s.operandN then .error .capacity
      else storeContainer s s.overflowRecord s.overflowEntries s.overflowFieldList := by
  rw [State.overflowEntries, State.overflowFieldList, ← overflowHeader_inputSequence]
  rfl

theorem length_overflowEntries (s : State) : s.overflowEntries.length = s.overflowRecord.k :=
  length_overflowTable _ _

theorem overflowRecord_encoded {s : State} (hn : s.operandN ≤ 2 ^ 31) :
    Encoded s.overflowRecord s.overflowEntries s.overflowFieldList := by
  rw [State.overflowEntries, State.overflowFieldList, ← overflowHeader_inputSequence]
  exact overflowHeader_encoded (fun _ => mem_inputSequence_lt) (by rwa [length_inputSequence])

/-- R131: a sequence that fits SEQ, its container CONT, is encoded. -/
theorem exec_encodeOvf_stored {s : State} (hn : s.operandN ≤ s.cfg.seqWords)
    (hlen : s.overflowRecord.len ≤ s.cfg.contWords) :
    ∃ t, exec .encodeOvf s = .next t ∧ Stored s t s.overflowRecord s.overflowEntries s.overflowFieldList := by
  refine ⟨_, ?_, hn, rfl, rfl, hlen, fun hcap => overflowRecord_encoded (hn.trans hcap), rfl⟩
  rw [exec_encodeOvf, encodeOverflow_eq, if_neg (Nat.not_lt.mpr hn), storeContainer, if_neg (Nat.not_lt.mpr hlen),
    State.finish_ok]

/-- R131: an ENCODE.OVF that succeeded stored its container. -/
theorem stored_of_exec_encodeOvf {s t : State} (ht : exec .encodeOvf s = .next t) (herr : t.errFlag = false) :
    Stored s t s.overflowRecord s.overflowEntries s.overflowFieldList := by
  rcases exec_raise_or_completed ht with ⟨e, rfl⟩ | hdone
  · simp at herr
  · rw [State.overflowEntries, State.overflowFieldList, ← overflowHeader_inputSequence]
    exact hdone

/-- R131: a sequence or a container that does not fit is E_CAPACITY. -/
theorem encodeOverflow_of_not_fits {s : State}
    (hcap : s.cfg.seqWords < s.operandN ∨ s.cfg.contWords < s.overflowRecord.len) :
    encodeOverflow s = .error .capacity := by
  rw [encodeOverflow_eq]
  split
  · rfl
  · next hn => exact if_pos (hcap.resolve_left hn)

/-! ### The fields and the table of a sequence -/

/-- R126: the table index of element i, where it overflows. -/
abbrev State.entryIndex (s : State) (i : Nat) : Nat :=
  overflowRank s.overflowRecord.tb (s.inputSequence s.operandN) i

/-- R129: the field of element i. -/
def State.overflowField (s : State) (i : Nat) : Nat :=
  if (s.seqWord i).toNat < 2 ^ s.overflowRecord.tb then (s.seqWord i).toNat
  else 2 ^ max s.overflowRecord.tb s.overflowRecord.ib + s.entryIndex i

section Fields

variable {s : State} {i : Nat} (hi : i < s.operandN)
include hi

/-- R126: an element over the threshold has its own entry. -/
theorem getElem_overflowEntries (hv : 2 ^ s.overflowRecord.tb ≤ (s.seqWord i).toNat) :
    ∃ h : s.entryIndex i < s.overflowEntries.length, s.overflowEntries[s.entryIndex i] = (s.seqWord i).toNat := by
  have hi' : i < (s.inputSequence s.operandN).length := by rwa [length_inputSequence]
  rw [← getElem_inputSequence s _ hi'] at hv ⊢
  exact getElem_overflowTable _ _ hi' hv

/-- R127: the content of a field has room for every table index. -/
theorem entryIndex_lt_two_pow (hv : 2 ^ s.overflowRecord.tb ≤ (s.seqWord i).toNat) :
    s.entryIndex i < 2 ^ max s.overflowRecord.tb s.overflowRecord.ib := by
  obtain ⟨hlt, -⟩ := getElem_overflowEntries hi hv
  rw [length_overflowEntries] at hlt
  exact (lt_two_pow_indexBits hlt).trans_le (Nat.pow_le_pow_right (by decide) (Nat.le_max_right _ _))

theorem getElem_overflowFieldList (hi' : i < s.overflowFieldList.length) :
    s.overflowFieldList[i] = s.overflowField i := by
  have hlen : i < (s.inputSequence s.operandN).length := by rwa [length_inputSequence]
  simp only [State.overflowFieldList, getElem_overflowFields _ _ _ _ hlen, getElem_inputSequence, State.overflowField]
  rcases Nat.lt_or_ge (s.seqWord i).toNat (2 ^ s.overflowRecord.tb) with hlt | hge
  · rw [if_neg (Nat.not_le.mpr hlt), if_pos hlt]
  · rw [if_pos hge, if_neg (Nat.not_lt.mpr hge), Nat.zero_add]
    exact two_pow_or (entryIndex_lt_two_pow hi hge)

theorem overflowField_lt : s.overflowField i < 2 ^ s.overflowRecord.w := by
  have hpow : 2 ^ s.overflowRecord.w = 2 * 2 ^ max s.overflowRecord.tb s.overflowRecord.ib := Nat.pow_add 2 1 _
  have htb : 2 ^ s.overflowRecord.tb ≤ 2 ^ max s.overflowRecord.tb s.overflowRecord.ib :=
    Nat.pow_le_pow_right (by decide) (Nat.le_max_left _ _)
  unfold State.overflowField
  split
  · omega
  · next hge =>
    have hindex := entryIndex_lt_two_pow hi (Nat.le_of_not_lt hge)
    omega

end Fields

/-! ### What ENCODE.OVF leaves -/

/-- R76, R79: the table words of the container. -/
theorem Stored.contWord_table {s t : State} {h : Header} {table fields : List Nat} (hs : Stored s t h table fields)
    (hc : s.cfg.Valid) {j : Nat} (hj : j < table.length) : t.contWord (headerWords h.var + j) = wordOf table[j] := by
  have he := hs.encoded hc
  obtain ⟨-, -, -, -, -, rfl⟩ := hs
  exact word_writeContainer_table s.cfg s.epoch he s.cont hj

section StoredOverflow

variable {s t : State} (hs : Stored s t s.overflowRecord s.overflowEntries s.overflowFieldList) (hc : s.cfg.Valid)
include hs hc

/-- R127: a stored overflow header is possible. -/
theorem Stored.possibleHeader_overflow : PossibleHeader s.cfg s.overflowRecord :=
  hs.possibleHeader hc (length_overflowEntries s).symm ⟨thresholdBits_pos _, rfl⟩

/-- R126, R131: the entry of an element over the threshold holds it. -/
theorem Stored.contWord_entry {i : Nat} (hi : i < s.operandN)
    (hv : 2 ^ s.overflowRecord.tb ≤ (s.seqWord i).toNat) :
    s.entryIndex i < s.overflowRecord.k ∧ t.contWord (8 + s.entryIndex i) = s.seqWord i := by
  obtain ⟨hlt, hentry⟩ := getElem_overflowEntries hi hv
  refine ⟨length_overflowEntries s ▸ hlt, (hs.contWord_table hc hlt).trans ?_⟩
  rw [hentry, wordOf_toNat]

/-- R129, R130, R82: the payload holds the fields of the sequence, every other bit of it is zero. -/
theorem Stored.payloadHolds_overflow :
    PayloadHolds t.contWord (8 + s.overflowRecord.k) s.overflowRecord.plen s.overflowRecord.w s.operandN
      (fun i => i * s.overflowRecord.w) s.overflowField := by
  have hlen : s.overflowFieldList.length = s.operandN := (hs.encoded hc).fields_len
  exact hs.payloadHolds hc (fun i hi => getElem_overflowFieldList (hlen ▸ hi) hi)
    fun i hi => overflowField_lt (hlen ▸ hi)

/-- R132, R138: the elements of a container ENCODE.OVF wrote are those of the sequence. -/
theorem Stored.elementAt_overflow {i : Nat} (hi : i < s.operandN) :
    elementAt t.contWord s.overflowRecord i = some (s.seqWord i).toNat := by
  obtain ⟨hread, -⟩ := hs.payloadHolds_overflow hc
  have hfield : overflowFieldAt t.contWord s.overflowRecord i = s.overflowField i := hread i hi
  have hcb : s.overflowRecord.w - 1 = max s.overflowRecord.tb s.overflowRecord.ib := Nat.add_sub_cancel_left 1 _
  rw [elementAt_ovf rfl, hfield, hcb]
  rcases Nat.lt_or_ge (s.seqWord i).toNat (2 ^ s.overflowRecord.tb) with hlt | hge
  · have hvalue : s.overflowField i = (s.seqWord i).toNat := if_pos hlt
    rw [hvalue, if_pos (hlt.trans_le (Nat.pow_le_pow_right (by decide) (Nat.le_max_left _ _)))]
  · have hindex : s.overflowField i = 2 ^ max s.overflowRecord.tb s.overflowRecord.ib + s.entryIndex i :=
      if_neg (Nat.not_lt.mpr hge)
    obtain ⟨hlt, hentry⟩ := hs.contWord_entry hc hi hge
    rw [hindex, if_neg (by omega), Nat.add_sub_cancel_left, if_pos hlt, hentry]

end StoredOverflow

/-- Settles O28: what the container holds is read off its acceptance, its table, its payload, and the words past it. -/
theorem encodeOverflowWritesContainer : Obligations.EncodeOverflowWritesContainer := by
  intro s hc
  refine ⟨fun hn hlen => ?_, fun hcap => finish_of_error (encodeOverflow_of_not_fits hcap)⟩
  obtain ⟨t, ht, hs⟩ := exec_encodeOvf_stored hn hlen
  have hh := hs.possibleHeader_overflow hc
  obtain ⟨hresult, hclen⟩ := hs.length_toNat hc
  obtain ⟨-, -, hmagic, hversion, htag, -, -, hcount, hwidth, htb, hib, hk, -⟩ := hs.accepted hc hh (.inr rfl)
  rw [exec_cfg ht] at hmagic hversion
  exact ⟨t, ht, hs.succeeded, hs.encodeFrame, hresult, hclen, hs.paramsAre hc hh, hmagic, hversion, htag,
    hcount.symm, hwidth.symm, htb.symm, hib.symm, hk.symm, fun i => hs.contWord_entry hc,
    hs.payloadHolds_overflow hc, fun i hi => hs.contWord_above hc (hclen.trans_le hi)⟩

/-- Settles O54: element i of the container is SEQ[i], so its field holds it or names the entry that does. -/
theorem overflowReferentialIntegrity : Obligations.OverflowReferentialIntegrity := by
  intro s t hc ht herr i hi
  have hs := stored_of_exec_encodeOvf ht herr
  have hh := hs.possibleHeader_overflow hc
  obtain ⟨-, -, hwidth, -, -, hk, -⟩ := hs.paramsAre hc hh
  have helement := hs.elementAt_overflow hc hi
  dsimp only
  rw [hwidth, hk]
  refine ⟨fun hbit => ?_, fun hbit => ?_⟩
  · rw [elementAt_of_index rfl hh.width_pos hbit] at helement
    obtain ⟨hlt, hentry⟩ := Option.ite_none_right_eq_some.mp helement
    exact ⟨hlt, BitVec.eq_of_toNat_eq (Option.some.inj hentry)⟩
  · rw [elementAt_of_content rfl hh.width_pos hbit] at helement
    exact Option.some.inj helement

/-! ### The overflow round trip -/

/-- Settles O57: the container ENCODE.OVF wrote is accepted wherever CONT and CLEN are as it left them, and each of its
fields names the element of the sequence. -/
theorem overflowRoundTrip : Obligations.OverflowRoundTrip := by
  intro s hc hn hlen
  rw [overflowHeader_inputSequence] at hlen
  obtain ⟨t, ht, hs⟩ := exec_encodeOvf_stored hn hlen
  refine ⟨t, ht, fun u hcfg hepoch hcont hclen => ?_⟩
  have hu : SameContainer t u := ⟨hcfg, hepoch, hcont, hclen⟩
  have hcu : u.cfg = s.cfg := hcfg.trans (exec_cfg ht)
  have hh := hs.possibleHeader_overflow hc
  have hv : ∀ sel, (sel = .auto ∨ sel = .only .ovf) → validate u sel = .ok s.overflowRecord := fun _ =>
    hs.validate_sameContainer hc hh hu
  have hauto := hv .auto (.inl rfl)
  have hread : ∀ i, i < s.operandN → readOverflow u s.overflowRecord i = .ok (s.seqWord i).toNat := fun i hi => by
    rw [hu.readOverflow_eq]
    exact readOverflow_of_some (hs.accepted hc hh (.inl rfl)) rfl (hs.elementAt_overflow hc hi)
  refine ⟨fun d hd => ?_, fun g hg hi => ?_⟩
  · obtain ⟨r, hr, hdec⟩ := finish_decodeOverflow_of_ok hauto (hcu ▸ hn) hread
    obtain ⟨hsucc, -, -, hresult, hbelow, -⟩ := hdec.answers (hcu ▸ hc) fun i => (s.seqWord i).isLt
    exact ⟨r, (exec_decode_of_ok (h := s.overflowRecord) hv hd).trans hr, hsucc, BitVec.eq_of_toNat_eq hresult,
      fun i hi => BitVec.eq_of_toNat_eq (hbelow i hi)⟩
  · obtain ⟨r, hr, hf⟩ := finish_getOverflow_of_ok hauto hi (hread _ hi)
    obtain ⟨hsucc, -, -, hresult⟩ := hf.answers (hcu ▸ hc) (s.seqWord _).isLt
    exact ⟨r, (exec_get_of_ok (h := s.overflowRecord) hv hg).trans hr, hsucc, BitVec.eq_of_toNat_eq hresult⟩

end Sys2Proof.Machine
end

section
/-! PROOFS. The statements of 46_container.md: what every command that validates a container does, what PARSE loads,
that the validator accepts the containers R144 to R147 describe and no others, and that an ENCODE writes such a
container. -/

namespace Sys2Proof.Machine

/-! ### The commands that validate a container -/

/-- R152, R162: PARSE after validation. -/
def parseBody (s : State) (h : Header) : Except ErrCode State :=
  .ok ((s.loadParams h).complete (varNumber h.var))

theorem finish_parseContainer_eq (s : State) (sel : Selector) :
    s.finish (parseContainer s sel) = afterValidation sel parseBody s := by
  unfold parseContainer afterValidation
  cases validate s sel <;> rfl

/-- R160: DECODE.AUTO chooses its variant after validation. -/
theorem exec_decodeAuto (s : State) :
    exec .decodeAuto s = afterValidation .auto (fun u h => decodeBody h.var u h) s := by
  cases hv : validate s .auto with
  | ok h => rw [exec_decodeAuto_of_ok hv, afterValidation_of_ok hv]
  | error e =>
    show execDecodeAuto s = _
    simp only [execDecodeAuto, afterValidation, hv]

/-- R161: GET.AUTO chooses its variant after validation. -/
theorem exec_getAuto (s : State) : exec .getAuto s = afterValidation .auto (fun u h => getBody h.var u h) s := by
  cases hv : validate s .auto with
  | ok h => rw [exec_getAuto_of_ok hv, afterValidation_of_ok hv]
  | error e =>
    show execGetAuto s = _
    simp only [execGetAuto, afterValidation, hv]

/-- R143: each DECODE, GET and PARSE validates the container as its selector asks before it does anything else. -/
theorem exec_eq_afterValidation {i : Instr} {sel : Selector} (hi : containerSelector i = some sel) (s : State) :
    ∃ body, exec i s = afterValidation sel body s := by
  cases i <;> cases hi
  case decodeOvl => exact ⟨_, exec_decodeOvl s⟩
  case decodeNov => exact ⟨_, exec_decodeNov s⟩
  case decodeOvf => exact ⟨_, exec_decodeOvf s⟩
  case decodeAuto => exact ⟨_, exec_decodeAuto s⟩
  case getOvl => exact ⟨_, exec_getOvl s⟩
  case getNov => exact ⟨_, exec_getNov s⟩
  case getOvf => exact ⟨_, exec_getOvf s⟩
  case getAuto => exact ⟨_, exec_getAuto s⟩
  case parseOvl | parseNov | parseOvf | parseAuto => exact ⟨_, finish_parseContainer_eq s _⟩

/-- R45, R154: where validation fails, a command that validates a container reports its error and nothing else. -/
theorem exec_of_validate_error {i : Instr} {s : State} {sel : Selector} {e : ErrCode}
    (hi : containerSelector i = some sel) (hv : validate s sel = .error e) :
    ∃ t, exec i s = .next t ∧ OnlyErrorReported s t e := by
  obtain ⟨body, hbody⟩ := exec_eq_afterValidation hi s
  rw [hbody]
  exact afterValidation_of_error hv

/-- R144, R145: a container whose first word is not the magic fails the identity check for every selector. -/
theorem validate_of_not_magic {s : State} (hlen : 1 ≤ s.clen.toNat) (hcap : s.clen.toNat ≤ s.cfg.contWords)
    (hmagic : s.contWord 0 ≠ s.cfg.magic) (sel : Selector) : validate s sel = .error .magic := by
  have hid : checkIdentity s sel = .error .magic := by
    unfold checkIdentity
    simp only
    rw [if_neg (Nat.not_lt.mpr hcap), if_neg (Nat.not_lt.mpr hlen), if_pos hmagic]
  rw [validate, hid]

/-- Settles O42: the validator's E_MAGIC is the error of each of the twelve commands. -/
theorem headerRejection : Obligations.HeaderRejection := by
  intro s i hi hlen hcap hmagic
  obtain ⟨sel, hsel⟩ := Option.ne_none_iff_exists'.mp hi
  exact exec_of_validate_error hsel (validate_of_not_magic hlen hcap hmagic sel)

/-! ### PARSE -/

theorem exec_parseFor (v : Variant) (s : State) : exec (parseFor v) s = afterValidation (.only v) parseBody s := by
  cases v <;> exact finish_parseContainer_eq s _

theorem containerSelector_parseFor (v : Variant) : containerSelector (parseFor v) = some (.only v) := by
  cases v <;> rfl

/-- R152, R162: what a PARSE leaves. -/
theorem Parsed.answers {s t : State} {sel : Selector} {h : Header} (hp : Parsed s t sel h) (hc : s.cfg.Valid) :
    SucceededFrom s t ∧ ParseFrame s t ∧ ParamsAre t h ∧ t.result = wordOf (varNumber h.var) := by
  have hframe : ParseFrame s t := parseFrame_of_parsed (.inr ⟨h, hp⟩)
  have hsucc : SucceededFrom s t := (effect_of_parsed ⟨h, hp⟩).succeeded
  obtain ⟨hv, rfl⟩ := hp
  exact ⟨hsucc, hframe, (validate_possibleHeader hv).paramsAre_complete hc s _, rfl⟩

/-- R152: PARSE of a variant on an accepted container of it. -/
theorem exec_parseFor_of_accepted {s : State} {v : Variant} {h : Header} (hc : s.cfg.Valid)
    (ha : AcceptedContainer s (.only v) h) :
    ∃ t, exec (parseFor v) s = .next t ∧ SucceededFrom s t ∧ ParseFrame s t ∧ ParamsAre t h ∧
      t.result = wordOf (varNumber v) := by
  have hv := validate_of_accepted hc ha
  have hp : Parsed s ((s.loadParams h).complete (varNumber h.var)) (.only v) h := ⟨hv, rfl⟩
  refine ⟨_, (exec_parseFor v s).trans (afterValidation_of_ok hv), ?_⟩
  rw [← ha.var_eq]
  exact hp.answers hc

/-- Settles O37: the three variants of one lemma, and the validator's error where it fails. -/
theorem parseNamedLoadsHeader : Obligations.ParseNamedLoadsHeader := fun _ hc =>
  ⟨fun _ => exec_parseFor_of_accepted hc, fun _ => exec_parseFor_of_accepted hc,
    fun _ => exec_parseFor_of_accepted hc, fun v _ => exec_of_validate_error (containerSelector_parseFor v)⟩

/-! ### What the validator accepts -/

/-- R145, R159: a selector takes a variant if it is AUTO or names it. -/
theorem Selector.accepts_iff {sel : Selector} {v : Variant} :
    sel.accepts v = true ↔ sel = .auto ∨ sel = .only v := by
  cases sel <;> simp [Selector.accepts]

/-- R148: the words of CONT the header record holds. -/
theorem readHeader_words (s : State) (v : Variant) :
    (readHeader s v).var = v ∧ (readHeader s v).n = (s.contWord 3).toNat ∧
      (readHeader s v).w = (s.contWord 4).toNat ∧
      (readHeader s v).pbase = headerWords (readHeader s v).var + (readHeader s v).k ∧
      ((readHeader s v).var = .ovf → (readHeader s v).tb = (s.contWord 5).toNat ∧
        (readHeader s v).ib = (s.contWord 6).toNat ∧ (readHeader s v).k = (s.contWord 7).toNat) := by
  cases v with
  | ovl | nov => exact ⟨rfl, rfl, rfl, rfl, nofun⟩
  | ovf => exact ⟨rfl, rfl, rfl, rfl, fun _ => ⟨rfl, rfl, rfl⟩⟩

/-- R144 to R148: what the validator answers is the header of an accepted container. -/
theorem accepted_of_validate {s : State} {sel : Selector} {h : Header} (hv : validate s sel = .ok h) :
    AcceptedContainer s sel h := by
  have hh := validate_possibleHeader hv
  obtain ⟨v, hid, -, rfl, -, hlen⟩ := validate_ok hv
  obtain ⟨-, -, hmagic, hversion, htag, haccepts⟩ := checkIdentity_ok hid
  obtain ⟨hvar, hn, hw, hpbase, hovf⟩ := readHeader_words s v
  have hword2 : s.contWord 2 = (readHeader s v).tag := by rw [hh.tag_eq, hvar, tagVariant_some htag]
  exact ⟨hlen, hh.fits, hmagic, hversion, hword2, hh.tag_eq, hvar.symm ▸ Selector.accepts_iff.mp haccepts, hn, hw,
    hh.acceptedParameters hpbase hovf⟩

/-- Settles O39: the validator's checks are the conditions of an accepted container. -/
theorem validatorAcceptsExactlyContainers : Obligations.ValidatorAcceptsExactlyContainers :=
  fun _ _ _ hc => ⟨accepted_of_validate, validate_of_accepted hc⟩

/-! ### The container an ENCODE wrote -/

/-- R107, R117, R131: an ENCODE of a variant that succeeded stored a container of that variant, its header possible. -/
theorem stored_of_exec_encodeFor {v : Variant} {s t : State} (hc : s.cfg.Valid)
    (ht : exec (encodeFor v) s = .next t) (herr : t.errFlag = false) :
    ∃ h table fields, Stored s t h table fields ∧ h.var = v ∧ h.k = table.length ∧ PossibleHeader s.cfg h := by
  rcases exec_raise_or_completed ht with ⟨e, rfl⟩ | hs
  · simp at herr
  · cases v with
    | ovl | nov => exact ⟨_, _, _, hs, rfl, rfl, hs.possibleHeader hc rfl ⟨rfl, rfl, rfl⟩⟩
    | ovf => exact ⟨_, _, _, hs, rfl, rfl, hs.possibleHeader hc rfl ⟨thresholdBits_pos _, rfl⟩⟩

/-- Settles O58: the container is accepted under the encoder's record, by its variant's commands and by AUTO. -/
theorem encodedContainerValidates : Obligations.EncodedContainerValidates := by
  intro v s t hc ht herr
  obtain ⟨h, table, fields, hs, rfl, hk, hh⟩ := stored_of_exec_encodeFor hc ht herr
  have hvalid : ∀ sel, (sel = .auto ∨ sel = .only h.var) → validate t sel = .ok h := fun _ =>
    hs.validate_sameContainer hc hh ⟨rfl, rfl, rfl, rfl⟩
  have hpbase : h.pbase = headerWords h.var + h.k := hk ▸ (hs.encoded hc).pbase_eq
  obtain ⟨-, hclen⟩ := hs.length_toNat hc
  have hcount : h.n = s.argN.toNat := by
    obtain ⟨-, hn, -⟩ := hs
    exact hn
  exact ⟨h, hvalid _ (.inr rfl), hvalid _ (.inl rfl), rfl, hs.paramsAre hc hh, hcount, hpbase, hclen.symm⟩

end Sys2Proof.Machine
end

section
/-! PROOFS. The statements of 47_dispatcher.md: a command of AUTO is the command of the variant the tag names (R163), so
what DECODE, GET and PARSE of one variant do tells what AUTO does (R159 to R162). -/

namespace Sys2Proof.Machine

/-! ### AUTO and the variant the tag names -/

/-- R159: where AUTO and a variant's own selector validate alike, the command of AUTO goes on as the variant's. -/
theorem afterValidation_auto_eq {s : State} {v : Variant} (body : Variant → State → Header → Except ErrCode State)
    (hv : validate s .auto = validate s (.only v)) :
    afterValidation .auto (fun u h => body h.var u h) s = afterValidation (.only v) (body v) s := by
  unfold afterValidation
  rw [hv]
  cases hnamed : validate s (.only v) with
  | error e => rfl
  | ok h => simp only [(accepted_of_validate hnamed).var_eq]

/-- R163: where AUTO and a variant's own selector validate alike, the commands of AUTO are the variant's. -/
theorem exec_auto_eq {s : State} {v : Variant} (hv : validate s .auto = validate s (.only v)) :
    exec .decodeAuto s = exec (decodeFor v) s ∧ exec .getAuto s = exec (getFor v) s ∧
      exec .parseAuto s = exec (parseFor v) s := by
  refine ⟨?_, ?_, ?_⟩
  · rw [exec_decodeAuto, exec_decodeFor, afterValidation_auto_eq decodeBody hv]
  · rw [exec_getAuto, exec_getFor, afterValidation_auto_eq getBody hv]
  · rw [exec_parseFor, ← afterValidation_auto_eq (fun _ => parseBody) hv]
    exact finish_parseContainer_eq s .auto

/-- R148: validation depends on the selector through the identity checks only. -/
theorem validate_congr {s : State} {sel sel' : Selector} (hid : checkIdentity s sel = checkIdentity s sel') :
    validate s sel = validate s sel' := by
  unfold validate
  rw [hid]

/-- R144, R145: where CLEN, magic or version fails or the tag is unknown, the identity checks do not ask for the
selector. -/
theorem checkIdentity_eq_of_rejected {s : State}
    (hbad : s.clen.toNat < 3 ∨ s.cfg.contWords < s.clen.toNat ∨ s.contWord 0 ≠ s.cfg.magic ∨
      s.contWord 1 ≠ s.cfg.version ∨ ∀ u, s.contWord 2 ≠ s.cfg.tag u) (sel sel' : Selector) :
    checkIdentity s sel = checkIdentity s sel' := by
  unfold checkIdentity
  dsimp only
  split_ifs with hcap _ hmagic _ hversion hshort
  case neg =>
    have htag : ∀ u, s.contWord 2 ≠ s.cfg.tag u :=
      (((hbad.resolve_left hshort).resolve_left hcap).resolve_left hmagic).resolve_left hversion
    have hnone : tagVariant s.cfg (s.contWord 2) = none :=
      Option.eq_none_iff_forall_ne_some.mpr fun u hu => htag u (tagVariant_some hu)
    rw [hnone]
  all_goals rfl

/-- Settles O43: in both cases the identity checks of AUTO and of the variant agree, so their commands do. -/
theorem autoEqualsNamedVariant : Obligations.AutoEqualsNamedVariant := by
  intro s v hc
  refine ⟨fun hlen hcap hmagic hversion htag => ?_, fun hbad => ?_⟩
  · have hid : ∀ sel, (sel = .auto ∨ sel = .only v) → checkIdentity s sel = .ok v := fun _ =>
      checkIdentity_of_words hc hlen hcap hmagic hversion htag
    exact exec_auto_eq (validate_congr ((hid _ (.inl rfl)).trans (hid _ (.inr rfl)).symm))
  · exact exec_auto_eq (validate_congr (checkIdentity_eq_of_rejected hbad _ _))

/-! ### A container accepted for AUTO -/

section Accepted

variable {s : State} {h : Header}

/-- R159: a container accepted for AUTO is accepted for the variant its tag names. -/
theorem AcceptedContainer.named (ha : AcceptedContainer s .auto h) : AcceptedContainer s (.only h.var) h := by
  obtain ⟨hclen, hcap, hmagic, hversion, hword2, htag, -, hwords⟩ := ha
  exact ⟨hclen, hcap, hmagic, hversion, hword2, htag, .inr rfl, hwords⟩

/-- R163: on a container accepted for AUTO the commands of AUTO are those of its variant. -/
theorem AcceptedContainer.exec_auto (hc : s.cfg.Valid) (ha : AcceptedContainer s .auto h) :
    exec .decodeAuto s = exec (decodeFor h.var) s ∧ exec .getAuto s = exec (getFor h.var) s ∧
      exec .parseAuto s = exec (parseFor h.var) s :=
  exec_auto_eq ((validate_of_accepted hc ha).trans (validate_of_accepted hc ha.named).symm)

/-- R133: only an overflow container has fields that name no element. -/
theorem var_eq_ovf_of_elementAt {word : Nat → Word} {i : Nat} (hnone : elementAt word h i = none) :
    h.var = .ovf := by
  cases hvar : h.var with
  | ovl | nov => simp [elementAt, hvar] at hnone
  | ovf => rfl

end Accepted

/-! ### The commands of each variant, in one statement for all three -/

section Named

variable {s : State} {v : Variant} {h : Header} (hc : s.cfg.Valid) (ha : AcceptedContainer s (.only v) h)
include hc ha

/-- R109, R119, R134: DECODE of a variant on a container whose elements fit SEQ and can all be read. -/
theorem exec_decodeFor_of_accepted (hn : h.n ≤ s.cfg.seqWords)
    (hsome : ∀ i, i < h.n → elementAt s.contWord h i ≠ none) :
    ∃ t, exec (decodeFor v) s = .next t ∧ SucceededFrom s t ∧ DecodeFrame s t ∧ ParamsAre t h ∧
      t.result.toNat = h.n ∧ (∀ i, i < h.n → some (t.seqWord i).toNat = elementAt s.contWord h i) ∧
      ∀ i, h.n ≤ i → t.seqWord i = s.seqWord i := by
  have hvar := ha.var_eq
  cases v with
  | ovl =>
    obtain ⟨hdecode, -⟩ := decodeOverlapRestoresSequence s hc
    simpa only [decodeFor, elementAt, hvar, Option.some.injEq] using hdecode h ha hn
  | nov =>
    obtain ⟨hdecode, -⟩ := decodeNonOverlapRestoresSequence s hc
    simpa only [decodeFor, elementAt, hvar, Option.some.injEq] using hdecode h ha hn
  | ovf =>
    obtain ⟨hdecode, -⟩ := decodeOverflowRestoresSequence s hc
    exact hdecode h ha hn hsome

/-- R134: DECODE of a variant on a container with a field that names no element. -/
theorem exec_decodeFor_of_index (hn : h.n ≤ s.cfg.seqWords)
    (hnone : ∃ i, i < h.n ∧ elementAt s.contWord h i = none) :
    ∃ t, exec (decodeFor v) s = .next t ∧ OnlyErrorReported s t .index := by
  obtain ⟨i, hi, he⟩ := hnone
  obtain rfl : v = .ovf := ha.var_eq.symm.trans (var_eq_ovf_of_elementAt he)
  obtain ⟨-, hindex, -⟩ := decodeOverflowRestoresSequence s hc
  exact hindex h ha hn ⟨i, hi, he⟩

/-- R109, R119, R134: DECODE of a variant on a container with more elements than SEQ holds. -/
theorem exec_decodeFor_of_capacity (hn : s.cfg.seqWords < h.n) :
    ∃ t, exec (decodeFor v) s = .next t ∧ OnlyErrorReported s t .capacity := by
  rw [exec_decodeFor, afterValidation_of_ok (validate_of_accepted hc ha)]
  exact finish_of_error (by cases v <;> exact if_pos hn)

/-- R111, R121, R136: GET of a variant where element ARG_I is a value. -/
theorem exec_getFor_of_accepted {r : Nat} (hi : s.argI.toNat < h.n)
    (hsome : elementAt s.contWord h s.argI.toNat = some r) :
    ∃ t, exec (getFor v) s = .next t ∧ SucceededFrom s t ∧ ParseFrame s t ∧ ParamsAre t h ∧
      t.result.toNat = r := by
  have hvar := ha.var_eq
  cases v with
  | ovl =>
    obtain ⟨hget, -⟩ := getOverlapReadsElement s hc
    rw [elementAt, hvar, Option.some.injEq] at hsome
    exact hsome ▸ hget h ha hi
  | nov =>
    obtain ⟨hget, -⟩ := getNonOverlapReadsLane s hc
    have hh := validate_possibleHeader (validate_of_accepted hc ha)
    rw [elementAt, hvar, Option.some.injEq] at hsome
    rw [← hsome]
    exact (fieldRead_lane hh.width_pos hh.width_le s.contWord 5 s.argI.toNat).symm ▸ hget h ha hi
  | ovf =>
    obtain ⟨hget, -⟩ := getOverflowReadsElement s hc
    exact hget h r ha hi hsome

/-- R136: GET of a variant where the field of element ARG_I names no element. -/
theorem exec_getFor_of_index (hi : s.argI.toNat < h.n) (hnone : elementAt s.contWord h s.argI.toNat = none) :
    ∃ t, exec (getFor v) s = .next t ∧ OnlyErrorReported s t .index := by
  obtain rfl : v = .ovf := ha.var_eq.symm.trans (var_eq_ovf_of_elementAt hnone)
  obtain ⟨-, hindex, -⟩ := getOverflowReadsElement s hc
  exact hindex h ha hi hnone

/-- R111, R121, R136: GET of a variant where ARG_I is the element count or more. -/
theorem exec_getFor_of_range (hi : h.n ≤ s.argI.toNat) :
    ∃ t, exec (getFor v) s = .next t ∧ OnlyErrorReported s t .range := by
  rw [exec_getFor, afterValidation_of_ok (validate_of_accepted hc ha)]
  exact finish_of_error (by cases v <;> exact if_pos hi)

end Named

/-! ### DECODE.AUTO, GET.AUTO and PARSE.AUTO -/

/-- Settles O32: DECODE.AUTO is DECODE of the variant the tag names, or the validator's error. -/
theorem decodeAutoFollowsTag : Obligations.DecodeAutoFollowsTag := by
  intro s hc
  refine ⟨fun h ha hn hsome => ?_, fun h ha hn hnone => ?_, fun h ha hn => ?_, fun e => exec_of_validate_error rfl⟩
  · obtain ⟨hauto, -⟩ := ha.exec_auto hc
    exact hauto ▸ exec_decodeFor_of_accepted hc ha.named hn hsome
  · obtain ⟨hauto, -⟩ := ha.exec_auto hc
    exact hauto ▸ exec_decodeFor_of_index hc ha.named hn hnone
  · obtain ⟨hauto, -⟩ := ha.exec_auto hc
    exact hauto ▸ exec_decodeFor_of_capacity hc ha.named hn

/-- Settles O36: GET.AUTO is GET of the variant the tag names, or the validator's error. -/
theorem getAutoFollowsTag : Obligations.GetAutoFollowsTag := by
  intro s hc
  refine ⟨fun h r ha hi hsome => ?_, fun h ha hi hnone => ?_, fun h ha hi => ?_,
    fun e => exec_of_validate_error rfl⟩
  · obtain ⟨-, hauto, -⟩ := ha.exec_auto hc
    exact hauto ▸ exec_getFor_of_accepted hc ha.named hi hsome
  · obtain ⟨-, hauto, -⟩ := ha.exec_auto hc
    exact hauto ▸ exec_getFor_of_index hc ha.named hi hnone
  · obtain ⟨-, hauto, -⟩ := ha.exec_auto hc
    exact hauto ▸ exec_getFor_of_range hc ha.named hi

/-- Settles O38: PARSE.AUTO is PARSE of the variant the tag names, or the validator's error. -/
theorem parseAutoLoadsHeader : Obligations.ParseAutoLoadsHeader := by
  intro s hc
  refine ⟨fun h ha => ?_, fun e => exec_of_validate_error rfl⟩
  obtain ⟨-, -, hauto⟩ := ha.exec_auto hc
  obtain ⟨t, ht, hsucc, hframe, hparams, hresult⟩ := exec_parseFor_of_accepted hc ha.named
  have hnumber : ∀ v, h.var = v → t.result = wordOf (varNumber v) := fun _ hvar => hvar ▸ hresult
  exact ⟨t, hauto.trans ht, hsucc, hframe, hparams, hnumber .ovl, hnumber .nov, hnumber .ovf⟩

end Sys2Proof.Machine
end

section
/-! PROOFS. The statements of 60_exceptions.md and 70_reset_and_hazards.md: when validation ends in each of its errors,
which errors a command can end in, that STATUS and ERRCODE tell a command nothing, and the block at reset and while
BUSY is 1. -/

namespace Sys2Proof.Machine

/-! ### When the identity checks fail -/

section Identity

variable {s : State} {sel : Selector} {e : ErrCode} {v : Variant}

/-- R145: the first three words of CONT are those of a container of variant v, which the selector takes. -/
def Identified (s : State) (sel : Selector) (v : Variant) : Prop :=
  s.contWord 0 = s.cfg.magic ∧ s.contWord 1 = s.cfg.version ∧ s.contWord 2 = s.cfg.tag v ∧
    (sel = .auto ∨ sel = .only v)

/-- R144, R145: the condition of each error of the identity checks. -/
def IdentityFailure (s : State) (sel : Selector) : ErrCode → Prop
  | .capacity => s.cfg.contWords < s.operandLen
  | .magic => 1 ≤ s.operandLen ∧ s.operandLen ≤ s.cfg.contWords ∧ s.contWord 0 ≠ s.cfg.magic
  | .version => 2 ≤ s.operandLen ∧ s.operandLen ≤ s.cfg.contWords ∧ s.contWord 0 = s.cfg.magic ∧
      s.contWord 1 ≠ s.cfg.version
  | .tag => 3 ≤ s.operandLen ∧ s.operandLen ≤ s.cfg.contWords ∧ s.contWord 0 = s.cfg.magic ∧
      s.contWord 1 = s.cfg.version ∧ ¬ ∃ v, s.contWord 2 = s.cfg.tag v ∧ (sel = .auto ∨ sel = .only v)
  | .length => s.operandLen ≤ s.cfg.contWords ∧
      (s.operandLen = 0 ∨ (s.operandLen = 1 ∧ s.contWord 0 = s.cfg.magic) ∨
        (s.operandLen = 2 ∧ s.contWord 0 = s.cfg.magic ∧ s.contWord 1 = s.cfg.version))
  | .param | .index | .range | .illegalCmd | .illegalArg => False

theorem checkIdentity_of_failure (h : IdentityFailure s sel e) : checkIdentity s sel = .error e := by
  unfold checkIdentity
  dsimp only
  cases e with
  | capacity => exact if_pos h
  | magic =>
    obtain ⟨hlen, hcap, hmagic⟩ := h
    rw [if_neg (by omega), if_neg (by omega), if_pos hmagic]
  | version =>
    obtain ⟨hlen, hcap, hmagic, hversion⟩ := h
    rw [if_neg (by omega), if_neg (by omega), if_neg (not_not.mpr hmagic), if_neg (by omega), if_pos hversion]
  | tag =>
    obtain ⟨hlen, hcap, hmagic, hversion, hnone⟩ := h
    rw [if_neg (by omega), if_neg (by omega), if_neg (not_not.mpr hmagic), if_neg (by omega),
      if_neg (not_not.mpr hversion), if_neg (by omega)]
    cases ht : tagVariant s.cfg (s.contWord 2) with
    | none => rfl
    | some v => exact if_neg fun ha => hnone ⟨v, tagVariant_some ht, Selector.accepts_iff.mp ha⟩
  | length =>
    obtain ⟨hcap, hlen | ⟨hlen, hmagic⟩ | ⟨hlen, hmagic, hversion⟩⟩ := h
    · rw [if_neg (by omega), if_pos (by omega)]
    · rw [if_neg (by omega), if_neg (by omega), if_neg (not_not.mpr hmagic), if_pos (by omega)]
    · rw [if_neg (by omega), if_neg (by omega), if_neg (not_not.mpr hmagic), if_neg (by omega),
        if_neg (not_not.mpr hversion), if_pos (by omega)]
  | param | index | range | illegalCmd | illegalArg => exact h.elim

/-- R144, R145: a container with no failing check is identified. -/
theorem identityFailure_or_identified (s : State) (sel : Selector) :
    (∃ e, IdentityFailure s sel e) ∨
      (3 ≤ s.operandLen ∧ s.operandLen ≤ s.cfg.contWords ∧ ∃ v, Identified s sel v) := by
  by_cases hcap : s.cfg.contWords < s.operandLen
  · exact .inl ⟨.capacity, hcap⟩
  have hfits := Nat.le_of_not_lt hcap
  by_cases h0 : s.operandLen = 0
  · exact .inl ⟨.length, hfits, .inl h0⟩
  by_cases hmagic : s.contWord 0 = s.cfg.magic
  case neg => exact .inl ⟨.magic, by omega, hfits, hmagic⟩
  by_cases h1 : s.operandLen = 1
  · exact .inl ⟨.length, hfits, .inr (.inl ⟨h1, hmagic⟩)⟩
  by_cases hversion : s.contWord 1 = s.cfg.version
  case neg => exact .inl ⟨.version, by omega, hfits, hmagic, hversion⟩
  by_cases h2 : s.operandLen = 2
  · exact .inl ⟨.length, hfits, .inr (.inr ⟨h2, hmagic, hversion⟩)⟩
  by_cases htag : ∃ v, s.contWord 2 = s.cfg.tag v ∧ (sel = .auto ∨ sel = .only v)
  · obtain ⟨v, hv⟩ := htag
    exact .inr ⟨by omega, hfits, v, hmagic, hversion, hv⟩
  · exact .inl ⟨.tag, by omega, hfits, hmagic, hversion, htag⟩

theorem checkIdentity_eq_ok_iff (hc : s.cfg.Valid) :
    checkIdentity s sel = .ok v ↔
      3 ≤ s.operandLen ∧ s.operandLen ≤ s.cfg.contWords ∧ Identified s sel v := by
  constructor
  · intro h
    obtain ⟨hlen, hcap, hmagic, hversion, htag, hsel⟩ := checkIdentity_ok h
    exact ⟨hlen, hcap, hmagic, hversion, tagVariant_some htag, Selector.accepts_iff.mp hsel⟩
  · rintro ⟨hlen, hcap, hmagic, hversion, htag, hsel⟩
    exact checkIdentity_of_words hc hlen hcap hmagic hversion htag hsel

/-- R144, R145: the conditions leave no other error. -/
theorem checkIdentity_eq_error_iff (hc : s.cfg.Valid) :
    checkIdentity s sel = .error e ↔ IdentityFailure s sel e := by
  refine ⟨fun h => ?_, checkIdentity_of_failure⟩
  obtain ⟨e', he'⟩ | ⟨hlen, hcap, v, hv⟩ := identityFailure_or_identified s sel
  · cases h.symm.trans (checkIdentity_of_failure he')
    exact he'
  · cases h.symm.trans ((checkIdentity_eq_ok_iff hc).mpr ⟨hlen, hcap, hv⟩)

/-! ### When validation fails -/

/-- R148: past the identity checks only E_LENGTH and E_PARAM are left. -/
theorem validate_eq_error_iff_checkIdentity (hlength : e ≠ .length) (hparam : e ≠ .param) :
    validate s sel = .error e ↔ checkIdentity s sel = .error e := by
  unfold validate
  cases checkIdentity s sel with
  | error e' => simp
  | ok v =>
    dsimp only
    split_ifs <;> simp [hlength.symm, hparam.symm]

/-- R147: the parameters that words 4 to 7 of CONT give a variant are in range. -/
def ParametersInRange (s : State) : Variant → Prop
  | .ovl | .nov => 1 ≤ (s.contWord 4).toNat ∧ (s.contWord 4).toNat ≤ 32
  | .ovf => 1 ≤ (s.contWord 5).toNat ∧
      (s.contWord 4).toNat = 1 + max (s.contWord 5).toNat (s.contWord 6).toNat ∧ (s.contWord 4).toNat ≤ 32

theorem parametersOk_readHeader_iff : parametersOk (readHeader s v) = true ↔ ParametersInRange s v := by
  cases v with
  | ovl | nov | ovf =>
    rw [ParametersInRange, Nat.one_le_iff_ne_zero]
    exact decide_eq_true_iff

/-- R148, R175: E_PARAM is the error of an identified container whose header words are there. -/
theorem validate_eq_param_iff (hc : s.cfg.Valid) :
    validate s sel = .error .param ↔
      ∃ v, (3 ≤ s.operandLen ∧ s.operandLen ≤ s.cfg.contWords ∧ Identified s sel v) ∧
        headerWords v ≤ s.operandLen ∧ ¬ ParametersInRange s v := by
  simp only [← checkIdentity_eq_ok_iff hc, ← parametersOk_readHeader_iff]
  unfold validate
  cases hid : checkIdentity s sel with
  | error e' =>
    have hparam : e' ≠ .param := by
      rintro rfl
      exact (checkIdentity_eq_error_iff hc).mp hid
    simpa using hparam
  | ok v =>
    dsimp only
    split_ifs with hshort hbad hlen <;> simp_all

/-- R148, R174: E_LENGTH is an error of the identity checks and of an identified container. -/
theorem validate_eq_length_iff (hc : s.cfg.Valid) :
    validate s sel = .error .length ↔
      IdentityFailure s sel .length ∨
        ∃ v, (3 ≤ s.operandLen ∧ s.operandLen ≤ s.cfg.contWords ∧ Identified s sel v) ∧
          (s.operandLen < headerWords v ∨
            headerWords v ≤ s.operandLen ∧ ParametersInRange s v ∧ s.operandLen ≠ (readHeader s v).len) := by
  simp only [← checkIdentity_eq_error_iff hc, ← checkIdentity_eq_ok_iff hc, ← parametersOk_readHeader_iff]
  unfold validate
  cases checkIdentity s sel with
  | error e' => simp
  | ok v =>
    dsimp only
    split_ifs with hshort hbad hlen <;> simp_all

end Identity

/-- Settles O40: the four errors are those of the identity checks. -/
theorem identityErrorCauses : Obligations.IdentityErrorCauses := by
  intro s sel hc
  have hcause : ∀ e, e ≠ .length → e ≠ .param → (validate s sel = .error e ↔ IdentityFailure s sel e) :=
    fun e hlength hparam =>
      (validate_eq_error_iff_checkIdentity hlength hparam).trans (checkIdentity_eq_error_iff hc)
  exact ⟨hcause .capacity nofun nofun, hcause .magic nofun nofun, hcause .version nofun nofun,
    hcause .tag nofun nofun⟩

/-- Settles O41: the identity checks leave a variant, whose parameters and length are checked next. -/
theorem lengthAndParameterErrorCauses : Obligations.LengthAndParameterErrorCauses := by
  intro s sel hc
  have hthree : ∀ v, headerWords v ≤ s.operandLen → 3 ≤ s.operandLen := fun v =>
    Nat.le_trans (Nat.le_trans (by decide) (headerWords_ge v))
  refine ⟨(validate_eq_param_iff hc).trans ⟨?_, ?_⟩, (validate_eq_length_iff hc).trans ⟨?_, ?_⟩⟩
  · rintro ⟨v, ⟨-, hcap, hid⟩, hlong, hbad⟩
    refine ⟨hcap, ?_⟩
    cases v with
    | ovl => exact .inl ⟨hlong, .inl hid, by unfold ParametersInRange at hbad; omega⟩
    | nov => exact .inl ⟨hlong, .inr hid, by unfold ParametersInRange at hbad; omega⟩
    | ovf => exact .inr ⟨hlong, hid, by unfold ParametersInRange at hbad; omega⟩
  · rintro ⟨hcap, ⟨hlong, hid | hid, hbad⟩ | ⟨hlong, hid, hbad⟩⟩
    · exact ⟨.ovl, ⟨hthree .ovl hlong, hcap, hid⟩, hlong, by unfold ParametersInRange; omega⟩
    · exact ⟨.nov, ⟨hthree .nov hlong, hcap, hid⟩, hlong, by unfold ParametersInRange; omega⟩
    · exact ⟨.ovf, ⟨hthree .ovf hlong, hcap, hid⟩, hlong, by unfold ParametersInRange; omega⟩
  · rintro (⟨hcap, h0 | h1 | h2⟩ | ⟨v, ⟨h3, hcap, hid⟩, hbad⟩)
    · exact ⟨hcap, .inl h0⟩
    · exact ⟨hcap, .inr (.inl h1)⟩
    · exact ⟨hcap, .inr (.inr (.inl h2))⟩
    · refine ⟨hcap, .inr (.inr (.inr ?_))⟩
      cases v with
      | ovl =>
        rcases hbad with hshort | ⟨hlong, ⟨hw, hw32⟩, hlen⟩
        · exact .inl ⟨h3, hshort, .inl hid⟩
        · exact .inr (.inr (.inl ⟨hlong, hid, hw, hw32, hlen⟩))
      | nov =>
        rcases hbad with hshort | ⟨hlong, ⟨hw, hw32⟩, hlen⟩
        · exact .inl ⟨h3, hshort, .inr hid⟩
        · exact .inr (.inr (.inr (.inl ⟨hlong, hid, hw, hw32, hlen⟩)))
      | ovf =>
        rcases hbad with hshort | ⟨hlong, ⟨htb, hfw, hw32⟩, hlen⟩
        · exact .inr (.inl ⟨h3, hshort, hid⟩)
        · exact .inr (.inr (.inr (.inr ⟨hlong, hid, htb, hfw, hw32, hlen⟩)))
  · rintro ⟨hcap, h0 | h1 | h2 | ⟨h3, hshort, hid | hid⟩ | ⟨h3, hshort, hid⟩ | ⟨hlong, hid, hw, hw32, hlen⟩ |
      ⟨hlong, hid, hw, hw32, hlen⟩ | ⟨hlong, hid, htb, hfw, hw32, hlen⟩⟩
    · exact .inl ⟨hcap, .inl h0⟩
    · exact .inl ⟨hcap, .inr (.inl h1)⟩
    · exact .inl ⟨hcap, .inr (.inr h2)⟩
    · exact .inr ⟨.ovl, ⟨h3, hcap, hid⟩, .inl hshort⟩
    · exact .inr ⟨.nov, ⟨h3, hcap, hid⟩, .inl hshort⟩
    · exact .inr ⟨.ovf, ⟨h3, hcap, hid⟩, .inl hshort⟩
    · exact .inr ⟨.ovl, ⟨hthree .ovl hlong, hcap, hid⟩, .inr ⟨hlong, ⟨hw, hw32⟩, hlen⟩⟩
    · exact .inr ⟨.nov, ⟨hthree .nov hlong, hcap, hid⟩, .inr ⟨hlong, ⟨hw, hw32⟩, hlen⟩⟩
    · exact .inr ⟨.ovf, ⟨hthree .ovf hlong, hcap, hid⟩, .inr ⟨hlong, ⟨htb, hfw, hw32⟩, hlen⟩⟩

/-! ### The errors of a command -/

/-- Settles O46: a command that left ERR 1 had no effect, so it reported one of its errors. -/
theorem errorsOfEachCommand : Obligations.ErrorsOfEachCommand := by
  intro i s t h herr
  obtain ⟨t', ht', hend⟩ := exec_cases i s
  cases ht'.symm.trans h
  rcases hend with ⟨e, he, rfl⟩ | hdone
  · exact ⟨e, he, rfl⟩
  · rw [succeeded_errFlag hdone.effect.succeeded] at herr
    cases herr

/-- Settles O44: the codes of the table. -/
theorem errorCodeNumbers : Obligations.ErrorCodeNumbers := by
  unfold Obligations.ErrorCodeNumbers
  decide

/-! ### STATUS and ERRCODE tell a command nothing -/

/-- R185: two runs ended in states alike but for STATUS, with the same ERR. -/
def EndAlike (o o' : Host.Outcome State Fault Refusal) : Prop :=
  ∃ t t', o = .next t ∧ o' = .next t' ∧ t' = { t with status := t'.status } ∧ t'.errFlag = t.errFlag

@[simp] theorem State.completeNoResult_errFlag (s : State) : s.completeNoResult.errFlag = false :=
  succeeded_errFlag (succeeded_of_completed (s := s) rfl rfl)

section EndAlike

variable {s s' : State} (hs : ErrorFrame s s')
include hs

/-- R168: the same error reported on states alike but for STATUS and ERRCODE. -/
theorem endAlike_of_onlyErrorReported {o o' : Host.Outcome State Fault Refusal} {e : ErrCode}
    (h : ∃ t, o = .next t ∧ OnlyErrorReported s t e) (h' : ∃ t, o' = .next t ∧ OnlyErrorReported s' t e) :
    EndAlike o o' := by
  obtain ⟨t, ht, ⟨-, herr, -, -, hcode⟩, hframe⟩ := h
  obtain ⟨t', ht', ⟨-, herr', -, -, hcode'⟩, hframe'⟩ := h'
  refine ⟨t, t', ht, ht', ?_, herr'.trans herr.symm⟩
  unfold ErrorFrame at hs hframe hframe'
  rw [hframe', hcode', hs, hframe, hcode]

theorem endAlike_raise (e : ErrCode) : EndAlike (.next (s.raise e)) (.next (s'.raise e)) :=
  endAlike_of_onlyErrorReported hs ⟨_, rfl, onlyErrorReported_raise s e⟩ ⟨_, rfl, onlyErrorReported_raise s' e⟩

/-- R167: an answer on states alike but for STATUS and ERRCODE. -/
theorem endAlike_complete (r : Nat) : EndAlike (.next (s.complete r)) (.next (s'.complete r)) := by
  refine ⟨_, _, rfl, rfl, ?_, by simp⟩
  rw [hs]
  rfl

/-- R107, R117, R131: the end of every ENCODE. -/
theorem endAlike_encode (h : Header) (table fields : List Nat) :
    EndAlike (s.finish (if s.cfg.seqWords < s.operandN then .error .capacity else storeContainer s h table fields))
      (s'.finish (if s'.cfg.seqWords < s'.operandN then .error .capacity
        else storeContainer s' h table fields)) := by
  obtain ⟨hcfg, hN⟩ : s'.cfg = s.cfg ∧ s'.argN = s.argN := by rw [hs]; exact ⟨rfl, rfl⟩
  unfold storeContainer
  simp only [State.operandN, hcfg, hN]
  split_ifs
  · exact endAlike_raise hs _
  · exact endAlike_raise hs _
  · exact endAlike_complete (by rw [hs]; rfl) _

/-- R44: the two runs of a command that read the same container. -/
theorem SameEnd.endAlike {i : Instr} {o o' : Host.Outcome State Fault Refusal} (h : SameEnd i s s' o o') :
    EndAlike o o' := by
  cases h with
  | raised e => exact endAlike_raise hs e
  | decoded h values _ => exact endAlike_complete (by rw [hs]; rfl) _
  | loaded h r _ => exact endAlike_complete (by rw [hs]; rfl) _

end EndAlike

/-- Settles O50: the container commands by what they read, the others by their checks. -/
theorem commandsIgnoreEarlierErrors : Obligations.CommandsIgnoreEarlierErrors := by
  intro i s status errcode
  have hs : ErrorFrame s { s with status := status, errcode := errcode } := rfl
  have hsame : SameContainer s { s with status := status, errcode := errcode } := ⟨rfl, rfl, rfl, rfl⟩
  cases i with
  | bitlen => exact endAlike_complete hs _
  | width =>
    rcases Nat.lt_or_ge s.cfg.seqWords s.operandN with hn | hn
    · exact ⟨_, _, exec_width_of_lt hn, exec_width_of_lt hn, rfl, by simp⟩
    · exact ⟨_, _, exec_width_of_le hn, exec_width_of_le hn, rfl, by simp⟩
  | rdfield =>
    cases hf : checkField s with
    | some e =>
      exact endAlike_of_onlyErrorReported hs (exec_field_of_error (.inl rfl) hf) (exec_field_of_error (.inl rfl) hf)
    | none => exact ⟨_, _, exec_rdfield_of_none hf, exec_rdfield_of_none hf, rfl, by simp⟩
  | wrfield =>
    cases hf : checkField s with
    | some e =>
      exact endAlike_of_onlyErrorReported hs (exec_field_of_error (.inr rfl) hf) (exec_field_of_error (.inr rfl) hf)
    | none => exact ⟨_, _, exec_wrfield_of_none hf, exec_wrfield_of_none hf, rfl, by simp⟩
  | encodeOvl | encodeNov | encodeOvf => exact endAlike_encode hs _ _ _
  | decodeOvl | decodeNov | decodeOvf | decodeAuto | getOvl | getNov | getOvf | getAuto
  | parseOvl | parseNov | parseOvf | parseAuto => exact (hsame.exec_sameEnd (by decide) fun _ => rfl).endAlike hs

/-! ### The reset state -/

/-- R77: the payload of an empty sequence. -/
theorem payloadLength_zero (v : Variant) {w : Nat} (hw : 1 ≤ w) (hw32 : w ≤ 32) : payloadLength v 0 w = 0 := by
  cases v with
  | ovl | ovf => simp [payloadLength, ceilDiv]
  | nov =>
    have hlanes : 0 < 32 / w := Nat.div_pos hw32 hw
    exact Nat.div_eq_of_lt (by omega)

/-- R193: the container of an empty sequence is its header. -/
theorem Encoded.len_of_empty {h : Header} {fields : List Nat} (he : Encoded h [] fields) (hn : h.n = 0) :
    h.len = headerWords h.var := by
  rw [he.len_eq, he.pbase_eq, he.plen_eq, hn, payloadLength_zero _ he.width_pos he.width_le]
  rfl

/-- R193: an ENCODE of an empty sequence succeeds, the header fitting every CONT that R9 allows. -/
theorem exec_encode_of_empty {i : Instr} {s : State} {h : Header} {table fields : List Nat} (hc : s.cfg.Valid)
    (he : Encoded h table fields) (htable : table = []) (hn : h.n = 0)
    (hexec : h.len ≤ s.cfg.contWords → ∃ t, exec i s = .next t ∧ Stored s t h table fields) :
    ∃ t, exec i s = .next t ∧ SucceededFrom s t ∧ t.clen = wordOf (headerWords h.var) ∧ t.pN = 0#32 := by
  subst htable
  have hlen := he.len_of_empty hn
  have hheader : headerWords h.var ≤ 8 := by cases h.var <;> decide
  obtain ⟨-, -, hcap, -⟩ := hc
  obtain ⟨t, ht, hs⟩ := hexec (by omega)
  refine ⟨t, ht, hs.succeeded, ?_⟩
  obtain ⟨-, -, -, -, -, rfl⟩ := hs
  exact ⟨congrArg wordOf hlen, congrArg wordOf hn⟩

/-- R105: ENCODE.OVL hands `writeContainer` the header of its input. -/
theorem overlapRecord_encoded (s : State) : Encoded s.overlapRecord [] (s.inputSequence s.operandN) :=
  overlapHeader_inputSequence s ▸ overlapHeader_encoded fun _ => mem_inputSequence_lt

/-- R144, R193: no container is accepted while CLEN is 0. -/
theorem validate_of_no_words {s : State} (hc : s.cfg.Valid) (hlen : s.clen = 0#32) (sel : Selector) :
    validate s sel = .error .length := by
  obtain ⟨-, hlength⟩ := lengthAndParameterErrorCauses s sel hc
  have h0 : s.clen.toNat = 0 := by rw [hlen]; rfl
  exact hlength.mpr ⟨h0 ▸ Nat.zero_le _, .inl h0⟩

/-- Settles O14: at reset the sequence is empty, the field width is 0 and there is no container. -/
theorem commandsOnTheResetState : Obligations.CommandsOnTheResetState := by
  intro c hc s
  have hn : s.operandN ≤ s.cfg.seqWords := Nat.zero_le _
  have hcheck : checkField s = some .illegalArg := checkField_of_width (.inl rfl)
  refine ⟨⟨_, exec_bitlen s, succeeded_of_completed rfl rfl, rfl⟩,
    ⟨_, exec_width_of_le hn, succeeded_of_completed rfl rfl, rfl⟩,
    exec_encode_of_empty hc (overlapRecord_encoded s) rfl rfl (exec_encodeOvl_stored hn),
    exec_encode_of_empty hc (nonOverlapRecord_encoded s) rfl rfl (exec_encodeNov_stored hn),
    exec_encode_of_empty hc (overflowRecord_encoded (Nat.zero_le _)) rfl rfl (exec_encodeOvf_stored hn),
    exec_field_of_error (.inl rfl) hcheck, exec_field_of_error (.inr rfl) hcheck, fun i hi => ?_⟩
  obtain ⟨sel, hsel⟩ := Option.ne_none_iff_exists'.mp hi
  exact exec_of_validate_error hsel (validate_of_no_words hc rfl sel)

/-- R190: the register column after a reset, whatever the state was. -/
theorem registerColumn_resetBlock (s : State) :
    registerColumn s.resetBlock = registerColumn (State.resetWith s.cfg) := rfl

/-- Settles O12: the column of the reset state, and a reset of any state. -/
theorem resetSetsEveryRegister : Obligations.ResetSetsEveryRegister :=
  ⟨fun _ => rfl, fun s rest hp => ⟨_, step_reset hp, registerColumn_resetBlock { s with pending := rest }⟩⟩

/-! ### While BUSY is 1 -/

/-- R195: an operation allowed while BUSY is 1 is performed. -/
theorem step_allowedWhileBusy {s : State} {op : HostOp} {rest : List HostOp} (hp : s.pending = op :: rest)
    (hop : op.allowedWhileBusy = true) : step s = State.perform { s with pending := rest } op := by
  simp [step, State.serveHost, hp, hop]

/-- R195: any other is refused. -/
theorem step_accessWhileBusy {s : State} {op : HostOp} {rest : List HostOp} (hp : s.pending = op :: rest)
    (hb : s.busyFlag = true) (hop : op.allowedWhileBusy = false) : step s = .refused .accessWhileBusy := by
  simp [step, State.serveHost, hp, hb, hop]

/-- R195: STATUS reads and reset are the operations allowed while BUSY is 1. -/
theorem allowedWhileBusy_iff {op : HostOp} : op.allowedWhileBusy = true ↔ op = .rd 0x01 ∨ op = .reset := by
  cases op <;> simp [HostOp.allowedWhileBusy]

/-- Settles O10: STATUS stands at index 1. -/
theorem busyAdmitsOnlyStatusReads : Obligations.BusyAdmitsOnlyStatusReads := by
  intro s op rest hb hp
  refine ⟨?_, fun hread hreset => step_accessWhileBusy hp hb ?_⟩
  · rintro rfl
    exact (step_allowedWhileBusy hp rfl).trans (perform_rd (r := .status) _ rfl)
  · rw [← Bool.not_eq_true, allowedWhileBusy_iff, not_or]
    exact ⟨hread, hreset⟩

end Sys2Proof.Machine
end
